-- ==== Sys2Proof/Word.lean ====
section
/-! DEFINITION. The widths of the MR16 (spec rules R2, R6, R13, R19): registers and words have 16 bits,
memory is made of bytes, the program counter has 15 bits. -/

namespace Sys2Proof

/-- A 16-bit word: a general register, a MEM16 value, a data address (R2). -/
abbrev Word := BitVec 16

/-- An 8-bit byte: a MEM8 value (R2, R30). -/
abbrev Byte := BitVec 8

/-- The architectural program counter: 15 bits, the number of a 16-bit instruction word (R13). -/
abbrev Pc := BitVec 15

end Sys2Proof
end

