-- ==== Sys2Proof/Syntax.lean ====
section
/-! DEFINITION. The instruction forms of the MR16 (spec rules R52 to R61): one constructor of `Instr` for each of
the 103 rows of spec/opcode_table.json, carrying operand VALUES as an assembler writes them, and `Fields`, the
operand fields of R52 an encoding has to hold. The source has no bit pattern (R51), so nothing here numbers an
operation or a condition code. -/

namespace Sys2Proof

/-- A general register R0 to R15 by its number (R10, R53). -/
abbrev Reg := Fin 16

/-- R15, the stack pointer SP (R11). -/
abbrev spReg : Reg := 15

/-- The fifteen condition codes (R60); `cs` is also HS, `cc` is also LO, `al` is spelled BRA or JMP. -/
inductive Cond where
  | cs | cc | eq | ne | vs | vc | mi | pl | ls | hi | lt | ge | le | gt | al
deriving DecidableEq, Repr, Inhabited

/-- The twelve ALU operations (R121), shared by the three operand forms. -/
inductive AluOp where
  | mov | and | or | xor | add | adc | sub | sbc | mlt | mlh | tst | cmp
deriving DecidableEq, Repr, Inhabited

/-- The instructions of format `NONE` (R52). -/
inductive PlainOp where
  | nop | clc | stc | clz | stz | cli | sti | ret | retCli | retSti | pushFlag | popFlag
deriving DecidableEq, Repr, Inhabited

/-- The instructions of format `RP` (R52). -/
inductive StackOp where
  | push | pop
deriving DecidableEq, Repr, Inhabited

/-- The instructions of format `RA_RP_DISP4` (R52). -/
inductive ShortMemOp where
  | ldm | stm
deriving DecidableEq, Repr, Inhabited

/-- The instructions of format `RA_RP_DISP11` (R52). -/
inductive LongMemOp where
  | ldw | stw | ldb | stb
deriving DecidableEq, Repr, Inhabited

/-- The instruction forms (R61), operand values as written in assembler (R53 to R60, R64). -/
inductive Instr where
  -- system control (rows 1 to 7 of R61)
  /-- `NOP` (R70, no operation). -/
  | nop
  /-- `CLC` (R71, CF <- 0). -/
  | clc
  /-- `STC` (R72, CF <- 1). -/
  | stc
  /-- `CLZ` (R73, ZF <- 0). -/
  | clz
  /-- `STZ` (R74, ZF <- 1). -/
  | stz
  /-- `CLI` (R75, IF <- 0). -/
  | cli
  /-- `STI` (R76, IF <- 1). -/
  | sti
  -- branch (rows 8 to 15): B{CC} {REL8}, R81; `rel` is the even byte offset REL8 (R56)
  /-- `BCS rel` (R81). -/
  | bcs (rel : Int)
  /-- `BCC rel` (R81). -/
  | bcc (rel : Int)
  /-- `BEQ rel` (R81). -/
  | beq (rel : Int)
  /-- `BNE rel` (R81). -/
  | bne (rel : Int)
  /-- `BVS rel` (R81). -/
  | bvs (rel : Int)
  /-- `BVC rel` (R81). -/
  | bvc (rel : Int)
  /-- `BMI rel` (R81). -/
  | bmi (rel : Int)
  /-- `BPL rel` (R81). -/
  | bpl (rel : Int)
  /-- `BLS rel` (R81). -/
  | bls (rel : Int)
  /-- `BHI rel` (R81). -/
  | bhi (rel : Int)
  /-- `BLT rel` (R81). -/
  | blt (rel : Int)
  /-- `BGE rel` (R81). -/
  | bge (rel : Int)
  /-- `BLE rel` (R81). -/
  | ble (rel : Int)
  /-- `BGT rel` (R81). -/
  | bgt (rel : Int)
  /-- `BRA rel` (R81). -/
  | bra (rel : Int)
  -- J{CC} {RB}, R82
  /-- `JCS rb` (R82). -/
  | jcsR (rb : Reg)
  /-- `JCC rb` (R82). -/
  | jccR (rb : Reg)
  /-- `JEQ rb` (R82). -/
  | jeqR (rb : Reg)
  /-- `JNE rb` (R82). -/
  | jneR (rb : Reg)
  /-- `JVS rb` (R82). -/
  | jvsR (rb : Reg)
  /-- `JVC rb` (R82). -/
  | jvcR (rb : Reg)
  /-- `JMI rb` (R82). -/
  | jmiR (rb : Reg)
  /-- `JPL rb` (R82). -/
  | jplR (rb : Reg)
  /-- `JLS rb` (R82). -/
  | jlsR (rb : Reg)
  /-- `JHI rb` (R82). -/
  | jhiR (rb : Reg)
  /-- `JLT rb` (R82). -/
  | jltR (rb : Reg)
  /-- `JGE rb` (R82). -/
  | jgeR (rb : Reg)
  /-- `JLE rb` (R82). -/
  | jleR (rb : Reg)
  /-- `JGT rb` (R82). -/
  | jgtR (rb : Reg)
  /-- `JMP rb` (R82). -/
  | jmpR (rb : Reg)
  -- J{CC} {ABS15}, R83; `abs` is the even byte address ABS15 (R57)
  /-- `JCS abs` (R83). -/
  | jcsA (abs : Word)
  /-- `JCC abs` (R83). -/
  | jccA (abs : Word)
  /-- `JEQ abs` (R83). -/
  | jeqA (abs : Word)
  /-- `JNE abs` (R83). -/
  | jneA (abs : Word)
  /-- `JVS abs` (R83). -/
  | jvsA (abs : Word)
  /-- `JVC abs` (R83). -/
  | jvcA (abs : Word)
  /-- `JMI abs` (R83). -/
  | jmiA (abs : Word)
  /-- `JPL abs` (R83). -/
  | jplA (abs : Word)
  /-- `JLS abs` (R83). -/
  | jlsA (abs : Word)
  /-- `JHI abs` (R83). -/
  | jhiA (abs : Word)
  /-- `JLT abs` (R83). -/
  | jltA (abs : Word)
  /-- `JGE abs` (R83). -/
  | jgeA (abs : Word)
  /-- `JLE abs` (R83). -/
  | jleA (abs : Word)
  /-- `JGT abs` (R83). -/
  | jgtA (abs : Word)
  /-- `JMP abs` (R83). -/
  | jmpA (abs : Word)
  /-- `JSR rb` (R84). -/
  | jsrR (rb : Reg)
  /-- `JSR abs` (R85). -/
  | jsrA (abs : Word)
  /-- `RET` (R86). -/
  | ret
  /-- `RET CLI` (R87). -/
  | retCli
  /-- `RET STI` (R88). -/
  | retSti
  -- stack (rows 16 to 19)
  /-- `PUSH rp` (R100). -/
  | push (rp : Reg)
  /-- `POP rp` (R101). -/
  | pop (rp : Reg)
  /-- `PUSH FLAG` (R102). -/
  | pushFlag
  /-- `POP FLAG` (R103). -/
  | popFlag
  -- memory operations (rows 20 to 25); `disp` is the displacement in bytes (R58, R59)
  /-- `LDM ra,rp,#disp:4` (R110). -/
  | ldm (ra rp : Reg) (disp : Nat)
  /-- `STM (rp,#disp:4),ra` (R111). -/
  | stm (rp : Reg) (disp : Nat) (ra : Reg)
  /-- `LDW ra,rp,#disp:11` (R112). -/
  | ldw (ra rp : Reg) (disp : Int)
  /-- `STW (rp,#disp:11),ra` (R113). -/
  | stw (rp : Reg) (disp : Int) (ra : Reg)
  /-- `LDB ra,rp,#disp:11` (R114). -/
  | ldb (ra rp : Reg) (disp : Int)
  /-- `STB (rp,#disp:11),ra` (R115). -/
  | stb (rp : Reg) (disp : Int) (ra : Reg)
  -- arithmetic 1 (rows 26 to 37): OP {RA},{RB}
  /-- `MOV ra,rb` (R123). -/
  | movR (ra rb : Reg)
  /-- `AND ra,rb` (R124). -/
  | andR (ra rb : Reg)
  /-- `OR ra,rb` (R125). -/
  | orR (ra rb : Reg)
  /-- `XOR ra,rb` (R126). -/
  | xorR (ra rb : Reg)
  /-- `ADD ra,rb` (R127). -/
  | addR (ra rb : Reg)
  /-- `ADC ra,rb` (R128). -/
  | adcR (ra rb : Reg)
  /-- `SUB ra,rb` (R129). -/
  | subR (ra rb : Reg)
  /-- `SBC ra,rb` (R130). -/
  | sbcR (ra rb : Reg)
  /-- `MLT ra,rb` (R131). -/
  | mltR (ra rb : Reg)
  /-- `MLH ra,rb` (R132). -/
  | mlhR (ra rb : Reg)
  /-- `TST ra,rb` (R133). -/
  | tstR (ra rb : Reg)
  /-- `CMP ra,rb` (R134). -/
  | cmpR (ra rb : Reg)
  -- arithmetic 2 (rows 38 to 49): OP {RA},#{IMM8}:8; `imm` is 0 to 255 (R54)
  /-- `MOV ra,#imm:8` (R141). -/
  | movI8 (ra : Reg) (imm : Nat)
  /-- `AND ra,#imm:8` (R142). -/
  | andI8 (ra : Reg) (imm : Nat)
  /-- `OR ra,#imm:8` (R143). -/
  | orI8 (ra : Reg) (imm : Nat)
  /-- `XOR ra,#imm:8` (R144). -/
  | xorI8 (ra : Reg) (imm : Nat)
  /-- `ADD ra,#imm:8` (R145). -/
  | addI8 (ra : Reg) (imm : Nat)
  /-- `ADC ra,#imm:8` (R146). -/
  | adcI8 (ra : Reg) (imm : Nat)
  /-- `SUB ra,#imm:8` (R147). -/
  | subI8 (ra : Reg) (imm : Nat)
  /-- `SBC ra,#imm:8` (R148). -/
  | sbcI8 (ra : Reg) (imm : Nat)
  /-- `MLT ra,#imm:8` (R149). -/
  | mltI8 (ra : Reg) (imm : Nat)
  /-- `MLH ra,#imm:8` (R150). -/
  | mlhI8 (ra : Reg) (imm : Nat)
  /-- `TST ra,#imm:8` (R151). -/
  | tstI8 (ra : Reg) (imm : Nat)
  /-- `CMP ra,#imm:8` (R152). -/
  | cmpI8 (ra : Reg) (imm : Nat)
  -- row 50 (MOV) and arithmetic 3 (rows 51 to 61): OP {RA},#{IMM16}:16 (R55)
  /-- `MOV ra,#imm:16` (R153). -/
  | movI16 (ra : Reg) (imm : Word)
  /-- `AND ra,#imm:16` (R161). -/
  | andI16 (ra : Reg) (imm : Word)
  /-- `OR ra,#imm:16` (R162). -/
  | orI16 (ra : Reg) (imm : Word)
  /-- `XOR ra,#imm:16` (R163). -/
  | xorI16 (ra : Reg) (imm : Word)
  /-- `ADD ra,#imm:16` (R164). -/
  | addI16 (ra : Reg) (imm : Word)
  /-- `ADC ra,#imm:16` (R165). -/
  | adcI16 (ra : Reg) (imm : Word)
  /-- `SUB ra,#imm:16` (R166). -/
  | subI16 (ra : Reg) (imm : Word)
  /-- `SBC ra,#imm:16` (R167). -/
  | sbcI16 (ra : Reg) (imm : Word)
  /-- `MLT ra,#imm:16` (R168). -/
  | mltI16 (ra : Reg) (imm : Word)
  /-- `MLH ra,#imm:16` (R169). -/
  | mlhI16 (ra : Reg) (imm : Word)
  /-- `TST ra,#imm:16` (R170). -/
  | tstI16 (ra : Reg) (imm : Word)
  /-- `CMP ra,#imm:16` (R171). -/
  | cmpI16 (ra : Reg) (imm : Word)
deriving DecidableEq, Repr, Inhabited

/-- The operand fields of an instruction form, by the formats of R52 and with the widths R52 states: what an
encoding must hold beside the choice of the operation. Registers and condition codes stay symbolic, since the
source numbers neither in an encoding (R51, N2). -/
inductive Fields where
  | plain (op : PlainOp)
  | ccRel8 (cond : Cond) (rel : BitVec 8)
  | ccRb (cond : Cond) (rb : Reg)
  | ccAbs15 (cond : Cond) (abs : BitVec 15)
  | rb (rb : Reg)
  | abs15 (abs : BitVec 15)
  | rp (op : StackOp) (rp : Reg)
  | raRpDisp4 (op : ShortMemOp) (ra rp : Reg) (disp : BitVec 4)
  | raRpDisp11 (op : LongMemOp) (ra rp : Reg) (disp : BitVec 11)
  | raRb (op : AluOp) (ra rb : Reg)
  | raImm8 (op : AluOp) (ra : Reg) (imm : BitVec 8)
  | raImm16 (op : AluOp) (ra : Reg) (imm : BitVec 16)
deriving DecidableEq, Repr, Inhabited

/-- What an encoding has to select beside the operand fields: the format of R52 and, where several instructions
share it, the operation. The condition code of B and J is an operand field, so that B is one choice. -/
inductive Selector where
  | plain (op : PlainOp)
  | ccRel8
  | ccRb
  | ccAbs15
  | rb
  | abs15
  | rp (op : StackOp)
  | raRpDisp4 (op : ShortMemOp)
  | raRpDisp11 (op : LongMemOp)
  | raRb (op : AluOp)
  | raImm8 (op : AluOp)
  | raImm16 (op : AluOp)
deriving DecidableEq, Repr

/-- One operand of a form: a condition code, a register, or the content of any other field as a number. -/
inductive Operand where
  | cond (c : Cond)
  | reg (r : Reg)
  | content (n : Nat)
deriving DecidableEq, Repr

/-- Why a decoder refuses (R62). -/
inductive DecodeError where
  /-- No word, or the second word of a two-word instruction is missing. Raised by `decodeWords`. Safe. -/
  | truncated
  /-- The words are not `ENC` of any instruction form (R62). Raised by `decodeWords`. Safe. -/
  | notAnEncoding
  /-- Register number 15 stands in an {RP} position (R53, R62). Raised by `decodeFields`. Safe. -/
  | rpIsR15
deriving DecidableEq, Repr

end Sys2Proof
end

