-- ==== Sys2Proof/Config.lean ====
section
/-! DEFINITION. What the source leaves open (spec rule R3, 92_eei_decisions.md): the configuration record, the
parameter `ENC`, and the free values. A free value is an opaque constant with no body: no proof can see it. -/

namespace Sys2Proof

/-- `REL_BASE` (R3, R8, D2): the value `PC` stands for in `PC <- PC+REL8`. -/
inductive RelBase where
  | next | self
deriving DecidableEq, Repr, Inhabited

/-- `BYTE_ORDER` (R3, R32, D6). -/
inductive ByteOrder where
  | little | big
deriving DecidableEq, Repr, Inhabited

/-- `MISALIGNED16` (R3, R33, D7): what a MEM16 access at an odd address does. -/
inductive Misaligned16 where
  | refuse | ignoreBit0 | split
deriving DecidableEq, Repr, Inhabited

/-- `MLH_CF` (R3, R132, D11): what CF receives from MLH. -/
inductive MlhCf where
  | productBit16 | zero | draw
deriving DecidableEq, Repr, Inhabited

/-- `INT_PUSHED_IF` (R3, R191, D15): bit 0 of the word an interrupt pushes. `zero` is the parameter value `0`,
`oldIf` the parameter value `1` (the IF of the interrupted program), `draw` an undetermined bit. -/
inductive IntPushedIf where
  | zero | oldIf | draw
deriving DecidableEq, Repr, Inhabited

/-- `COND` (R3, R80, D8) as plain data: for each condition code a truth table over the four ALU flags. Bit `n` of
a table is the truth of that code under the flags `n = 8*NF + 4*VF + 2*ZF + CF`. -/
structure CondTable where
  (cs cc eq ne vs vc mi pl ls hi lt ge le gt al : BitVec 16)
deriving DecidableEq, Repr, Inhabited

/-- A range of byte addresses, both ends included; `MEMMAP` is a list of them (R37, R38, D23). -/
structure AddrRange where
  first : Nat
  last : Nat
deriving DecidableEq, Repr, Inhabited

/-- The configuration record of R3 and 92_eei_decisions.md, plain data. `ENC` is `Config.enc`, `PROG` and the
requests carrying `INT_VECTOR` are fields of the machine's state, `HALT` is in Safety.lean. -/
structure Config where
  /-- `REL_BASE` (D2). -/
  relBase : RelBase
  /-- `BYTE_ORDER` (D6). -/
  byteOrder : ByteOrder
  /-- `MISALIGNED16` (D7). -/
  misaligned16 : Misaligned16
  /-- `COND` (D8). -/
  cond : CondTable
  /-- `MUL_SIGNED` (D11). -/
  mulSigned : Bool
  /-- `MLH_CF` (D11). -/
  mlhCf : MlhCf
  /-- `INT_PUSHED_IF` (D15). -/
  intPushedIf : IntPushedIf
  /-- `RESET_VECTOR` (D16), a vector number `n` with `2*n <= 0xFFFE`. -/
  resetVector : BitVec 15
  /-- `MEMMAP` (D23): the byte addresses that are plain memory. -/
  memMap : List AddrRange
deriving DecidableEq, Repr, Inhabited

/-- `ENC` (R67, D1) with its inverse reading: `words f` are the one or two words of the form with fields `f`;
`read ws` are the fields of the form `ws` begins with, `none` where `ws` begins with no encoding (R62). -/
structure Encoding where
  words : Fields → List Word
  read : List Word → Option Fields
deriving Inhabited

/-- The encoding of the hardware: the uninterpreted parameter `ENC` (R51, R67, D1). -/
opaque Config.enc : Encoding

/-- The configuration of the machine that `State.reset` describes: uninterpreted (R3). -/
opaque Config.platform : Config

/-- The source's "undefined value", `draw(1)` (R7, R121, D12): the `n`-th bit drawn. -/
opaque Config.freeBit : Nat → Bool

/-- The value a general register holds after reset, which the source does not give (R22, D17). -/
opaque Config.resetReg : Reg → Word

/-- CF after reset, not given by the source (R22, D17). -/
opaque Config.resetCF : Bool

/-- ZF after reset, not given by the source (R22, D17). -/
opaque Config.resetZF : Bool

/-- VF after reset, not given by the source (R22, D17). -/
opaque Config.resetVF : Bool

/-- NF after reset, not given by the source (R22, D17). -/
opaque Config.resetNF : Bool

/-- Bits 15:1 of the word the platform placed at `RESET_VECTOR*2`, which the RESET exception that precedes
`State.reset` loaded into PC (R22, R190). -/
opaque Config.resetEntry : Pc

end Sys2Proof
end

