-- ==== Sys2Proof/WellFormed.lean ====
section
/-! DEFINITION. Which operand values an instruction form may have (spec rules R53 to R59). An ill-formed term is
no instruction (R62): the decoder never answers one and the step refuses one found in the program text. -/

namespace Sys2Proof

/-- {RP} is one of R0 to R14 (R53). -/
def rpOk (rp : Reg) : Bool := decide (rp ≠ spReg)

/-- {REL8}: an even integer from -256 to +254 (R56). -/
def relOk (rel : Int) : Bool := decide (-256 ≤ rel ∧ rel ≤ 254 ∧ rel % 2 = 0)

/-- {ABS15}: an even byte address 0x0000 to 0xFFFE (R57). -/
def absOk (abs : Word) : Bool := decide (abs.toNat % 2 = 0)

/-- {DISP4}: an even integer from 0 to 30 (R58). -/
def disp4Ok (disp : Nat) : Bool := decide (disp ≤ 30 ∧ disp % 2 = 0)

/-- {DISP11}: an integer from -1024 to +1023 (R59). -/
def disp11Ok (disp : Int) : Bool := decide (-1024 ≤ disp ∧ disp ≤ 1023)

/-- {IMM8}: an integer from 0 to 255 (R54). -/
def imm8Ok (imm : Nat) : Bool := decide (imm ≤ 255)

/-- The operands of the form are in range (R53 to R59). -/
def Instr.wellFormed : Instr → Bool
  | .nop | .clc | .stc | .clz | .stz
  | .cli | .sti | .ret | .retCli | .retSti
  | .pushFlag | .popFlag => true
  | .bcs rel | .bcc rel | .beq rel | .bne rel | .bvs rel
  | .bvc rel | .bmi rel | .bpl rel | .bls rel | .bhi rel
  | .blt rel | .bge rel | .ble rel | .bgt rel | .bra rel => relOk rel
  | .jcsR _ | .jccR _ | .jeqR _ | .jneR _ | .jvsR _
  | .jvcR _ | .jmiR _ | .jplR _ | .jlsR _ | .jhiR _
  | .jltR _ | .jgeR _ | .jleR _ | .jgtR _ | .jmpR _ => true
  | .jcsA abs | .jccA abs | .jeqA abs | .jneA abs | .jvsA abs
  | .jvcA abs | .jmiA abs | .jplA abs | .jlsA abs | .jhiA abs
  | .jltA abs | .jgeA abs | .jleA abs | .jgtA abs | .jmpA abs => absOk abs
  | .jsrR _ => true
  | .jsrA abs => absOk abs
  | .push rp | .pop rp => rpOk rp
  | .ldm _ rp disp | .stm rp disp _ => rpOk rp && disp4Ok disp
  | .ldw _ rp disp | .stw rp disp _ | .ldb _ rp disp | .stb rp disp _ => rpOk rp && disp11Ok disp
  | .movR _ _ | .andR _ _ | .orR _ _ | .xorR _ _ | .addR _ _
  | .adcR _ _ | .subR _ _ | .sbcR _ _ | .mltR _ _ | .mlhR _ _
  | .tstR _ _ | .cmpR _ _ => true
  | .movI8 _ imm | .andI8 _ imm | .orI8 _ imm | .xorI8 _ imm | .addI8 _ imm
  | .adcI8 _ imm | .subI8 _ imm | .sbcI8 _ imm | .mltI8 _ imm | .mlhI8 _ imm
  | .tstI8 _ imm | .cmpI8 _ imm => imm8Ok imm
  | .movI16 _ _ | .andI16 _ _ | .orI16 _ _ | .xorI16 _ _ | .addI16 _ _
  | .adcI16 _ _ | .subI16 _ _ | .sbcI16 _ _ | .mltI16 _ _ | .mlhI16 _ _
  | .tstI16 _ _ | .cmpI16 _ _ => true

end Sys2Proof
end

