-- ==== Sys2Proof/Decode.lean ====
section
/-! DEFINITION. Decoding and encoding (spec rules R50 to R67). The source has no bit pattern (R51): the words of an
instruction are the open parameter `ENC` (`Config.enc`), which nothing here invents. What the spec DOES give is
modelled whole: the word counts (R61), the operand fields with their widths and the value each field holds
(R52 to R60), what is refused (R62), and what `ENC` must satisfy (R67, `Encoding.Lawful`). Every function of the
codec takes the encoding as an argument, so that its laws hold for every encoding R67 admits. -/

namespace Sys2Proof

/-! ### Operand fields and the values they hold -/

/-- The 8-bit field of {REL8}: the signed word offset `REL8 / 2` (R56). -/
def relField (rel : Int) : BitVec 8 := BitVec.ofInt 8 (rel / 2)

/-- `REL8 = 2 * sext_8(field)` (R56). -/
def relValue (f : BitVec 8) : Int := 2 * f.toInt

/-- The 15-bit field of {ABS15}: `ABS15[15:1]` (R57). -/
def absField (abs : Word) : BitVec 15 := abs.extractLsb' 1 15

/-- The byte address an {ABS15} field stands for: `{field, 0}` (R57). -/
def absValue (f : BitVec 15) : Word := f ++ 0#1

/-- The 4-bit field of {DISP4}: `DISP4 / 2`, unsigned (R58). -/
def disp4Field (disp : Nat) : BitVec 4 := BitVec.ofNat 4 (disp / 2)

/-- The displacement a {DISP4} field stands for (R58). -/
def disp4Value (f : BitVec 4) : Nat := 2 * f.toNat

/-- The 11-bit field of {DISP11}: two's complement, unscaled (R59). -/
def disp11Field (disp : Int) : BitVec 11 := BitVec.ofInt 11 disp

/-- `DISP11 = sext_11(field)` (R59). -/
def disp11Value (f : BitVec 11) : Int := f.toInt

/-- The 8-bit field of {IMM8} (R54). -/
def imm8Field (imm : Nat) : BitVec 8 := BitVec.ofNat 8 imm

/-- The value 0 to 255 of an {IMM8} field (R54). -/
def imm8Value (f : BitVec 8) : Nat := f.toNat

/-- How many 16-bit words the form occupies (R50, R61). -/
def Instr.words : Instr → Nat
  | .nop | .clc | .stc | .clz | .stz
  | .cli | .sti | .ret | .retCli | .retSti
  | .pushFlag | .popFlag => 1
  | .bcs _ | .bcc _ | .beq _ | .bne _ | .bvs _
  | .bvc _ | .bmi _ | .bpl _ | .bls _ | .bhi _
  | .blt _ | .bge _ | .ble _ | .bgt _ | .bra _ => 1
  | .jcsR _ | .jccR _ | .jeqR _ | .jneR _ | .jvsR _
  | .jvcR _ | .jmiR _ | .jplR _ | .jlsR _ | .jhiR _
  | .jltR _ | .jgeR _ | .jleR _ | .jgtR _ | .jmpR _ => 1
  | .jcsA _ | .jccA _ | .jeqA _ | .jneA _ | .jvsA _
  | .jvcA _ | .jmiA _ | .jplA _ | .jlsA _ | .jhiA _
  | .jltA _ | .jgeA _ | .jleA _ | .jgtA _ | .jmpA _ => 2
  | .jsrR _ => 1
  | .jsrA _ => 2
  | .push _ | .pop _ => 1
  | .ldm _ _ _ | .stm _ _ _ => 1
  | .ldw _ _ _ | .stw _ _ _ | .ldb _ _ _ | .stb _ _ _ => 2
  | .movR _ _ | .andR _ _ | .orR _ _ | .xorR _ _ | .addR _ _
  | .adcR _ _ | .subR _ _ | .sbcR _ _ | .mltR _ _ | .mlhR _ _
  | .tstR _ _ | .cmpR _ _ => 1
  | .movI8 _ _ | .andI8 _ _ | .orI8 _ _ | .xorI8 _ _ | .addI8 _ _
  | .adcI8 _ _ | .subI8 _ _ | .sbcI8 _ _ | .mltI8 _ _ | .mlhI8 _ _
  | .tstI8 _ _ | .cmpI8 _ _ => 1
  | .movI16 _ _ | .andI16 _ _ | .orI16 _ _ | .xorI16 _ _ | .addI16 _ _
  | .adcI16 _ _ | .subI16 _ _ | .sbcI16 _ _ | .mltI16 _ _ | .mlhI16 _ _
  | .tstI16 _ _ | .cmpI16 _ _ => 2

/-! ### Decoding -/

/-- The form of an instruction without operands. -/
def plainInstr : PlainOp → Instr
  | .nop => .nop
  | .clc => .clc
  | .stc => .stc
  | .clz => .clz
  | .stz => .stz
  | .cli => .cli
  | .sti => .sti
  | .ret => .ret
  | .retCli => .retCli
  | .retSti => .retSti
  | .pushFlag => .pushFlag
  | .popFlag => .popFlag

/-- `B{CC} {REL8}` by its condition code (R60, R64). -/
def branchInstr (rel : Int) : Cond → Instr
  | .cs => .bcs rel
  | .cc => .bcc rel
  | .eq => .beq rel
  | .ne => .bne rel
  | .vs => .bvs rel
  | .vc => .bvc rel
  | .mi => .bmi rel
  | .pl => .bpl rel
  | .ls => .bls rel
  | .hi => .bhi rel
  | .lt => .blt rel
  | .ge => .bge rel
  | .le => .ble rel
  | .gt => .bgt rel
  | .al => .bra rel

/-- `J{CC} {RB}` by its condition code (R60, R64). -/
def jumpRegInstr (rb : Reg) : Cond → Instr
  | .cs => .jcsR rb
  | .cc => .jccR rb
  | .eq => .jeqR rb
  | .ne => .jneR rb
  | .vs => .jvsR rb
  | .vc => .jvcR rb
  | .mi => .jmiR rb
  | .pl => .jplR rb
  | .ls => .jlsR rb
  | .hi => .jhiR rb
  | .lt => .jltR rb
  | .ge => .jgeR rb
  | .le => .jleR rb
  | .gt => .jgtR rb
  | .al => .jmpR rb

/-- `J{CC} {ABS15}` by its condition code (R60, R64). -/
def jumpAbsInstr (abs : Word) : Cond → Instr
  | .cs => .jcsA abs
  | .cc => .jccA abs
  | .eq => .jeqA abs
  | .ne => .jneA abs
  | .vs => .jvsA abs
  | .vc => .jvcA abs
  | .mi => .jmiA abs
  | .pl => .jplA abs
  | .ls => .jlsA abs
  | .hi => .jhiA abs
  | .lt => .jltA abs
  | .ge => .jgeA abs
  | .le => .jleA abs
  | .gt => .jgtA abs
  | .al => .jmpA abs

/-- The register form of an ALU operation (R61 rows 26 to 37). -/
def aluRegInstr (ra rb : Reg) : AluOp → Instr
  | .mov => .movR ra rb
  | .and => .andR ra rb
  | .or => .orR ra rb
  | .xor => .xorR ra rb
  | .add => .addR ra rb
  | .adc => .adcR ra rb
  | .sub => .subR ra rb
  | .sbc => .sbcR ra rb
  | .mlt => .mltR ra rb
  | .mlh => .mlhR ra rb
  | .tst => .tstR ra rb
  | .cmp => .cmpR ra rb

/-- The 8-bit immediate form of an ALU operation (R61 rows 38 to 49). -/
def aluImm8Instr (ra : Reg) (imm : Nat) : AluOp → Instr
  | .mov => .movI8 ra imm
  | .and => .andI8 ra imm
  | .or => .orI8 ra imm
  | .xor => .xorI8 ra imm
  | .add => .addI8 ra imm
  | .adc => .adcI8 ra imm
  | .sub => .subI8 ra imm
  | .sbc => .sbcI8 ra imm
  | .mlt => .mltI8 ra imm
  | .mlh => .mlhI8 ra imm
  | .tst => .tstI8 ra imm
  | .cmp => .cmpI8 ra imm

/-- The 16-bit immediate form of an ALU operation (R61 rows 50 to 61). -/
def aluImm16Instr (ra : Reg) (imm : Word) : AluOp → Instr
  | .mov => .movI16 ra imm
  | .and => .andI16 ra imm
  | .or => .orI16 ra imm
  | .xor => .xorI16 ra imm
  | .add => .addI16 ra imm
  | .adc => .adcI16 ra imm
  | .sub => .subI16 ra imm
  | .sbc => .sbcI16 ra imm
  | .mlt => .mltI16 ra imm
  | .mlh => .mlhI16 ra imm
  | .tst => .tstI16 ra imm
  | .cmp => .cmpI16 ra imm

/-- `PUSH {RP}` or `POP {RP}` (R61 rows 16 and 17). -/
def stackInstr (rp : Reg) : StackOp → Instr
  | .push => .push rp
  | .pop => .pop rp

/-- LDM or STM (R61 rows 20 and 21). -/
def shortMemInstr (ra rp : Reg) (disp : Nat) : ShortMemOp → Instr
  | .ldm => .ldm ra rp disp
  | .stm => .stm rp disp ra

/-- LDW, STW, LDB or STB (R61 rows 22 to 25). -/
def longMemInstr (ra rp : Reg) (disp : Int) : LongMemOp → Instr
  | .ldw => .ldw ra rp disp
  | .stw => .stw rp disp ra
  | .ldb => .ldb ra rp disp
  | .stb => .stb rp disp ra

/-- An instruction form with an {RP} operand: register number 15 is refused by name (R53, R62). -/
def withRp (rp : Reg) (i : Instr) : Except DecodeError Instr :=
  if rp = spReg then .error .rpIsR15 else .ok i

/-- The instruction form that operand fields stand for (R52 to R60). -/
def decodeFields : Fields → Except DecodeError Instr
  | .plain op => .ok (plainInstr op)
  | .ccRel8 c rel => .ok (branchInstr (relValue rel) c)
  | .ccRb c rb => .ok (jumpRegInstr rb c)
  | .ccAbs15 c abs => .ok (jumpAbsInstr (absValue abs) c)
  | .rb rb => .ok (.jsrR rb)
  | .abs15 abs => .ok (.jsrA (absValue abs))
  | .rp op rp => withRp rp (stackInstr rp op)
  | .raRpDisp4 op ra rp disp => withRp rp (shortMemInstr ra rp (disp4Value disp) op)
  | .raRpDisp11 op ra rp disp => withRp rp (longMemInstr ra rp (disp11Value disp) op)
  | .raRb op ra rb => .ok (aluRegInstr ra rb op)
  | .raImm8 op ra imm => .ok (aluImm8Instr ra (imm8Value imm) op)
  | .raImm16 op ra imm => .ok (aluImm16Instr ra imm op)

/-- Decode the instruction that a list of words begins with, under the encoding `e`, and answer the words after
it. Words that begin with no encoding are refused (R62), and so is an instruction whose second word is missing. -/
def decodeWords (e : Encoding) (ws : List Word) : Except DecodeError (Instr × List Word) :=
  match ws with
  | [] => .error .truncated
  | w :: rest =>
    match e.read (w :: rest) with
    | none => .error .notAnEncoding
    | some f =>
      match decodeFields f with
      | .error x => .error x
      | .ok i => if (w :: rest).length < i.words then .error .truncated else .ok (i, (w :: rest).drop i.words)

/-- The words in a list of bytes, two bytes a word in the byte order `o` (R32); an odd last byte is left over. -/
def wordsOfBytes (o : ByteOrder) : List Byte → List Word
  | x :: y :: rest => (match o with | .little => y ++ x | .big => x ++ y) :: wordsOfBytes o rest
  | _ => []

/-- Decode the instruction that a list of bytes begins with; total on any bytes. -/
def decode (o : ByteOrder) (e : Encoding) (bs : List Byte) : Except DecodeError (Instr × List Byte) :=
  match decodeWords e (wordsOfBytes o bs) with
  | .error x => .error x
  | .ok (i, _) => .ok (i, bs.drop (2 * i.words))

/-- The one or two words an instruction whose `nbits` bits are `w` occupies: bit 0 is the least significant bit of
the first word, the second word is bits 31..16, every bit from `nbits` on is 0. -/
def tableWords (nbits w : Nat) : List Word :=
  [BitVec.ofNat 16 (w % 2 ^ nbits), BitVec.ofNat 16 (w % 2 ^ nbits / 65536)]

/-- The instruction the decoder reads, under the encoding `e`, from the bits `w` of an opcode-table row. -/
def decodeTableWordBy (e : Encoding) (nbits w : Nat) : Option Instr :=
  match decodeWords e (tableWords nbits w) with
  | .ok (i, _) => some i
  | .error _ => none

/-- The instruction the decoder reads from the bits `w` of an opcode-table row, under the uninterpreted encoding
of the hardware (R51: the source, and so the table, gives no row its bits). -/
def decodeTableWord (nbits w : Nat) : Option Instr := decodeTableWordBy Config.enc nbits w

/-! ### Encoding -/

/-- The operand fields of an instruction form (R52 to R60). -/
def fieldsOf : Instr → Fields
  | .nop => .plain .nop
  | .clc => .plain .clc
  | .stc => .plain .stc
  | .clz => .plain .clz
  | .stz => .plain .stz
  | .cli => .plain .cli
  | .sti => .plain .sti
  | .ret => .plain .ret
  | .retCli => .plain .retCli
  | .retSti => .plain .retSti
  | .pushFlag => .plain .pushFlag
  | .popFlag => .plain .popFlag
  | .bcs rel => .ccRel8 .cs (relField rel)
  | .bcc rel => .ccRel8 .cc (relField rel)
  | .beq rel => .ccRel8 .eq (relField rel)
  | .bne rel => .ccRel8 .ne (relField rel)
  | .bvs rel => .ccRel8 .vs (relField rel)
  | .bvc rel => .ccRel8 .vc (relField rel)
  | .bmi rel => .ccRel8 .mi (relField rel)
  | .bpl rel => .ccRel8 .pl (relField rel)
  | .bls rel => .ccRel8 .ls (relField rel)
  | .bhi rel => .ccRel8 .hi (relField rel)
  | .blt rel => .ccRel8 .lt (relField rel)
  | .bge rel => .ccRel8 .ge (relField rel)
  | .ble rel => .ccRel8 .le (relField rel)
  | .bgt rel => .ccRel8 .gt (relField rel)
  | .bra rel => .ccRel8 .al (relField rel)
  | .jcsR rb => .ccRb .cs rb
  | .jccR rb => .ccRb .cc rb
  | .jeqR rb => .ccRb .eq rb
  | .jneR rb => .ccRb .ne rb
  | .jvsR rb => .ccRb .vs rb
  | .jvcR rb => .ccRb .vc rb
  | .jmiR rb => .ccRb .mi rb
  | .jplR rb => .ccRb .pl rb
  | .jlsR rb => .ccRb .ls rb
  | .jhiR rb => .ccRb .hi rb
  | .jltR rb => .ccRb .lt rb
  | .jgeR rb => .ccRb .ge rb
  | .jleR rb => .ccRb .le rb
  | .jgtR rb => .ccRb .gt rb
  | .jmpR rb => .ccRb .al rb
  | .jcsA abs => .ccAbs15 .cs (absField abs)
  | .jccA abs => .ccAbs15 .cc (absField abs)
  | .jeqA abs => .ccAbs15 .eq (absField abs)
  | .jneA abs => .ccAbs15 .ne (absField abs)
  | .jvsA abs => .ccAbs15 .vs (absField abs)
  | .jvcA abs => .ccAbs15 .vc (absField abs)
  | .jmiA abs => .ccAbs15 .mi (absField abs)
  | .jplA abs => .ccAbs15 .pl (absField abs)
  | .jlsA abs => .ccAbs15 .ls (absField abs)
  | .jhiA abs => .ccAbs15 .hi (absField abs)
  | .jltA abs => .ccAbs15 .lt (absField abs)
  | .jgeA abs => .ccAbs15 .ge (absField abs)
  | .jleA abs => .ccAbs15 .le (absField abs)
  | .jgtA abs => .ccAbs15 .gt (absField abs)
  | .jmpA abs => .ccAbs15 .al (absField abs)
  | .jsrR rb => .rb rb
  | .jsrA abs => .abs15 (absField abs)
  | .push rp => .rp .push rp
  | .pop rp => .rp .pop rp
  | .ldm ra rp disp => .raRpDisp4 .ldm ra rp (disp4Field disp)
  | .stm rp disp ra => .raRpDisp4 .stm ra rp (disp4Field disp)
  | .ldw ra rp disp => .raRpDisp11 .ldw ra rp (disp11Field disp)
  | .ldb ra rp disp => .raRpDisp11 .ldb ra rp (disp11Field disp)
  | .stw rp disp ra => .raRpDisp11 .stw ra rp (disp11Field disp)
  | .stb rp disp ra => .raRpDisp11 .stb ra rp (disp11Field disp)
  | .movR ra rb => .raRb .mov ra rb
  | .andR ra rb => .raRb .and ra rb
  | .orR ra rb => .raRb .or ra rb
  | .xorR ra rb => .raRb .xor ra rb
  | .addR ra rb => .raRb .add ra rb
  | .adcR ra rb => .raRb .adc ra rb
  | .subR ra rb => .raRb .sub ra rb
  | .sbcR ra rb => .raRb .sbc ra rb
  | .mltR ra rb => .raRb .mlt ra rb
  | .mlhR ra rb => .raRb .mlh ra rb
  | .tstR ra rb => .raRb .tst ra rb
  | .cmpR ra rb => .raRb .cmp ra rb
  | .movI8 ra imm => .raImm8 .mov ra (imm8Field imm)
  | .andI8 ra imm => .raImm8 .and ra (imm8Field imm)
  | .orI8 ra imm => .raImm8 .or ra (imm8Field imm)
  | .xorI8 ra imm => .raImm8 .xor ra (imm8Field imm)
  | .addI8 ra imm => .raImm8 .add ra (imm8Field imm)
  | .adcI8 ra imm => .raImm8 .adc ra (imm8Field imm)
  | .subI8 ra imm => .raImm8 .sub ra (imm8Field imm)
  | .sbcI8 ra imm => .raImm8 .sbc ra (imm8Field imm)
  | .mltI8 ra imm => .raImm8 .mlt ra (imm8Field imm)
  | .mlhI8 ra imm => .raImm8 .mlh ra (imm8Field imm)
  | .tstI8 ra imm => .raImm8 .tst ra (imm8Field imm)
  | .cmpI8 ra imm => .raImm8 .cmp ra (imm8Field imm)
  | .movI16 ra imm => .raImm16 .mov ra imm
  | .andI16 ra imm => .raImm16 .and ra imm
  | .orI16 ra imm => .raImm16 .or ra imm
  | .xorI16 ra imm => .raImm16 .xor ra imm
  | .addI16 ra imm => .raImm16 .add ra imm
  | .adcI16 ra imm => .raImm16 .adc ra imm
  | .subI16 ra imm => .raImm16 .sub ra imm
  | .sbcI16 ra imm => .raImm16 .sbc ra imm
  | .mltI16 ra imm => .raImm16 .mlt ra imm
  | .mlhI16 ra imm => .raImm16 .mlh ra imm
  | .tstI16 ra imm => .raImm16 .tst ra imm
  | .cmpI16 ra imm => .raImm16 .cmp ra imm

/-- The words of an instruction form under the encoding `e`: `ENC(i)` of R67. -/
def encode (e : Encoding) (i : Instr) : List Word := e.words (fieldsOf i)

/-- The bytes of an instruction form, each word in the byte order `o`. -/
def bytesOfWords (o : ByteOrder) : List Word → List Byte
  | [] => []
  | w :: rest =>
    (match o with
      | .little => [w.extractLsb' 0 8, w.extractLsb' 8 8]
      | .big => [w.extractLsb' 8 8, w.extractLsb' 0 8]) ++ bytesOfWords o rest

/-- `ENC(i)` has `w(i)` words (R67 (1)). -/
def Encoding.CountsWords (e : Encoding) : Prop :=
  ∀ i : Instr, i.wellFormed = true → (encode e i).length = i.words

/-- `ENC` is injective on the forms with in-range operands (R67 (2)). -/
def Encoding.TellsForms (e : Encoding) : Prop :=
  ∀ i j : Instr, i.wellFormed = true → j.wellFormed = true → encode e i = encode e j → i = j

/-- The first word determines the word count (R63, R67 (3)). -/
def Encoding.FirstWordCounts (e : Encoding) : Prop :=
  ∀ i j : Instr, i.wellFormed = true → j.wellFormed = true →
    (encode e i).head? = (encode e j).head? → i.words = j.words

/-- `read` answers on words that begin with the encoding of a form with in-range operands (R62). -/
def Encoding.ReadsForms (e : Encoding) : Prop :=
  ∀ (i : Instr) (rest : List Word), i.wellFormed = true → (e.read (encode e i ++ rest)).isSome = true

/-- What `read` answers is such a form: words that begin with no encoding are refused (R62). -/
def Encoding.RefusesOthers (e : Encoding) : Prop :=
  ∀ (ws : List Word) (f : Fields), e.read ws = some f →
    ∃ (i : Instr) (rest : List Word), i.wellFormed = true ∧ f = fieldsOf i ∧ ws = encode e i ++ rest

/-- What decoding rests on: the word counts, the forms told apart (R67 (1) to (3)), and the reading of words (R62). -/
def Encoding.Readable (e : Encoding) : Prop :=
  e.CountsWords ∧ e.TellsForms ∧ e.FirstWordCounts ∧ e.ReadsForms ∧ e.RefusesOthers

/-! ### The bits of the operand fields (R52, R67 (4)); DEDUCED, log entry 32 -/

/-- The widths of the operand fields of a format in bits, in the order of R52: a register and a condition code need
4 bits each, the other widths are the source's. -/
def Selector.widths : Selector → List Nat
  | .plain _ => []
  | .ccRel8 => [4, 8]
  | .ccRb => [4, 4]
  | .ccAbs15 => [4, 15]
  | .rb => [4]
  | .abs15 => [15]
  | .rp _ => [4]
  | .raRpDisp4 _ => [4, 4, 4]
  | .raRpDisp11 _ => [4, 4, 11]
  | .raRb _ => [4, 4]
  | .raImm8 _ => [4, 8]
  | .raImm16 _ => [4, 16]

/-- What selects the form (R52). -/
def Fields.selector : Fields → Selector
  | .plain op => .plain op
  | .ccRel8 _ _ => .ccRel8
  | .ccRb _ _ => .ccRb
  | .ccAbs15 _ _ => .ccAbs15
  | .rb _ => .rb
  | .abs15 _ => .abs15
  | .rp op _ => .rp op
  | .raRpDisp4 op _ _ _ => .raRpDisp4 op
  | .raRpDisp11 op _ _ _ => .raRpDisp11 op
  | .raRb op _ _ => .raRb op
  | .raImm8 op _ _ => .raImm8 op
  | .raImm16 op _ _ => .raImm16 op

/-- The operands of a form, in the order of R52. -/
def Fields.operands : Fields → List Operand
  | .plain _ => []
  | .ccRel8 c rel => [.cond c, .content rel.toNat]
  | .ccRb c r => [.cond c, .reg r]
  | .ccAbs15 c k => [.cond c, .content k.toNat]
  | .rb r => [.reg r]
  | .abs15 k => [.content k.toNat]
  | .rp _ r => [.reg r]
  | .raRpDisp4 _ r q disp => [.reg r, .reg q, .content disp.toNat]
  | .raRpDisp11 _ r q disp => [.reg r, .reg q, .content disp.toNat]
  | .raRb _ r q => [.reg r, .reg q]
  | .raImm8 _ r imm => [.reg r, .content imm.toNat]
  | .raImm16 _ r imm => [.reg r, .content imm.toNat]

/-- Bit `n` of the words of an instruction, bit 0 being the least significant one of the first word. -/
def wordBit (ws : List Word) (n : Nat) : Bool := (ws.getD (n / 16) 0).getLsbD (n % 16)

/-- `place` gives each operand field of each selector its bits: as many as R52 says, inside the words of the form and
no bit twice; and the words of two forms of one selector differ in no bit but those of the operands they differ in. -/
def Encoding.PlacesFields (e : Encoding) (place : Selector → List (List Nat)) : Prop :=
  (∀ i : Instr, i.wellFormed = true →
    (place (fieldsOf i).selector).map List.length = (fieldsOf i).selector.widths ∧
    (place (fieldsOf i).selector).flatten.Nodup ∧
    ∀ n ∈ (place (fieldsOf i).selector).flatten, n < 16 * i.words) ∧
  ∀ i j : Instr, i.wellFormed = true → j.wellFormed = true → (fieldsOf i).selector = (fieldsOf j).selector →
    ∀ n, wordBit (encode e i) n ≠ wordBit (encode e j) n →
      ∃ (k : Nat) (bits : List Nat), (place (fieldsOf i).selector)[k]? = some bits ∧ n ∈ bits ∧
        (fieldsOf i).operands[k]? ≠ (fieldsOf j).operands[k]?

/-- Each operand field occupies the number of bits R52 gives (R67 (4)). Which bits, `ENC` alone
says (R51); what occupying is, log entry 32 (DEDUCED). -/
def Encoding.HoldsFields (e : Encoding) : Prop := ∃ place, e.PlacesFields place

/-- What the spec requires of `ENC` (R67 (1) to (4)), and of the reading of it (R62). -/
def Encoding.Lawful (e : Encoding) : Prop := e.Readable ∧ e.HoldsFields

end Sys2Proof
end

