-- ==== Sys2Proof/Machine/State.lean ====
section
/-! DEFINITION. The state of the MR16 (10_state.md, rules R10 to R23) as plain data, the reasons a step can stop,
and the state after reset. Besides what the spec calls state, `State` carries what the fixed form of `exec` and
`step` leaves no other place for: the configuration record and the program text (both "configuration, not state"
in 10_state.md; no step changes them), the inputs of the environment, and the counter of free values. -/

namespace Sys2Proof.Machine

/-- Memory as the list of the bytes that hold a value, addresses strictly rising; a byte not listed holds no
value (R22, R23). -/
abbrev Memory := List Host.Cell

/-- What the environment presents at one instruction boundary (R193, R196, R220): a reset, and at most one
interrupt request, which carries its vector number `v` with `2*v <= 0xFFFE`. -/
structure Boundary where
  reset : Bool
  irq : Option (BitVec 15)
deriving DecidableEq, Repr, Inhabited

/-- A boundary at which the environment presents nothing. -/
def Boundary.quiet : Boundary := { reset := false, irq := none }

/-- One entry of the program text `PROG` (R44, R67): the instruction form that stands at byte address `2*pc`. -/
structure ProgEntry where
  pc : Pc
  instr : Instr
deriving DecidableEq, Repr, Inhabited

/-- The machine. -/
structure State where
  /-- General registers R0 to R15, R15 being SP (R10, R11). -/
  regs : Vector Word 16
  /-- Program counter, a 15-bit word address (R13). -/
  pc : Pc
  /-- CF (R15). -/
  cf : Bool
  /-- ZF (R15). -/
  zf : Bool
  /-- VF (R15). -/
  vf : Bool
  /-- NF (R15). -/
  nf : Bool
  /-- IF, the interrupt flag (R15). -/
  iflag : Bool
  /-- The 64 KiB byte memory (R19, R30). -/
  mem : Memory
  /-- What the environment presents at the coming boundaries, the next one first; nothing after the last (R21, R193). -/
  inputs : List Boundary
  /-- The program text `PROG` (R20, R44). -/
  prog : List ProgEntry
  /-- The configuration record (R3). -/
  cfg : Config
  /-- The cycle total, a ghost field (R232, R233). -/
  cycles : Nat
  /-- The model's own: how many free values have been drawn (R7 `draw`). -/
  draws : Nat
deriving DecidableEq, Repr

/-- Reasons a step ends in a fault. -/
inductive Fault where
  /-- A data access reads a byte of memory that holds no value (R23, U7). Raised by the memory reads of loads, POP,
  POP FLAG, RET and the vector reads of both exceptions. Safe: the hardware would go on with some byte. -/
  | valuelessByte
deriving DecidableEq, Repr

/-- Reasons a step is refused: the spec gives the situation no meaning. -/
inductive Refusal where
  /-- The instruction has no meaning in the model yet. Raised by an arm of `exec`. Safe. -/
  | notModelled (mnemonic : String)
  /-- A MEM16 access at an odd address under `MISALIGNED16 = refuse` (R33, U5). Raised by every 16-bit access. Safe. -/
  | misaligned
  /-- A data access outside `MEMMAP`, where a device could do anything (R37, U8). Raised by every data access. Safe. -/
  | outsideMemMap
  /-- A load from, or a store to, a byte of the program text (R44, U9). Raised by every data access. Safe. -/
  | programText
  /-- A fetch from an address at which the program text has no instruction (R44, U9). Raised by the step. Safe. -/
  | noInstruction
  /-- An entry of the program text whose operands are out of range (R62, U6). Raised by the step. Safe. -/
  | illFormed
  /-- `JSR R15`: whether the target is the old or the decremented R15 is not given (R84 (6), U3, D24). Raised by
  `execJsrR`. Safe. -/
  | jsrThroughSp
deriving DecidableEq, Repr

/-- Why an operation stops, before it becomes the outcome of a step. -/
inductive Stop where
  | fault (r : Fault)
  | refused (r : Refusal)
deriving DecidableEq, Repr

/-- The machine right after reset (R22, R221): IF = 0 and PC from the reset vector word. The source gives no other
value, so the registers, the other flags, the vector word's content and the configuration are the uninterpreted
constants of Config; memory lists nothing, and no program, no input and no cycle has come in yet. -/
def State.reset : State where
  regs := Vector.ofFn Config.resetReg
  pc := Config.resetEntry
  cf := Config.resetCF
  zf := Config.resetZF
  vf := Config.resetVF
  nf := Config.resetNF
  iflag := false
  mem := []
  inputs := []
  prog := []
  cfg := Config.platform
  cycles := 0
  draws := 0

end Sys2Proof.Machine
end

