-- ==== Sys2Proof/Machine/Ops.lean ====
section
/-! DEFINITION. The named operations over registers, the program counter, memory, the program text and the stack,
and the two exceptions with the return from one (spec rules R7, R10 to R14, R30 to R44, R84 to R88, R100 to R104,
R190 to R199). Where an operation can stop it answers `Except Stop`; `finish` turns that into the outcome of a step. -/

namespace Sys2Proof.Machine

/-! ### Outcomes -/

/-- The outcome of a step that stops. -/
def Stop.outcome : Stop → Host.Outcome State Fault Refusal
  | .fault r => .fault r
  | .refused r => .refused r

/-- Go on with `k` where the operation answers a value, else stop. -/
def finish {α : Type} (r : Except Stop α) (k : α → State) : Host.Outcome State Fault Refusal :=
  match r with
  | .ok v => .next (k v)
  | .error e => e.outcome

/-! ### Registers and the program counter -/

/-- `x[r]` (R7, R10). -/
def State.reg (s : State) (r : Reg) : Word := s.regs.get r

/-- `x[r] <- v` (R7, R10): no register is hardwired. -/
def State.setReg (s : State) (r : Reg) (v : Word) : State := { s with regs := s.regs.set r.val v r.isLt }

/-- `x[15]`, SP (R11). -/
def State.sp (s : State) : Word := s.reg spReg

/-- The even byte address `{PC, 0}` (R13); `a` of R7. -/
def State.pcAddr (s : State) : Word := s.pc ++ 0#1

/-- The 15 bits `v[15:1]` that enter PC when the 16-bit `v` is assigned to it (R14, D4). -/
def toPc (v : Word) : Pc := v.extractLsb' 1 15

/-- `pc <- {t[15:1], 0}` (R7, R14). -/
def State.jump (s : State) (t : Word) : State := { s with pc := toPc t }

/-- `npc = (a + 2*w) mod 2^16` (R7, R14). -/
def State.npc (s : State) (w : Nat) : Word := s.pcAddr + BitVec.ofNat 16 (2 * w)

/-- The instruction of `w` words ends with `pc <- npc` (R14). -/
def State.advance (s : State) (w : Nat) : State := s.jump (s.npc w)

/-- `IF <- b`. -/
def State.setIF (s : State) (b : Bool) : State := { s with iflag := b }

/-- Add `n` to the cycle total (R233). -/
def State.tick (s : State) (n : Nat) : State := { s with cycles := s.cycles + n }

/-! ### Free values -/

/-- The bit the next `draw(1)` gives (R7, D12): free, whatever the counter. -/
def State.freeBit (s : State) : Bool := Config.freeBit s.draws

/-- One `draw(1)` has been made. -/
def State.drawn (s : State) : State := { s with draws := s.draws + 1 }

/-! ### Memory (20_memory.md) -/

/-- The byte at an address, `none` where memory holds no value there (R23). -/
def Memory.read : Memory → Nat → Option Byte
  | [], _ => none
  | c :: rest, a => if c.1 = a then some c.2 else Memory.read rest a

/-- Store a byte, keeping the addresses strictly rising (R30). -/
def Memory.write : Memory → Nat → Byte → Memory
  | [], a, v => [(a, v)]
  | c :: rest, a, v =>
    if a < c.1 then (a, v) :: c :: rest
    else if a = c.1 then (a, v) :: rest
    else c :: Memory.write rest a v

/-- The addresses of a memory rise strictly. -/
def Memory.rising : Memory → Bool
  | [] => true
  | [_] => true
  | c :: d :: rest => decide (c.1 < d.1) && Memory.rising (d :: rest)

/-- The canonical form: addresses strictly rising and below 65536 (R19). An unlisted byte holds no value, so no
entry can equal what an unlisted address reads as. -/
def Memory.wf (m : Memory) : Bool := m.rising && m.all fun c => decide (c.1 < 65536)

/-- The program word at `w` is one of the words the entry occupies (R44, R50). -/
def ProgEntry.covers (e : ProgEntry) (w : Pc) : Bool :=
  decide (w = e.pc) || (decide (e.instr.words = 2) && decide (w = e.pc + 1))

/-- The byte at `a` belongs to the program text (R44). -/
def State.inText (s : State) (a : Word) : Bool := s.prog.any fun e => e.covers (toPc a)

/-- The byte at `a` is plain memory, by `MEMMAP` (R37, D23). -/
def State.mapped (s : State) (a : Word) : Bool :=
  s.cfg.memMap.any fun r => decide (r.first ≤ a.toNat) && decide (a.toNat ≤ r.last)

/-- A data access to the byte at `a` has a meaning: `MEMMAP` holds it (R37) and the program text does not (R44). -/
def State.access (s : State) (a : Word) : Except Stop Unit :=
  if s.mapped a = false then .error (.refused .outsideMemMap)
  else if s.inText a = true then .error (.refused .programText)
  else .ok ()

/-- `MEM[a]` (R30); a byte that holds no value has none to give (R23). -/
def State.readByte (s : State) (a : Word) : Except Stop Byte :=
  match s.access a with
  | .error e => .error e
  | .ok _ =>
    match s.mem.read a.toNat with
    | none => .error (.fault .valuelessByte)
    | some b => .ok b

/-- `MEM[a] <- b` and no other byte (R30). -/
def State.pokeByte (s : State) (a : Word) (b : Byte) : State := { s with mem := s.mem.write a.toNat b }

/-- The two byte addresses of the MEM16 access at `a`, the lower one first (R31, R33, D7). -/
def State.wordBytes (s : State) (a : Word) : Except Stop (Word × Word) :=
  if a.toNat % 2 = 0 then .ok (a, a + 1)
  else match s.cfg.misaligned16 with
    | .refuse => .error (.refused .misaligned)
    | .ignoreBit0 => .ok (a &&& 0xFFFE#16, (a &&& 0xFFFE#16) + 1)
    | .split => .ok (a, a + 1)

/-- The word whose byte at the lower address is `x` and at the higher `y` (R32). -/
def joinBytes (o : ByteOrder) (x y : Byte) : Word :=
  match o with
  | .little => y ++ x
  | .big => x ++ y

/-- The byte of `v` that stands at the lower address (R32). -/
def lowerByte (o : ByteOrder) (v : Word) : Byte :=
  match o with
  | .little => v.extractLsb' 0 8
  | .big => v.extractLsb' 8 8

/-- The byte of `v` that stands at the higher address (R32). -/
def upperByte (o : ByteOrder) (v : Word) : Byte :=
  match o with
  | .little => v.extractLsb' 8 8
  | .big => v.extractLsb' 0 8

/-- `MemRead(a, 2)` (R31 to R33). -/
def State.read16 (s : State) (a : Word) : Except Stop Word :=
  match s.wordBytes a with
  | .error e => .error e
  | .ok p =>
    match s.readByte p.1, s.readByte p.2 with
    | .error e, _ => .error e
    | .ok _, .error e => .error e
    | .ok x, .ok y => .ok (joinBytes s.cfg.byteOrder x y)

/-- `MemWrite(a, 2, v)` (R31 to R33): both bytes, or no step. -/
def State.write16 (s : State) (a v : Word) : Except Stop State :=
  match s.wordBytes a with
  | .error e => .error e
  | .ok p =>
    match s.access p.1, s.access p.2 with
    | .error e, _ => .error e
    | .ok _, .error e => .error e
    | .ok _, .ok _ =>
      .ok ((s.pokeByte p.1 (lowerByte s.cfg.byteOrder v)).pokeByte p.2 (upperByte s.cfg.byteOrder v))

/-- `MemRead(a, 1)` (R30). -/
def State.read8 (s : State) (a : Word) : Except Stop Byte := s.readByte a

/-- `MemWrite(a, 1, b)` (R30). -/
def State.write8 (s : State) (a : Word) (b : Byte) : Except Stop State :=
  match s.access a with
  | .error e => .error e
  | .ok _ => .ok (s.pokeByte a b)

/-! ### The program text -/

/-- The first entry at `pc`. -/
def findEntry : List ProgEntry → Pc → Option Instr
  | [], _ => none
  | e :: rest, pc => if e.pc = pc then some e.instr else findEntry rest pc

/-- The instruction form the program text has at PC (R44); none there, or one whose operands are out of range
(R62), is refused. -/
def State.fetch (s : State) : Except Stop Instr :=
  match findEntry s.prog s.pc with
  | none => .error (.refused .noInstruction)
  | some i => if i.wellFormed = true then .ok i else .error (.refused .illFormed)

/-- Two entries of the program text occupy a common word. -/
def ProgEntry.overlaps (d e : ProgEntry) : Bool :=
  d.covers e.pc || e.covers d.pc

/-- Well-formed program text: operands in range, and the byte ranges of distinct entries do not overlap (R67). -/
def progWf : List ProgEntry → Bool
  | [] => true
  | e :: rest => e.instr.wellFormed && (rest.all fun d => !d.overlaps e) && progWf rest

/-- The program text with `i` at `pc`, and without the entries `i` would overlap. -/
def placeInstr (prog : List ProgEntry) (pc : Pc) (i : Instr) : List ProgEntry :=
  { pc := pc, instr := i } :: prog.filter fun d => !d.overlaps { pc := pc, instr := i }

/-! ### The stack (R104) -/

/-- `x[15] <- x[15] - 2 ; MemWrite(x[15], 2, v)`: full-descending push (R84, R100, R104). -/
def State.pushWord (s : State) (v : Word) : Except Stop State :=
  (s.setReg spReg (s.sp - 2)).write16 (s.sp - 2) v

/-- The return word `{t[15:1], b}` (R18). -/
def returnWord (t : Word) (b : Bool) : Word := toPc t ++ BitVec.ofBool b

/-- The call of R84 and R85: push `{npc[15:1], IF}` and go to `target`; `w` is the word count. -/
def State.call (s : State) (target : Word) (w : Nat) : Except Stop State :=
  match s.pushWord (returnWord (s.npc w) s.iflag) with
  | .error e => .error e
  | .ok t => .ok (t.jump target)

/-- The return of R86 to R88, and so the return from an interrupt (R198): `t <- MemRead(x[15], 2)`,
`pc <- {t[15:1], 0}`, `x[15] <- x[15] + 2`. Bit 0 of the word is discarded and IF is not restored from it. -/
def State.popReturn (s : State) : Except Stop State :=
  match s.read16 s.sp with
  | .error e => .error e
  | .ok t => .ok ((s.jump t).setReg spReg (s.sp + 2))

/-! ### Exceptions (60_exceptions.md) -/

/-- The byte address of entry `n` of the vector table, `2*n` (R38). -/
def vectorAddr (n : BitVec 15) : Word := n ++ 0#1

/-- The RESET exception (R190, R220): `IF <- 0`, `pc` from the reset vector; nothing else changes. 2 cycles. -/
def State.takeReset (s : State) : Except Stop State :=
  match (s.setIF false).read16 (vectorAddr s.cfg.resetVector) with
  | .error e => .error e
  | .ok t => .ok (((s.setIF false).jump t).tick 2)

/-- Bit 0 of the word the interrupt exception pushes, `old` being the IF of the interrupted program (R191, D15). -/
def State.pushedIF (s : State) (old : Bool) : Bool :=
  match s.cfg.intPushedIf with
  | .zero => false
  | .oldIf => old
  | .draw => s.freeBit

/-- The draw `pushedIF` has made, if the parameter is `draw`. -/
def State.afterPushedIF (s : State) : State :=
  match s.cfg.intPushedIf with
  | .zero | .oldIf => s
  | .draw => s.drawn

/-- The interrupt exception with vector number `v` (R191), in the source's order: `IF <- 0`, push `{PC, s}`, `pc`
from the vector. 3 cycles. -/
def State.takeInterrupt (s : State) (v : BitVec 15) : Except Stop State :=
  match (s.setIF false).afterPushedIF.pushWord (returnWord s.pcAddr (s.pushedIF s.iflag)) with
  | .error e => .error e
  | .ok t =>
    match t.read16 (vectorAddr v) with
    | .error e => .error e
    | .ok u => .ok ((t.jump u).tick 3)

/-- The interrupt that is taken at a boundary: a request is accepted exactly when IF = 1 (R194). -/
def State.accepted (s : State) (b : Boundary) : Option (BitVec 15) :=
  if s.iflag = true then b.irq else none

/-- What the environment presents at the coming boundary (R21, R193). -/
def State.boundary (s : State) : Boundary :=
  match s.inputs with
  | [] => Boundary.quiet
  | b :: _ => b

/-- The coming boundary is over. -/
def State.passBoundary (s : State) : State := { s with inputs := s.inputs.tail }

end Sys2Proof.Machine
end

