-- ==== Sys2Proof/Machine/Operands.lean ====
section
/-! DEFINITION. The operand forms: second operands (R54, R55, R140, R160), effective addresses (R116) and branch
targets (R8, R81 to R83). -/

namespace Sys2Proof.Machine

/-- `zext_8(IMM8)`: an 8-bit immediate is zero-extended, never sign-extended (R54, R140). -/
def imm8Operand (imm : Nat) : Word := (BitVec.ofNat 8 imm).setWidth 16

/-- `IMM16` is the operand itself (R55, R160). -/
def imm16Operand (imm : Word) : Word := imm

/-- `ea = (x[RP] + D) mod 2^16` with a signed byte displacement (R36, R116). -/
def State.effAddr (s : State) (rp : Reg) (disp : Int) : Word := s.reg rp + BitVec.ofInt 16 disp

/-- What `PC` stands for in `PC <- PC+REL8`: `npc`, or `a` if `REL_BASE = self` (R8, R81, D2). -/
def State.branchBase (s : State) : Word :=
  match s.cfg.relBase with
  | .next => s.npc 1
  | .self => s.pcAddr

/-- `(base + REL8) mod 2^16` (R81). -/
def State.branchTarget (s : State) (rel : Int) : Word := s.branchBase + BitVec.ofInt 16 rel

end Sys2Proof.Machine
end

