-- ==== Sys2Proof/Machine/Flags.lean ====
section
/-! DEFINITION. The condition codes (R80), the FLAG word (R17), the flag rule ALU_FLAG (R120), the operators and
their carry (R121) and the template of every ALU instruction (R122). -/

namespace Sys2Proof.Machine

/-! ### Condition codes -/

/-- The number of a combination of the ALU flags: `8*NF + 4*VF + 2*ZF + CF`, the low nibble of the FLAG word (R17). -/
def flagNibble (cf zf vf nf : Bool) : Nat := 8 * nf.toNat + 4 * vf.toNat + 2 * zf.toNat + cf.toNat

/-- The truth table of a condition code (R80). -/
def condRow (t : CondTable) : Cond → BitVec 16
  | .cs => t.cs
  | .cc => t.cc
  | .eq => t.eq
  | .ne => t.ne
  | .vs => t.vs
  | .vc => t.vc
  | .mi => t.mi
  | .pl => t.pl
  | .ls => t.ls
  | .hi => t.hi
  | .lt => t.lt
  | .ge => t.ge
  | .le => t.le
  | .gt => t.gt
  | .al => t.al

/-- `COND(cc)`: a function of the code and of CF, ZF, VF, NF only (R80). -/
def condHolds (t : CondTable) (c : Cond) (cf zf vf nf : Bool) : Bool :=
  (condRow t c).getLsbD (flagNibble cf zf vf nf)

/-- `COND(cc)` under the current flags (R7, R80). -/
def State.holds (s : State) (c : Cond) : Bool := condHolds s.cfg.cond c s.cf s.zf s.vf s.nf

/-- The default the spec proposes for `COND` (R80, D8; every line is from general knowledge, not in the source). -/
def defaultCond (c : Cond) (cf zf vf nf : Bool) : Bool :=
  match c with
  | .cs => cf
  | .cc => !cf
  | .eq => zf
  | .ne => !zf
  | .vs => vf
  | .vc => !vf
  | .mi => nf
  | .pl => !nf
  | .ls => !cf || zf
  | .hi => cf && !zf
  | .lt => nf != vf
  | .ge => nf == vf
  | .le => zf || nf != vf
  | .gt => !zf && nf == vf
  | .al => true

/-- The truth table of a flag test. -/
def tabulate (f : Bool → Bool → Bool → Bool → Bool) : BitVec 16 :=
  (List.range 16).foldl
    (fun acc n => if f (n.testBit 0) (n.testBit 1) (n.testBit 2) (n.testBit 3) then acc ||| BitVec.twoPow 16 n else acc) 0

/-- The default `COND` as a table. -/
def defaultCondTable : CondTable where
  cs := tabulate (defaultCond .cs)
  cc := tabulate (defaultCond .cc)
  eq := tabulate (defaultCond .eq)
  ne := tabulate (defaultCond .ne)
  vs := tabulate (defaultCond .vs)
  vc := tabulate (defaultCond .vc)
  mi := tabulate (defaultCond .mi)
  pl := tabulate (defaultCond .pl)
  ls := tabulate (defaultCond .ls)
  hi := tabulate (defaultCond .hi)
  lt := tabulate (defaultCond .lt)
  ge := tabulate (defaultCond .ge)
  le := tabulate (defaultCond .le)
  gt := tabulate (defaultCond .gt)
  al := tabulate (defaultCond .al)

/-- The configuration with the defaults R3 proposes; R3 proposes none for the three arguments. -/
def defaultConfig (o : ByteOrder) (signed : Bool) (resetVector : BitVec 15) : Config where
  relBase := .next
  byteOrder := o
  misaligned16 := .refuse
  cond := defaultCondTable
  mulSigned := signed
  mlhCf := .draw
  intPushedIf := .draw
  resetVector := resetVector
  memMap := [{ first := 0, last := 0xFFFF }]

/-- `if COND(cc) then pc <- target else pc <- npc` (R81 to R83), `w` being the word count. -/
def State.jumpIf (s : State) (c : Cond) (target : Word) (w : Nat) : State :=
  s.jump (if s.holds c = true then target else s.npc w)

/-! ### The FLAG word -/

/-- `{zeros(11), IF, NF, VF, ZF, CF}` (R17, R102). -/
def State.flagWord (s : State) : Word :=
  0#11 ++ BitVec.ofBool s.iflag ++ BitVec.ofBool s.nf ++ BitVec.ofBool s.vf ++ BitVec.ofBool s.zf ++ BitVec.ofBool s.cf

/-- The four ALU flags. -/
def State.setFlags (s : State) (nf vf zf cf : Bool) : State := { s with nf := nf, vf := vf, zf := zf, cf := cf }

/-- `{NF,VF,ZF,CF} <- t[3:0]`; IF is not written (R17, R103). -/
def State.loadFlags (s : State) (t : Word) : State :=
  s.setFlags (t.getLsbD 3) (t.getLsbD 2) (t.getLsbD 1) (t.getLsbD 0)

/-! ### ALU -/

/-- The value CF receives, `none` where it is the source's undefined value, `draw(1)` (R121). -/
abbrev Carry := Option Bool

/-- The result of an ALU operation: the 16-bit value and the value CF receives (R121). -/
structure AluResult where
  value : Word
  carry : Carry
deriving DecidableEq, Repr

/-- A logical operation: CF receives an undefined value (R121, D10, D12). -/
def logicResult (v : Word) : AluResult := { value := v, carry := none }

/-- `a + b + cin` exactly: 16 bits and bit 16 (R121). -/
def addResult (a b : Word) (cin : Bool) : AluResult :=
  { value := BitVec.ofNat 16 (a.toNat + b.toNat + cin.toNat),
    carry := some ((a.toNat + b.toNat + cin.toNat).testBit 16) }

/-- `a - b - cin` exactly: modulo 2^16, and the borrow (R121, D13). -/
def subResult (a b : Word) (cin : Bool) : AluResult :=
  { value := BitVec.ofInt 16 ((a.toNat : Int) - b.toNat - cin.toNat),
    carry := some (decide ((a.toNat : Int) - b.toNat - cin.toNat < 0)) }

/-- The 32-bit product `P`, signed or not by `MUL_SIGNED` (R121, D11). -/
def product (signed : Bool) (a b : Word) : BitVec 32 :=
  if signed = true then BitVec.ofInt 32 (a.toInt * b.toInt) else BitVec.ofNat 32 (a.toNat * b.toNat)

/-- MLT: `P[15:0]`, CF = `P[16]` (R131). -/
def mltResult (p : BitVec 32) : AluResult := { value := p.extractLsb' 0 16, carry := some (p.getLsbD 16) }

/-- MLH: `P[31:16]`, CF by `MLH_CF` (R132, D11). -/
def mlhResult (m : MlhCf) (p : BitVec 32) : AluResult :=
  { value := p.extractLsb' 16 16,
    carry := match m with
      | .productBit16 => some (p.getLsbD 16)
      | .zero => some false
      | .draw => none }

/-- The operators of R121, with `a` the old RA, `b` the second operand and `cin` the old CF. -/
def aluResult (cfg : Config) (op : AluOp) (a b : Word) (cin : Bool) : AluResult :=
  match op with
  | .mov => logicResult b
  | .and => logicResult (a &&& b)
  | .or => logicResult (a ||| b)
  | .xor => logicResult (a ^^^ b)
  | .tst => logicResult (a &&& b)
  | .add => addResult a b false
  | .adc => addResult a b cin
  | .sub => subResult a b false
  | .sbc => subResult a b cin
  | .cmp => subResult a b false
  | .mlt => mltResult (product cfg.mulSigned a b)
  | .mlh => mlhResult cfg.mlhCf (product cfg.mulSigned a b)

/-- RA is written: by every operation but TST and CMP, whose destination is "dummy" (R121, R122). -/
def aluWrites : AluOp → Bool
  | .mov => true
  | .and => true
  | .or => true
  | .xor => true
  | .add => true
  | .adc => true
  | .sub => true
  | .sbc => true
  | .mlt => true
  | .mlh => true
  | .tst => false
  | .cmp => false

/-- `CF <- c`, where an undefined value is a fresh draw (R120, R121). -/
def State.setCarry (s : State) (c : Carry) : State :=
  match c with
  | some b => { s with cf := b }
  | none => { s.drawn with cf := s.freeBit }

/-- `ALU_FLAG(ra, res, c)` (R120): VF is the sign of the old RA XOR the sign of the result. -/
def State.aluFlag (s : State) (ra res : Word) (c : Carry) : State :=
  { s.setCarry c with vf := ra.msb ^^ res.msb, nf := res.msb, zf := decide (res = 0) }

/-- The template of every ALU instruction (R122); `b` is the second operand and `w` the word count. Everything is
read before anything is written. -/
def State.alu (s : State) (op : AluOp) (ra : Reg) (b : Word) (w : Nat) : State :=
  let r := aluResult s.cfg op (s.reg ra) b s.cf
  let t := if aluWrites op = true then s.setReg ra r.value else s
  (t.aluFlag (s.reg ra) r.value r.carry).advance w

end Sys2Proof.Machine
end

