-- ==== Sys2Proof/Machine/AluImm16.lean ====
section
/-! DEFINITION. MOV {RA},#{IMM16}:16 (45_alu_imm8.md, R153) and arithmetic group 3: OP {RA},#{IMM16}:16
(46_alu_imm16.md, R160 to R171). -/

namespace Sys2Proof.Machine

/-- MOV with a 16-bit immediate (R153). -/
def execMovI16 (ra : Reg) (imm : Word) (s : State) : Host.Outcome State Fault Refusal :=
  .next (s.alu .mov ra (imm16Operand imm) 2)

/-- AND with a 16-bit immediate (R161). -/
def execAndI16 (ra : Reg) (imm : Word) (s : State) : Host.Outcome State Fault Refusal :=
  .next (s.alu .and ra (imm16Operand imm) 2)

/-- OR with a 16-bit immediate (R162). -/
def execOrI16 (ra : Reg) (imm : Word) (s : State) : Host.Outcome State Fault Refusal :=
  .next (s.alu .or ra (imm16Operand imm) 2)

/-- XOR with a 16-bit immediate (R163). -/
def execXorI16 (ra : Reg) (imm : Word) (s : State) : Host.Outcome State Fault Refusal :=
  .next (s.alu .xor ra (imm16Operand imm) 2)

/-- ADD with a 16-bit immediate (R164). -/
def execAddI16 (ra : Reg) (imm : Word) (s : State) : Host.Outcome State Fault Refusal :=
  .next (s.alu .add ra (imm16Operand imm) 2)

/-- ADC with a 16-bit immediate (R165). -/
def execAdcI16 (ra : Reg) (imm : Word) (s : State) : Host.Outcome State Fault Refusal :=
  .next (s.alu .adc ra (imm16Operand imm) 2)

/-- SUB with a 16-bit immediate (R166). -/
def execSubI16 (ra : Reg) (imm : Word) (s : State) : Host.Outcome State Fault Refusal :=
  .next (s.alu .sub ra (imm16Operand imm) 2)

/-- SBC with a 16-bit immediate (R167). -/
def execSbcI16 (ra : Reg) (imm : Word) (s : State) : Host.Outcome State Fault Refusal :=
  .next (s.alu .sbc ra (imm16Operand imm) 2)

/-- MLT with a 16-bit immediate (R168). -/
def execMltI16 (ra : Reg) (imm : Word) (s : State) : Host.Outcome State Fault Refusal :=
  .next (s.alu .mlt ra (imm16Operand imm) 2)

/-- MLH with a 16-bit immediate (R169). -/
def execMlhI16 (ra : Reg) (imm : Word) (s : State) : Host.Outcome State Fault Refusal :=
  .next (s.alu .mlh ra (imm16Operand imm) 2)

/-- TST with a 16-bit immediate (R170). -/
def execTstI16 (ra : Reg) (imm : Word) (s : State) : Host.Outcome State Fault Refusal :=
  .next (s.alu .tst ra (imm16Operand imm) 2)

/-- CMP with a 16-bit immediate (R171). -/
def execCmpI16 (ra : Reg) (imm : Word) (s : State) : Host.Outcome State Fault Refusal :=
  .next (s.alu .cmp ra (imm16Operand imm) 2)

end Sys2Proof.Machine
end

