-- ==== Sys2Proof/Machine/AluImm8.lean ====
section
/-! DEFINITION. Arithmetic group 2, 8-bit immediate: OP {RA},#{IMM8}:8 (45_alu_imm8.md, R140 to R152). -/

namespace Sys2Proof.Machine

/-- MOV with an 8-bit immediate (R141). -/
def execMovI8 (ra : Reg) (imm : Nat) (s : State) : Host.Outcome State Fault Refusal :=
  .next (s.alu .mov ra (imm8Operand imm) 1)

/-- AND with an 8-bit immediate (R142). -/
def execAndI8 (ra : Reg) (imm : Nat) (s : State) : Host.Outcome State Fault Refusal :=
  .next (s.alu .and ra (imm8Operand imm) 1)

/-- OR with an 8-bit immediate (R143). -/
def execOrI8 (ra : Reg) (imm : Nat) (s : State) : Host.Outcome State Fault Refusal :=
  .next (s.alu .or ra (imm8Operand imm) 1)

/-- XOR with an 8-bit immediate (R144). -/
def execXorI8 (ra : Reg) (imm : Nat) (s : State) : Host.Outcome State Fault Refusal :=
  .next (s.alu .xor ra (imm8Operand imm) 1)

/-- ADD with an 8-bit immediate (R145). -/
def execAddI8 (ra : Reg) (imm : Nat) (s : State) : Host.Outcome State Fault Refusal :=
  .next (s.alu .add ra (imm8Operand imm) 1)

/-- ADC with an 8-bit immediate (R146). -/
def execAdcI8 (ra : Reg) (imm : Nat) (s : State) : Host.Outcome State Fault Refusal :=
  .next (s.alu .adc ra (imm8Operand imm) 1)

/-- SUB with an 8-bit immediate (R147). -/
def execSubI8 (ra : Reg) (imm : Nat) (s : State) : Host.Outcome State Fault Refusal :=
  .next (s.alu .sub ra (imm8Operand imm) 1)

/-- SBC with an 8-bit immediate (R148). -/
def execSbcI8 (ra : Reg) (imm : Nat) (s : State) : Host.Outcome State Fault Refusal :=
  .next (s.alu .sbc ra (imm8Operand imm) 1)

/-- MLT with an 8-bit immediate (R149). -/
def execMltI8 (ra : Reg) (imm : Nat) (s : State) : Host.Outcome State Fault Refusal :=
  .next (s.alu .mlt ra (imm8Operand imm) 1)

/-- MLH with an 8-bit immediate (R150). -/
def execMlhI8 (ra : Reg) (imm : Nat) (s : State) : Host.Outcome State Fault Refusal :=
  .next (s.alu .mlh ra (imm8Operand imm) 1)

/-- TST with an 8-bit immediate (R151). -/
def execTstI8 (ra : Reg) (imm : Nat) (s : State) : Host.Outcome State Fault Refusal :=
  .next (s.alu .tst ra (imm8Operand imm) 1)

/-- CMP with an 8-bit immediate (R152). -/
def execCmpI8 (ra : Reg) (imm : Nat) (s : State) : Host.Outcome State Fault Refusal :=
  .next (s.alu .cmp ra (imm8Operand imm) 1)

end Sys2Proof.Machine
end

