-- ==== Sys2Proof/Machine/AluRegister.lean ====
section
/-! DEFINITION. Arithmetic group 1: OP {RA},{RB} (44_alu_register.md, R122 to R134). -/

namespace Sys2Proof.Machine

/-- MOV with a register (R123). -/
def execMovR (ra rb : Reg) (s : State) : Host.Outcome State Fault Refusal :=
  .next (s.alu .mov ra (s.reg rb) 1)

/-- AND with a register (R124). -/
def execAndR (ra rb : Reg) (s : State) : Host.Outcome State Fault Refusal :=
  .next (s.alu .and ra (s.reg rb) 1)

/-- OR with a register (R125). -/
def execOrR (ra rb : Reg) (s : State) : Host.Outcome State Fault Refusal :=
  .next (s.alu .or ra (s.reg rb) 1)

/-- XOR with a register (R126). -/
def execXorR (ra rb : Reg) (s : State) : Host.Outcome State Fault Refusal :=
  .next (s.alu .xor ra (s.reg rb) 1)

/-- ADD with a register (R127). -/
def execAddR (ra rb : Reg) (s : State) : Host.Outcome State Fault Refusal :=
  .next (s.alu .add ra (s.reg rb) 1)

/-- ADC with a register (R128). -/
def execAdcR (ra rb : Reg) (s : State) : Host.Outcome State Fault Refusal :=
  .next (s.alu .adc ra (s.reg rb) 1)

/-- SUB with a register (R129). -/
def execSubR (ra rb : Reg) (s : State) : Host.Outcome State Fault Refusal :=
  .next (s.alu .sub ra (s.reg rb) 1)

/-- SBC with a register (R130). -/
def execSbcR (ra rb : Reg) (s : State) : Host.Outcome State Fault Refusal :=
  .next (s.alu .sbc ra (s.reg rb) 1)

/-- MLT with a register (R131). -/
def execMltR (ra rb : Reg) (s : State) : Host.Outcome State Fault Refusal :=
  .next (s.alu .mlt ra (s.reg rb) 1)

/-- MLH with a register (R132). -/
def execMlhR (ra rb : Reg) (s : State) : Host.Outcome State Fault Refusal :=
  .next (s.alu .mlh ra (s.reg rb) 1)

/-- TST with a register (R133). -/
def execTstR (ra rb : Reg) (s : State) : Host.Outcome State Fault Refusal :=
  .next (s.alu .tst ra (s.reg rb) 1)

/-- CMP with a register (R134). -/
def execCmpR (ra rb : Reg) (s : State) : Host.Outcome State Fault Refusal :=
  .next (s.alu .cmp ra (s.reg rb) 1)

end Sys2Proof.Machine
end

