-- ==== Sys2Proof/Machine/Branch.lean ====
section
/-! DEFINITION. Branch, jump, call and return instructions (41_branch.md, R81 to R89). -/

namespace Sys2Proof.Machine

/-- BCS (R81). -/
def execBcs (rel : Int) (s : State) : Host.Outcome State Fault Refusal :=
  .next (s.jumpIf .cs (s.branchTarget rel) 1)

/-- BCC (R81). -/
def execBcc (rel : Int) (s : State) : Host.Outcome State Fault Refusal :=
  .next (s.jumpIf .cc (s.branchTarget rel) 1)

/-- BEQ (R81). -/
def execBeq (rel : Int) (s : State) : Host.Outcome State Fault Refusal :=
  .next (s.jumpIf .eq (s.branchTarget rel) 1)

/-- BNE (R81). -/
def execBne (rel : Int) (s : State) : Host.Outcome State Fault Refusal :=
  .next (s.jumpIf .ne (s.branchTarget rel) 1)

/-- BVS (R81). -/
def execBvs (rel : Int) (s : State) : Host.Outcome State Fault Refusal :=
  .next (s.jumpIf .vs (s.branchTarget rel) 1)

/-- BVC (R81). -/
def execBvc (rel : Int) (s : State) : Host.Outcome State Fault Refusal :=
  .next (s.jumpIf .vc (s.branchTarget rel) 1)

/-- BMI (R81). -/
def execBmi (rel : Int) (s : State) : Host.Outcome State Fault Refusal :=
  .next (s.jumpIf .mi (s.branchTarget rel) 1)

/-- BPL (R81). -/
def execBpl (rel : Int) (s : State) : Host.Outcome State Fault Refusal :=
  .next (s.jumpIf .pl (s.branchTarget rel) 1)

/-- BLS (R81). -/
def execBls (rel : Int) (s : State) : Host.Outcome State Fault Refusal :=
  .next (s.jumpIf .ls (s.branchTarget rel) 1)

/-- BHI (R81). -/
def execBhi (rel : Int) (s : State) : Host.Outcome State Fault Refusal :=
  .next (s.jumpIf .hi (s.branchTarget rel) 1)

/-- BLT (R81). -/
def execBlt (rel : Int) (s : State) : Host.Outcome State Fault Refusal :=
  .next (s.jumpIf .lt (s.branchTarget rel) 1)

/-- BGE (R81). -/
def execBge (rel : Int) (s : State) : Host.Outcome State Fault Refusal :=
  .next (s.jumpIf .ge (s.branchTarget rel) 1)

/-- BLE (R81). -/
def execBle (rel : Int) (s : State) : Host.Outcome State Fault Refusal :=
  .next (s.jumpIf .le (s.branchTarget rel) 1)

/-- BGT (R81). -/
def execBgt (rel : Int) (s : State) : Host.Outcome State Fault Refusal :=
  .next (s.jumpIf .gt (s.branchTarget rel) 1)

/-- BRA (R81). -/
def execBra (rel : Int) (s : State) : Host.Outcome State Fault Refusal :=
  .next (s.jumpIf .al (s.branchTarget rel) 1)

/-- JCS with a register (R82): bit 0 of the register is dropped (D4). -/
def execJcsR (rb : Reg) (s : State) : Host.Outcome State Fault Refusal :=
  .next (s.jumpIf .cs (s.reg rb) 1)

/-- JCC with a register (R82): bit 0 of the register is dropped (D4). -/
def execJccR (rb : Reg) (s : State) : Host.Outcome State Fault Refusal :=
  .next (s.jumpIf .cc (s.reg rb) 1)

/-- JEQ with a register (R82): bit 0 of the register is dropped (D4). -/
def execJeqR (rb : Reg) (s : State) : Host.Outcome State Fault Refusal :=
  .next (s.jumpIf .eq (s.reg rb) 1)

/-- JNE with a register (R82): bit 0 of the register is dropped (D4). -/
def execJneR (rb : Reg) (s : State) : Host.Outcome State Fault Refusal :=
  .next (s.jumpIf .ne (s.reg rb) 1)

/-- JVS with a register (R82): bit 0 of the register is dropped (D4). -/
def execJvsR (rb : Reg) (s : State) : Host.Outcome State Fault Refusal :=
  .next (s.jumpIf .vs (s.reg rb) 1)

/-- JVC with a register (R82): bit 0 of the register is dropped (D4). -/
def execJvcR (rb : Reg) (s : State) : Host.Outcome State Fault Refusal :=
  .next (s.jumpIf .vc (s.reg rb) 1)

/-- JMI with a register (R82): bit 0 of the register is dropped (D4). -/
def execJmiR (rb : Reg) (s : State) : Host.Outcome State Fault Refusal :=
  .next (s.jumpIf .mi (s.reg rb) 1)

/-- JPL with a register (R82): bit 0 of the register is dropped (D4). -/
def execJplR (rb : Reg) (s : State) : Host.Outcome State Fault Refusal :=
  .next (s.jumpIf .pl (s.reg rb) 1)

/-- JLS with a register (R82): bit 0 of the register is dropped (D4). -/
def execJlsR (rb : Reg) (s : State) : Host.Outcome State Fault Refusal :=
  .next (s.jumpIf .ls (s.reg rb) 1)

/-- JHI with a register (R82): bit 0 of the register is dropped (D4). -/
def execJhiR (rb : Reg) (s : State) : Host.Outcome State Fault Refusal :=
  .next (s.jumpIf .hi (s.reg rb) 1)

/-- JLT with a register (R82): bit 0 of the register is dropped (D4). -/
def execJltR (rb : Reg) (s : State) : Host.Outcome State Fault Refusal :=
  .next (s.jumpIf .lt (s.reg rb) 1)

/-- JGE with a register (R82): bit 0 of the register is dropped (D4). -/
def execJgeR (rb : Reg) (s : State) : Host.Outcome State Fault Refusal :=
  .next (s.jumpIf .ge (s.reg rb) 1)

/-- JLE with a register (R82): bit 0 of the register is dropped (D4). -/
def execJleR (rb : Reg) (s : State) : Host.Outcome State Fault Refusal :=
  .next (s.jumpIf .le (s.reg rb) 1)

/-- JGT with a register (R82): bit 0 of the register is dropped (D4). -/
def execJgtR (rb : Reg) (s : State) : Host.Outcome State Fault Refusal :=
  .next (s.jumpIf .gt (s.reg rb) 1)

/-- JMP with a register (R82): bit 0 of the register is dropped (D4). -/
def execJmpR (rb : Reg) (s : State) : Host.Outcome State Fault Refusal :=
  .next (s.jumpIf .al (s.reg rb) 1)

/-- JCS with an address (R83). -/
def execJcsA (abs : Word) (s : State) : Host.Outcome State Fault Refusal :=
  .next (s.jumpIf .cs abs 2)

/-- JCC with an address (R83). -/
def execJccA (abs : Word) (s : State) : Host.Outcome State Fault Refusal :=
  .next (s.jumpIf .cc abs 2)

/-- JEQ with an address (R83). -/
def execJeqA (abs : Word) (s : State) : Host.Outcome State Fault Refusal :=
  .next (s.jumpIf .eq abs 2)

/-- JNE with an address (R83). -/
def execJneA (abs : Word) (s : State) : Host.Outcome State Fault Refusal :=
  .next (s.jumpIf .ne abs 2)

/-- JVS with an address (R83). -/
def execJvsA (abs : Word) (s : State) : Host.Outcome State Fault Refusal :=
  .next (s.jumpIf .vs abs 2)

/-- JVC with an address (R83). -/
def execJvcA (abs : Word) (s : State) : Host.Outcome State Fault Refusal :=
  .next (s.jumpIf .vc abs 2)

/-- JMI with an address (R83). -/
def execJmiA (abs : Word) (s : State) : Host.Outcome State Fault Refusal :=
  .next (s.jumpIf .mi abs 2)

/-- JPL with an address (R83). -/
def execJplA (abs : Word) (s : State) : Host.Outcome State Fault Refusal :=
  .next (s.jumpIf .pl abs 2)

/-- JLS with an address (R83). -/
def execJlsA (abs : Word) (s : State) : Host.Outcome State Fault Refusal :=
  .next (s.jumpIf .ls abs 2)

/-- JHI with an address (R83). -/
def execJhiA (abs : Word) (s : State) : Host.Outcome State Fault Refusal :=
  .next (s.jumpIf .hi abs 2)

/-- JLT with an address (R83). -/
def execJltA (abs : Word) (s : State) : Host.Outcome State Fault Refusal :=
  .next (s.jumpIf .lt abs 2)

/-- JGE with an address (R83). -/
def execJgeA (abs : Word) (s : State) : Host.Outcome State Fault Refusal :=
  .next (s.jumpIf .ge abs 2)

/-- JLE with an address (R83). -/
def execJleA (abs : Word) (s : State) : Host.Outcome State Fault Refusal :=
  .next (s.jumpIf .le abs 2)

/-- JGT with an address (R83). -/
def execJgtA (abs : Word) (s : State) : Host.Outcome State Fault Refusal :=
  .next (s.jumpIf .gt abs 2)

/-- JMP with an address (R83). -/
def execJmpA (abs : Word) (s : State) : Host.Outcome State Fault Refusal :=
  .next (s.jumpIf .al abs 2)

/-- JSR with a register (R84). `JSR R15` is refused (R84 (6), U3, D24). -/
def execJsrR (rb : Reg) (s : State) : Host.Outcome State Fault Refusal :=
  if rb = spReg then .refused .jsrThroughSp else finish (s.call (s.reg rb) 1) id

/-- JSR with an address (R85). -/
def execJsrA (abs : Word) (s : State) : Host.Outcome State Fault Refusal :=
  finish (s.call abs 2) id

/-- RET (R86): IF is not restored. -/
def execRet (s : State) : Host.Outcome State Fault Refusal :=
  finish s.popReturn id

/-- RET CLI (R87). -/
def execRetCli (s : State) : Host.Outcome State Fault Refusal :=
  finish s.popReturn fun t => t.setIF false

/-- RET STI (R88). -/
def execRetSti (s : State) : Host.Outcome State Fault Refusal :=
  finish s.popReturn fun t => t.setIF true

end Sys2Proof.Machine
end

