-- ==== Sys2Proof/Machine/MemoryOps.lean ====
section
/-! DEFINITION. Memory operation instructions (43_memory_ops.md, R110 to R116). The base is read before any register is
written, and no flag is written. -/

namespace Sys2Proof.Machine

/-- LDM (R110). -/
def execLdm (ra rp : Reg) (disp : Nat) (s : State) : Host.Outcome State Fault Refusal :=
  finish (s.read16 (s.effAddr rp disp)) fun v => (s.setReg ra v).advance 1

/-- STM (R111). -/
def execStm (rp : Reg) (disp : Nat) (ra : Reg) (s : State) : Host.Outcome State Fault Refusal :=
  finish (s.write16 (s.effAddr rp disp) (s.reg ra)) fun t => t.advance 1

/-- LDW (R112). -/
def execLdw (ra rp : Reg) (disp : Int) (s : State) : Host.Outcome State Fault Refusal :=
  finish (s.read16 (s.effAddr rp disp)) fun v => (s.setReg ra v).advance 2

/-- STW (R113). -/
def execStw (rp : Reg) (disp : Int) (ra : Reg) (s : State) : Host.Outcome State Fault Refusal :=
  finish (s.write16 (s.effAddr rp disp) (s.reg ra)) fun t => t.advance 2

/-- LDB (R114): only bits 7:0 of RA are replaced. -/
def execLdb (ra rp : Reg) (disp : Int) (s : State) : Host.Outcome State Fault Refusal :=
  finish (s.read8 (s.effAddr rp disp)) fun b => (s.setReg ra ((s.reg ra).extractLsb' 8 8 ++ b)).advance 2

/-- STB (R115): bits 7:0 of RA. -/
def execStb (rp : Reg) (disp : Int) (ra : Reg) (s : State) : Host.Outcome State Fault Refusal :=
  finish (s.write8 (s.effAddr rp disp) ((s.reg ra).extractLsb' 0 8)) fun t => t.advance 2

end Sys2Proof.Machine
end

