-- ==== Sys2Proof/Machine/Stack.lean ====
section
/-! DEFINITION. Stack instructions (42_stack.md, R100 to R104). -/

namespace Sys2Proof.Machine

/-- PUSH (R100). -/
def execPush (rp : Reg) (s : State) : Host.Outcome State Fault Refusal :=
  finish (s.pushWord (s.reg rp)) fun t => t.advance 1

/-- POP (R101): no flag is written. -/
def execPop (rp : Reg) (s : State) : Host.Outcome State Fault Refusal :=
  finish (s.read16 s.sp) fun v => ((s.setReg rp v).setReg spReg (s.sp + 2)).advance 1

/-- PUSH FLAG (R102). -/
def execPushFlag (s : State) : Host.Outcome State Fault Refusal :=
  finish (s.pushWord s.flagWord) fun t => t.advance 1

/-- POP FLAG (R103): IF is not written. -/
def execPopFlag (s : State) : Host.Outcome State Fault Refusal :=
  finish (s.read16 s.sp) fun t => ((s.loadFlags t).setReg spReg (s.sp + 2)).advance 1

end Sys2Proof.Machine
end

