-- ==== Sys2Proof/Machine/SystemControl.lean ====
section
/-! DEFINITION. System control instructions (40_system_control.md, R70 to R76). -/

namespace Sys2Proof.Machine

/-- NOP (R70): nothing but `pc <- npc`. -/
def execNop (s : State) : Host.Outcome State Fault Refusal :=
  .next (s.advance 1)

/-- CLC (R71): `CF <- 0`. -/
def execClc (s : State) : Host.Outcome State Fault Refusal :=
  .next ({ s with cf := false }.advance 1)

/-- STC (R72): `CF <- 1`. -/
def execStc (s : State) : Host.Outcome State Fault Refusal :=
  .next ({ s with cf := true }.advance 1)

/-- CLZ (R73): `ZF <- 0`. -/
def execClz (s : State) : Host.Outcome State Fault Refusal :=
  .next ({ s with zf := false }.advance 1)

/-- STZ (R74): `ZF <- 1`. -/
def execStz (s : State) : Host.Outcome State Fault Refusal :=
  .next ({ s with zf := true }.advance 1)

/-- CLI (R75): `IF <- 0`, in force at the next boundary (D27). -/
def execCli (s : State) : Host.Outcome State Fault Refusal :=
  .next ((s.setIF false).advance 1)

/-- STI (R76): `IF <- 1`, in force at the next boundary (D27). -/
def execSti (s : State) : Host.Outcome State Fault Refusal :=
  .next ((s.setIF true).advance 1)

end Sys2Proof.Machine
end

