-- ==== Sys2Proof/Machine/Dispatch.lean ====
section
/-! DEFINITION. One arm per constructor of `Instr`. -/

namespace Sys2Proof.Machine

def exec (i : Instr) (s : State) : Host.Outcome State Fault Refusal :=
  match i with
  | .nop => Sys2Proof.Machine.execNop s
  | .clc => Sys2Proof.Machine.execClc s
  | .stc => Sys2Proof.Machine.execStc s
  | .clz => Sys2Proof.Machine.execClz s
  | .stz => Sys2Proof.Machine.execStz s
  | .cli => Sys2Proof.Machine.execCli s
  | .sti => Sys2Proof.Machine.execSti s
  | .bcs rel => Sys2Proof.Machine.execBcs rel s
  | .bcc rel => Sys2Proof.Machine.execBcc rel s
  | .beq rel => Sys2Proof.Machine.execBeq rel s
  | .bne rel => Sys2Proof.Machine.execBne rel s
  | .bvs rel => Sys2Proof.Machine.execBvs rel s
  | .bvc rel => Sys2Proof.Machine.execBvc rel s
  | .bmi rel => Sys2Proof.Machine.execBmi rel s
  | .bpl rel => Sys2Proof.Machine.execBpl rel s
  | .bls rel => Sys2Proof.Machine.execBls rel s
  | .bhi rel => Sys2Proof.Machine.execBhi rel s
  | .blt rel => Sys2Proof.Machine.execBlt rel s
  | .bge rel => Sys2Proof.Machine.execBge rel s
  | .ble rel => Sys2Proof.Machine.execBle rel s
  | .bgt rel => Sys2Proof.Machine.execBgt rel s
  | .bra rel => Sys2Proof.Machine.execBra rel s
  | .jcsR rb => Sys2Proof.Machine.execJcsR rb s
  | .jccR rb => Sys2Proof.Machine.execJccR rb s
  | .jeqR rb => Sys2Proof.Machine.execJeqR rb s
  | .jneR rb => Sys2Proof.Machine.execJneR rb s
  | .jvsR rb => Sys2Proof.Machine.execJvsR rb s
  | .jvcR rb => Sys2Proof.Machine.execJvcR rb s
  | .jmiR rb => Sys2Proof.Machine.execJmiR rb s
  | .jplR rb => Sys2Proof.Machine.execJplR rb s
  | .jlsR rb => Sys2Proof.Machine.execJlsR rb s
  | .jhiR rb => Sys2Proof.Machine.execJhiR rb s
  | .jltR rb => Sys2Proof.Machine.execJltR rb s
  | .jgeR rb => Sys2Proof.Machine.execJgeR rb s
  | .jleR rb => Sys2Proof.Machine.execJleR rb s
  | .jgtR rb => Sys2Proof.Machine.execJgtR rb s
  | .jmpR rb => Sys2Proof.Machine.execJmpR rb s
  | .jcsA abs => Sys2Proof.Machine.execJcsA abs s
  | .jccA abs => Sys2Proof.Machine.execJccA abs s
  | .jeqA abs => Sys2Proof.Machine.execJeqA abs s
  | .jneA abs => Sys2Proof.Machine.execJneA abs s
  | .jvsA abs => Sys2Proof.Machine.execJvsA abs s
  | .jvcA abs => Sys2Proof.Machine.execJvcA abs s
  | .jmiA abs => Sys2Proof.Machine.execJmiA abs s
  | .jplA abs => Sys2Proof.Machine.execJplA abs s
  | .jlsA abs => Sys2Proof.Machine.execJlsA abs s
  | .jhiA abs => Sys2Proof.Machine.execJhiA abs s
  | .jltA abs => Sys2Proof.Machine.execJltA abs s
  | .jgeA abs => Sys2Proof.Machine.execJgeA abs s
  | .jleA abs => Sys2Proof.Machine.execJleA abs s
  | .jgtA abs => Sys2Proof.Machine.execJgtA abs s
  | .jmpA abs => Sys2Proof.Machine.execJmpA abs s
  | .jsrR rb => Sys2Proof.Machine.execJsrR rb s
  | .jsrA abs => Sys2Proof.Machine.execJsrA abs s
  | .ret => Sys2Proof.Machine.execRet s
  | .retCli => Sys2Proof.Machine.execRetCli s
  | .retSti => Sys2Proof.Machine.execRetSti s
  | .push rp => Sys2Proof.Machine.execPush rp s
  | .pop rp => Sys2Proof.Machine.execPop rp s
  | .pushFlag => Sys2Proof.Machine.execPushFlag s
  | .popFlag => Sys2Proof.Machine.execPopFlag s
  | .ldm ra rp disp => Sys2Proof.Machine.execLdm ra rp disp s
  | .stm rp disp ra => Sys2Proof.Machine.execStm rp disp ra s
  | .ldw ra rp disp => Sys2Proof.Machine.execLdw ra rp disp s
  | .stw rp disp ra => Sys2Proof.Machine.execStw rp disp ra s
  | .ldb ra rp disp => Sys2Proof.Machine.execLdb ra rp disp s
  | .stb rp disp ra => Sys2Proof.Machine.execStb rp disp ra s
  | .movR ra rb => Sys2Proof.Machine.execMovR ra rb s
  | .andR ra rb => Sys2Proof.Machine.execAndR ra rb s
  | .orR ra rb => Sys2Proof.Machine.execOrR ra rb s
  | .xorR ra rb => Sys2Proof.Machine.execXorR ra rb s
  | .addR ra rb => Sys2Proof.Machine.execAddR ra rb s
  | .adcR ra rb => Sys2Proof.Machine.execAdcR ra rb s
  | .subR ra rb => Sys2Proof.Machine.execSubR ra rb s
  | .sbcR ra rb => Sys2Proof.Machine.execSbcR ra rb s
  | .mltR ra rb => Sys2Proof.Machine.execMltR ra rb s
  | .mlhR ra rb => Sys2Proof.Machine.execMlhR ra rb s
  | .tstR ra rb => Sys2Proof.Machine.execTstR ra rb s
  | .cmpR ra rb => Sys2Proof.Machine.execCmpR ra rb s
  | .movI8 ra imm => Sys2Proof.Machine.execMovI8 ra imm s
  | .andI8 ra imm => Sys2Proof.Machine.execAndI8 ra imm s
  | .orI8 ra imm => Sys2Proof.Machine.execOrI8 ra imm s
  | .xorI8 ra imm => Sys2Proof.Machine.execXorI8 ra imm s
  | .addI8 ra imm => Sys2Proof.Machine.execAddI8 ra imm s
  | .adcI8 ra imm => Sys2Proof.Machine.execAdcI8 ra imm s
  | .subI8 ra imm => Sys2Proof.Machine.execSubI8 ra imm s
  | .sbcI8 ra imm => Sys2Proof.Machine.execSbcI8 ra imm s
  | .mltI8 ra imm => Sys2Proof.Machine.execMltI8 ra imm s
  | .mlhI8 ra imm => Sys2Proof.Machine.execMlhI8 ra imm s
  | .tstI8 ra imm => Sys2Proof.Machine.execTstI8 ra imm s
  | .cmpI8 ra imm => Sys2Proof.Machine.execCmpI8 ra imm s
  | .movI16 ra imm => Sys2Proof.Machine.execMovI16 ra imm s
  | .andI16 ra imm => Sys2Proof.Machine.execAndI16 ra imm s
  | .orI16 ra imm => Sys2Proof.Machine.execOrI16 ra imm s
  | .xorI16 ra imm => Sys2Proof.Machine.execXorI16 ra imm s
  | .addI16 ra imm => Sys2Proof.Machine.execAddI16 ra imm s
  | .adcI16 ra imm => Sys2Proof.Machine.execAdcI16 ra imm s
  | .subI16 ra imm => Sys2Proof.Machine.execSubI16 ra imm s
  | .sbcI16 ra imm => Sys2Proof.Machine.execSbcI16 ra imm s
  | .mltI16 ra imm => Sys2Proof.Machine.execMltI16 ra imm s
  | .mlhI16 ra imm => Sys2Proof.Machine.execMlhI16 ra imm s
  | .tstI16 ra imm => Sys2Proof.Machine.execTstI16 ra imm s
  | .cmpI16 ra imm => Sys2Proof.Machine.execCmpI16 ra imm s

end Sys2Proof.Machine
end

