-- ==== Sys2Proof/Machine/Timing.lean ====
section
/-! DEFINITION. The cycle counts of 70_reset_and_hazards.md (R232): timing only, no result depends on them (R233). -/

namespace Sys2Proof.Machine

/-- The cycle count of an instruction (R232). -/
def instrCycles : Instr → Nat
  | .nop | .clc | .stc | .clz | .stz
  | .cli | .sti => 1
  | .ret | .retCli | .retSti | .pushFlag | .popFlag => 2
  | .bcs _ | .bcc _ | .beq _ | .bne _ | .bvs _
  | .bvc _ | .bmi _ | .bpl _ | .bls _ | .bhi _
  | .blt _ | .bge _ | .ble _ | .bgt _ | .bra _ => 1
  | .jcsR _ | .jccR _ | .jeqR _ | .jneR _ | .jvsR _
  | .jvcR _ | .jmiR _ | .jplR _ | .jlsR _ | .jhiR _
  | .jltR _ | .jgeR _ | .jleR _ | .jgtR _ | .jmpR _ => 1
  | .jcsA _ | .jccA _ | .jeqA _ | .jneA _ | .jvsA _
  | .jvcA _ | .jmiA _ | .jplA _ | .jlsA _ | .jhiA _
  | .jltA _ | .jgeA _ | .jleA _ | .jgtA _ | .jmpA _ => 2
  | .jsrR _ => 2
  | .jsrA _ => 3
  | .push _ | .pop _ => 2
  | .ldm _ _ _ | .stm _ _ _ => 2
  | .ldw _ _ _ | .stw _ _ _ | .ldb _ _ _ | .stb _ _ _ => 3
  | .movR _ _ | .andR _ _ | .orR _ _ | .xorR _ _ | .addR _ _
  | .adcR _ _ | .subR _ _ | .sbcR _ _ | .mltR _ _ | .mlhR _ _
  | .tstR _ _ | .cmpR _ _ => 1
  | .movI8 _ _ | .andI8 _ _ | .orI8 _ _ | .xorI8 _ _ | .addI8 _ _
  | .adcI8 _ _ | .subI8 _ _ | .sbcI8 _ _ | .mltI8 _ _ | .mlhI8 _ _
  | .tstI8 _ _ | .cmpI8 _ _ => 1
  | .movI16 _ _ | .andI16 _ _ | .orI16 _ _ | .xorI16 _ _ | .addI16 _ _
  | .adcI16 _ _ | .subI16 _ _ | .sbcI16 _ _ | .mltI16 _ _ | .mlhI16 _ _
  | .tstI16 _ _ | .cmpI16 _ _ => 2

end Sys2Proof.Machine
end

