-- ==== Sys2Proof/Machine/Step.lean ====
section
/-! DEFINITION. One step: an exception taken at the coming instruction boundary, or one instruction
(R40, R194 to R196, R220). -/

namespace Sys2Proof.Machine

/-- The instruction the program text has at PC, executed, and its cycles counted (R233). -/
def State.runInstr (s : State) : Host.Outcome State Fault Refusal :=
  match s.fetch with
  | .error e => e.outcome
  | .ok i =>
    match exec i s with
    | .next t => .next (t.tick (instrCycles i))
    | .fault r => .fault r
    | .refused r => .refused r

/-- One step. The coming boundary is read first: a reset has priority over everything and drops the request
(R196), an accepted interrupt comes before the instruction at PC (R194, R195). -/
def step (s : State) : Host.Outcome State Fault Refusal :=
  if s.boundary.reset = true then finish s.passBoundary.takeReset id
  else match s.accepted s.boundary with
    | some v => finish (s.passBoundary.takeInterrupt v) id
    | none => s.passBoundary.runInstr

/-- `s` with the program text holding at PC the instruction the bits `w` stand for under the encoding `e`, and a
quiet boundary before it; where they stand for none the text has nothing at PC. -/
def State.withFetchWordBy (e : Encoding) (s : State) (nbits w : Nat) : State :=
  match decodeTableWordBy e nbits w with
  | some i => { s with prog := placeInstr s.prog s.pc i, inputs := Boundary.quiet :: s.inputs }
  | none => { s with prog := s.prog.filter fun d => !decide (d.pc = s.pc), inputs := Boundary.quiet :: s.inputs }

/-- The same under the uninterpreted encoding of the hardware. -/
def State.withFetchWord (s : State) (nbits w : Nat) : State := State.withFetchWordBy Config.enc s nbits w

end Sys2Proof.Machine
end

