-- ==== Sys2Proof/Safety.lean ====
section
/-! DEFINITION. The terms claims are stated in: the machine's invariant, safe runs and the end of a run, and what an
instruction may write (spec rules R12, R16, R35, R44, R67, D25). -/

namespace Sys2Proof.Machine

/-! ### The invariant and safe runs -/

/-- No byte of memory belongs to the program text, none lies outside `MEMMAP` (R37, R44). -/
def State.dataOnly (s : State) : Prop :=
  ∀ a : Word, s.inText a = true ∨ s.mapped a = false → s.mem.read a.toNat = none

/-- Memory is in canonical form, the program text is well-formed (R67), and memory holds data only. -/
def State.Inv (s : State) : Prop := s.mem.wf = true ∧ progWf s.prog = true ∧ s.dataOnly

/-- The step answers a next state. -/
def State.goesOn (s : State) : Prop := ∃ t, step s = .next t

/-- The first `n` steps neither fault nor are refused. -/
def State.safeFor : Nat → State → Prop
  | 0, _ => True
  | n + 1, s => ∃ t, step s = .next t ∧ State.safeFor n t

/-- `HALT` as D25 suggests it: PC is at a taken branch to itself, and no interrupt can leave it at this boundary. -/
def State.halted (s : State) : Bool :=
  match s.fetch with
  | .ok (.bra rel) =>
    s.holds .al && decide (toPc (s.branchTarget rel) = s.pc) && (!s.iflag || decide (s.boundary.irq = none))
  | _ => false

/-- Why a program may not access the byte at `a`, if it may not: it lies outside `MEMMAP` (R37), or in the program text
(R44). -/
def State.blocked (s : State) (a : Word) : Option Refusal :=
  if s.mapped a = false then some .outsideMemMap else if s.inText a = true then some .programText else none

/-! ### What stays -/

/-- The environment's inputs, the program text, the configuration and the cycle total are as before. -/
def KeepsEnv (s t : State) : Prop :=
  t.inputs = s.inputs ∧ t.prog = s.prog ∧ t.cfg = s.cfg ∧ t.cycles = s.cycles

/-- Every byte of memory reads as before. -/
def KeepsMem (s t : State) : Prop := ∀ a : Nat, t.mem.read a = s.mem.read a

/-- CF, ZF, VF and NF are as before, and no free value was drawn. -/
def KeepsAluFlags (s t : State) : Prop :=
  t.cf = s.cf ∧ t.zf = s.zf ∧ t.vf = s.vf ∧ t.nf = s.nf ∧ t.draws = s.draws

/-- All five flags are as before. -/
def KeepsFlags (s t : State) : Prop := KeepsAluFlags s t ∧ t.iflag = s.iflag

/-- Every register but those listed is as before. -/
def KeepsRegsBut (rs : List Reg) (s t : State) : Prop := ∀ r, r ∉ rs → t.reg r = s.reg r

/-! ### What is written -/

/-- The word `v` is stored in the two bytes `p` (lower address first) in the configured byte order, and every other
byte reads as before (R31, R32). -/
def StoresWord (p : Word × Word) (v : Word) (s t : State) : Prop :=
  ∀ a : Nat, t.mem.read a =
    if a = p.2.toNat then some (upperByte s.cfg.byteOrder v)
    else if a = p.1.toNat then some (lowerByte s.cfg.byteOrder v)
    else s.mem.read a

/-- The byte `b` is stored at `a0`, and every other byte reads as before (R30). -/
def StoresByte (a0 : Word) (b : Byte) (s t : State) : Prop :=
  ∀ a : Nat, t.mem.read a = if a = a0.toNat then some b else s.mem.read a

/-- The MEM16 access at `a` goes to the bytes `p`, both of which a program may access (R33, R37, R44). -/
def Accessible16 (s : State) (a : Word) (p : Word × Word) : Prop :=
  s.wordBytes a = .ok p ∧ s.access p.1 = .ok () ∧ s.access p.2 = .ok ()

/-- A MEM16 read at `a` finds the word `v`: both bytes may be accessed and hold values, and these join to `v` in the
configured byte order (R23, R31, R32). -/
def Holds16 (s : State) (a v : Word) : Prop :=
  ∃ p x y, Accessible16 s a p ∧ s.mem.read p.1.toNat = some x ∧ s.mem.read p.2.toNat = some y ∧
    v = joinBytes s.cfg.byteOrder x y

/-- The effect of an ALU instruction (R120, R122): `res` is the 16-bit result, written to `ra` if `writes`; `c` is
the value CF receives, `none` where it is undefined and a fresh free value is drawn; `w` is the word count. -/
def AluEffect (ra : Reg) (w : Nat) (res : Word) (c : Option Bool) (writes : Bool) (s t : State) : Prop :=
  (∀ r, t.reg r = if writes = true ∧ r = ra then res else s.reg r) ∧
  t.nf = res.getLsbD 15 ∧ (t.zf = true ↔ res = 0) ∧ t.vf = ((s.reg ra).getLsbD 15 ^^ res.getLsbD 15) ∧
  (∀ b, c = some b → t.cf = b ∧ t.draws = s.draws) ∧
  (c = none → t.cf = Config.freeBit s.draws ∧ t.draws = s.draws + 1) ∧
  t.iflag = s.iflag ∧ KeepsMem s t ∧ KeepsEnv s t ∧ t.pc = s.pc + BitVec.ofNat 15 w

/-- The registers an instruction may write (R10, R12): the destination of an ALU instruction or a load, the register
popped, and R15 for the stack instructions. -/
def destRegs : Instr → List Reg
  | .nop | .clc | .stc | .clz | .stz
  | .cli | .sti => []
  | .bcs _ | .bcc _ | .beq _ | .bne _ | .bvs _
  | .bvc _ | .bmi _ | .bpl _ | .bls _ | .bhi _
  | .blt _ | .bge _ | .ble _ | .bgt _ | .bra _
  | .jcsR _ | .jccR _ | .jeqR _ | .jneR _ | .jvsR _
  | .jvcR _ | .jmiR _ | .jplR _ | .jlsR _ | .jhiR _
  | .jltR _ | .jgeR _ | .jleR _ | .jgtR _ | .jmpR _
  | .jcsA _ | .jccA _ | .jeqA _ | .jneA _ | .jvsA _
  | .jvcA _ | .jmiA _ | .jplA _ | .jlsA _ | .jhiA _
  | .jltA _ | .jgeA _ | .jleA _ | .jgtA _ | .jmpA _ => []
  | .jsrR _ | .jsrA _ | .ret | .retCli | .retSti | .push _ | .pushFlag | .popFlag => [spReg]
  | .pop rp => [rp, spReg]
  | .ldm ra _ _ | .ldw ra _ _ | .ldb ra _ _ => [ra]
  | .stm _ _ _ | .stw _ _ _ | .stb _ _ _ => []
  | .movR ra _ | .andR ra _ | .orR ra _ | .xorR ra _ | .addR ra _
  | .adcR ra _ | .subR ra _ | .sbcR ra _ | .mltR ra _ | .mlhR ra _
  | .movI8 ra _ | .andI8 ra _ | .orI8 ra _ | .xorI8 ra _ | .addI8 ra _
  | .adcI8 ra _ | .subI8 ra _ | .sbcI8 ra _ | .mltI8 ra _ | .mlhI8 ra _
  | .movI16 ra _ | .andI16 ra _ | .orI16 ra _ | .xorI16 ra _ | .addI16 ra _
  | .adcI16 ra _ | .subI16 ra _ | .sbcI16 ra _ | .mltI16 ra _ | .mlhI16 ra _ => [ra]
  | .tstR _ _ | .tstI8 _ _ | .tstI16 _ _ | .cmpR _ _ | .cmpI8 _ _
  | .cmpI16 _ _ => []

/-- The instruction writes all four ALU flags: every ALU instruction and POP FLAG (R16). -/
def writesAluFlags : Instr → Bool
  | .nop | .clc | .stc | .clz | .stz
  | .cli | .sti => false
  | .bcs _ | .bcc _ | .beq _ | .bne _ | .bvs _
  | .bvc _ | .bmi _ | .bpl _ | .bls _ | .bhi _
  | .blt _ | .bge _ | .ble _ | .bgt _ | .bra _
  | .jcsR _ | .jccR _ | .jeqR _ | .jneR _ | .jvsR _
  | .jvcR _ | .jmiR _ | .jplR _ | .jlsR _ | .jhiR _
  | .jltR _ | .jgeR _ | .jleR _ | .jgtR _ | .jmpR _
  | .jcsA _ | .jccA _ | .jeqA _ | .jneA _ | .jvsA _
  | .jvcA _ | .jmiA _ | .jplA _ | .jlsA _ | .jhiA _
  | .jltA _ | .jgeA _ | .jleA _ | .jgtA _ | .jmpA _ => false
  | .jsrR _ | .jsrA _ | .ret | .retCli | .retSti | .push _ | .pushFlag | .pop _ => false
  | .popFlag => true
  | .ldm _ _ _ | .stm _ _ _ | .ldw _ _ _ | .stw _ _ _ | .ldb _ _ _ | .stb _ _ _ => false
  | .movR _ _ | .andR _ _ | .orR _ _ | .xorR _ _ | .addR _ _
  | .adcR _ _ | .subR _ _ | .sbcR _ _ | .mltR _ _ | .mlhR _ _
  | .tstR _ _ | .cmpR _ _
  | .movI8 _ _ | .andI8 _ _ | .orI8 _ _ | .xorI8 _ _ | .addI8 _ _
  | .adcI8 _ _ | .subI8 _ _ | .sbcI8 _ _ | .mltI8 _ _ | .mlhI8 _ _
  | .tstI8 _ _ | .cmpI8 _ _
  | .movI16 _ _ | .andI16 _ _ | .orI16 _ _ | .xorI16 _ _ | .addI16 _ _
  | .adcI16 _ _ | .subI16 _ _ | .sbcI16 _ _ | .mltI16 _ _ | .mlhI16 _ _
  | .tstI16 _ _ | .cmpI16 _ _ => true

/-- The bytes an instruction may store to (R35): the word at the new R15 for JSR, PUSH and PUSH FLAG, the word or
the byte at the effective address for STM, STW and STB, none for any other instruction. -/
def storedBytes (s : State) : Instr → List Word
  | .nop | .clc | .stc | .clz | .stz
  | .cli | .sti => []
  | .bcs _ | .bcc _ | .beq _ | .bne _ | .bvs _
  | .bvc _ | .bmi _ | .bpl _ | .bls _ | .bhi _
  | .blt _ | .bge _ | .ble _ | .bgt _ | .bra _
  | .jcsR _ | .jccR _ | .jeqR _ | .jneR _ | .jvsR _
  | .jvcR _ | .jmiR _ | .jplR _ | .jlsR _ | .jhiR _
  | .jltR _ | .jgeR _ | .jleR _ | .jgtR _ | .jmpR _
  | .jcsA _ | .jccA _ | .jeqA _ | .jneA _ | .jvsA _
  | .jvcA _ | .jmiA _ | .jplA _ | .jlsA _ | .jhiA _
  | .jltA _ | .jgeA _ | .jleA _ | .jgtA _ | .jmpA _ => []
  | .jsrR _ | .jsrA _ | .push _ | .pushFlag => wordList (s.sp - 2)
  | .ret | .retCli | .retSti | .popFlag | .pop _ => []
  | .ldm _ _ _ | .ldw _ _ _ | .ldb _ _ _ => []
  | .stm rp disp _ => wordList (s.effAddr rp disp)
  | .stw rp disp _ => wordList (s.effAddr rp disp)
  | .stb rp disp _ => [s.effAddr rp disp]
  | .movR _ _ | .andR _ _ | .orR _ _ | .xorR _ _ | .addR _ _
  | .adcR _ _ | .subR _ _ | .sbcR _ _ | .mltR _ _ | .mlhR _ _
  | .tstR _ _ | .cmpR _ _
  | .movI8 _ _ | .andI8 _ _ | .orI8 _ _ | .xorI8 _ _ | .addI8 _ _
  | .adcI8 _ _ | .subI8 _ _ | .sbcI8 _ _ | .mltI8 _ _ | .mlhI8 _ _
  | .tstI8 _ _ | .cmpI8 _ _
  | .movI16 _ _ | .andI16 _ _ | .orI16 _ _ | .xorI16 _ _ | .addI16 _ _
  | .adcI16 _ _ | .subI16 _ _ | .sbcI16 _ _ | .mltI16 _ _ | .mlhI16 _ _
  | .tstI16 _ _ | .cmpI16 _ _ => []
where
  /-- The two bytes of the MEM16 access at `a`; none where it is refused. -/
  wordList (a : Word) : List Word :=
    match s.wordBytes a with
    | .ok p => [p.1, p.2]
    | .error _ => []

end Sys2Proof.Machine
end

