-- ==== Sys2Proof/Certificates/Slice0/Obligations.lean ====
section
/-! DEFINITION. The statements for the provers, from the numbered rules of the spec. -/

open Sys2Proof Sys2Proof.Machine

/-- Every well-formed instruction form is read back from its operand fields, with every operand (R52 to R60). -/
def Obligations.FieldsDecodeBackToTheirInstruction : Prop :=
  ∀ i : Instr, i.wellFormed = true → decodeFields (fieldsOf i) = .ok i

/-- Whatever operand fields decode to is well-formed and has exactly those fields: no field value is lost (R52 to R60). -/
def Obligations.DecodedFieldsAreExactlyTheInstructions : Prop :=
  ∀ (f : Fields) (i : Instr), decodeFields f = .ok i → i.wellFormed = true ∧ fieldsOf i = f

/-- For every encoding that meets R67, the words of a well-formed form decode to it whatever words follow. R67 (1) to (3) and R62 (`Readable`) are enough, so it holds of every lawful encoding. -/
def Obligations.DecodeInvertsEncodeUnderEveryLawfulEncoding : Prop :=
  ∀ (e : Encoding), e.Readable → ∀ (i : Instr) (rest : List Word), i.wellFormed = true →
    decodeWords e (encode e i ++ rest) = .ok (i, rest)

/-- The same on bytes, in either byte order (R32); it too needs no more than `Readable`. -/
def Obligations.ByteDecodeInvertsEncodeInBothByteOrders : Prop :=
  ∀ (o : ByteOrder) (e : Encoding), e.Readable → ∀ (i : Instr) (rest : List Byte), i.wellFormed = true →
    decode o e (bytesOfWords o (encode e i) ++ rest) = .ok (i, rest)

/-- Under a lawful encoding the decoder answers only well-formed forms, and only on their own words (R62); `Readable` is enough. -/
def Obligations.DecodeRefusesWhatIsNoEncoding : Prop :=
  ∀ (e : Encoding), e.Readable → ∀ (ws rest : List Word) (i : Instr), decodeWords e ws = .ok (i, rest) →
    i.wellFormed = true ∧ ws = encode e i ++ rest

/-- Operand fields written out from R52 to R60, one or more of each format, decode to the form they stand for; register 15 in an {RP} position is refused. -/
def Obligations.FieldSamplesDecodeToTheirForms : Prop :=
  decodeFields (.plain .retSti) = .ok .retSti ∧
  decodeFields (.ccRel8 .ne 0xFD#8) = .ok (.bne (-6)) ∧
  decodeFields (.ccRel8 .al 0x80#8) = .ok (.bra (-256)) ∧
  decodeFields (.ccRb .al 3) = .ok (.jmpR 3) ∧
  decodeFields (.ccAbs15 .ne 0x1000#15) = .ok (.jneA 0x2000#16) ∧
  decodeFields (.rb 4) = .ok (.jsrR 4) ∧
  decodeFields (.abs15 0x7FFF#15) = .ok (.jsrA 0xFFFE#16) ∧
  decodeFields (.rp .push 3) = .ok (.push 3) ∧
  decodeFields (.rp .push 15) = .error .rpIsR15 ∧
  decodeFields (.raRpDisp4 .stm 7 2 0xF#4) = .ok (.stm 2 30 7) ∧
  decodeFields (.raRpDisp11 .ldw 0 3 0x400#11) = .ok (.ldw 0 3 (-1024)) ∧
  decodeFields (.raRb .add 1 2) = .ok (.addR 1 2) ∧
  decodeFields (.raImm8 .cmp 1 0xFF#8) = .ok (.cmpI8 1 255) ∧
  decodeFields (.raImm16 .mov 15 0x8000#16) = .ok (.movI16 15 0x8000#16)

/-- Where no exception is taken at the boundary and the program text has a well-formed instruction at PC, the step is that instruction, and its cycles are counted. Boundaries are log entries 14 and 16, the cycle counter 28. -/
def Obligations.StepRunsTheFetchedInstruction : Prop :=
  ∀ (s : State) (i : Instr), s.boundary.reset = false → (s.iflag = false ∨ s.boundary.irq = none) →
    findEntry s.prog s.pc = some i → i.wellFormed = true →
    (∀ t, exec i { s with inputs := s.inputs.tail } = .next t →
      step s = .next { t with cycles := t.cycles + instrCycles i }) ∧
    (∀ r, exec i { s with inputs := s.inputs.tail } = .fault r → step s = .fault r) ∧
    (∀ r, exec i { s with inputs := s.inputs.tail } = .refused r → step s = .refused r)

/-- The instruction a table word decodes to, placed for the fetch, is what the very next step executes. How a program comes to run is log entry 11. -/
def Obligations.StepRunsTheDecodedTableWord : Prop :=
  ∀ (e : Encoding) (s : State) (nbits w : Nat) (i : Instr), decodeTableWordBy e nbits w = some i →
    (∀ t, exec i { s with prog := placeInstr s.prog s.pc i } = .next t →
      step (State.withFetchWordBy e s nbits w) = .next { t with cycles := t.cycles + instrCycles i }) ∧
    (∀ r, exec i { s with prog := placeInstr s.prog s.pc i } = .fault r →
      step (State.withFetchWordBy e s nbits w) = .fault r) ∧
    (∀ r, exec i { s with prog := placeInstr s.prog s.pc i } = .refused r →
      step (State.withFetchWordBy e s nbits w) = .refused r)

/-- With no exception taken and no instruction at PC, or an ill-formed one, the step is refused by name (R44, R62). The spec's choice (D18, D21, log entries 13 and 24). -/
def Obligations.StepWithoutInstructionIsRefused : Prop :=
  ∀ s : State, s.boundary.reset = false → (s.iflag = false ∨ s.boundary.irq = none) →
    (findEntry s.prog s.pc = none → step s = .refused .noInstruction) ∧
    (∀ i, findEntry s.prog s.pc = some i → i.wellFormed = false → step s = .refused .illFormed)

/-- The RESET exception (R190): IF <- 0, PC from the word at RESET_VECTOR*2, nothing else; it is taken whatever else is presented, at every boundary that presents it. The slice 15:1 is the spec's decision D4 (log entry 17), a reset at any boundary D28 (log entry 15). -/
def Obligations.ResetExceptionLoadsPcFromItsVector : Prop :=
  ∀ (s : State) (v : Word), s.boundary.reset = true →
    Holds16 s (s.cfg.resetVector ++ 0#1) v →
    ∃ t, step s = .next t ∧ t.iflag = false ∧ t.pcAddr = v &&& 0xFFFE#16 ∧ (∀ r, t.reg r = s.reg r) ∧
      KeepsAluFlags s t ∧ KeepsMem s t ∧ t.prog = s.prog ∧ t.cfg = s.cfg ∧ t.inputs = s.inputs.tail ∧
      t.cycles = s.cycles + 2

/-- With a reset and a request at one boundary, the request is neither taken nor remembered (R196 (1)). The spec's decision D26 (log entry 15). -/
def Obligations.ResetHasPriorityOverAnInterrupt : Prop :=
  ∀ (s : State) (irq : Option (BitVec 15)) (later : List Boundary),
    step { s with inputs := { reset := true, irq := irq } :: later } =
      step { s with inputs := { reset := true, irq := none } :: later }

/-- The interrupt exception (R191, R194): with IF = 1 a request for vector v is taken; the return word is pushed, IF cleared, PC loaded from the vector. `y0` and `y1` are the bytes of the vector word once the push is done. Acceptance is the spec's D14 (log entry 14), the pushed bit D15 (log entry 9), the slice 15:1 D4 (log entry 17). -/
def Obligations.InterruptEntrySavesPcAndGoesToItsVector : Prop :=
  ∀ (s : State) (v : BitVec 15) (p : Word × Word) (y0 y1 : Byte),
    s.boundary = { reset := false, irq := some v } → s.iflag = true →
    Accessible16 s (s.sp - 2) p →
    let b := match s.cfg.intPushedIf with | .zero => false | .oldIf => true | .draw => Config.freeBit s.draws
    let pushed : Word := s.pcAddr + (if b = true then 1 else 0)
    let afterPush : Nat → Option Byte := fun n =>
      if n = p.2.toNat then some (upperByte s.cfg.byteOrder pushed)
      else if n = p.1.toNat then some (lowerByte s.cfg.byteOrder pushed) else s.mem.read n
    s.access (v ++ 0#1) = .ok () → s.access ((v ++ 0#1) + 1) = .ok () →
    afterPush (2 * v.toNat) = some y0 → afterPush (2 * v.toNat + 1) = some y1 →
    ∃ t, step s = .next t ∧ t.iflag = false ∧ t.pcAddr = joinBytes s.cfg.byteOrder y0 y1 &&& 0xFFFE#16 ∧
      t.sp = s.sp - 2 ∧ KeepsRegsBut [spReg] s t ∧ StoresWord p pushed s t ∧
      t.cf = s.cf ∧ t.zf = s.zf ∧ t.vf = s.vf ∧ t.nf = s.nf ∧
      t.prog = s.prog ∧ t.cfg = s.cfg ∧ t.inputs = s.inputs.tail ∧ t.cycles = s.cycles + 3 ∧
      t.draws = s.draws + (if s.cfg.intPushedIf = .draw then 1 else 0)

/-- With IF = 0 no interrupt exception is taken: the step does not depend on the request (R194). The polarity of IF is the spec's D14 (log entry 14). -/
def Obligations.InterruptIsMaskedByIfZero : Prop :=
  ∀ (s : State) (irq : Option (BitVec 15)) (later : List Boundary), s.iflag = false →
    step { s with inputs := { reset := false, irq := irq } :: later } =
      step { s with inputs := Boundary.quiet :: later }

/-- While IF = 0, only STI and RET STI set it: no other step, an exception included, leaves IF = 1 (R199, R16). The polarity of IF is the spec's D14 (log entry 14). -/
def Obligations.FromIfZeroOnlyStiAndRetStiLeadToIfOne : Prop :=
  ∀ s t : State, s.iflag = false → step s = .next t → findEntry s.prog s.pc ≠ some .sti →
    findEntry s.prog s.pc ≠ some .retSti → t.iflag = false

/-- Interrupt entry followed by RET STI resumes exactly where the program was: PC, R0 to R15, IF and the ALU flags (R195, R198, R199). That an interrupt is taken at IF = 1, so that RET STI restores IF, is the spec's D14 (log entry 14). -/
def Obligations.RetStiResumesTheInterruptedProgram : Prop :=
  ∀ (s t : State) (v : BitVec 15), s.iflag = true → s.takeInterrupt v = .ok t →
    ∃ u, exec .retSti t = .next u ∧ u.pc = s.pc ∧ (∀ r, u.reg r = s.reg r) ∧ u.iflag = true ∧
      u.cf = s.cf ∧ u.zf = s.zf ∧ u.vf = s.vf ∧ u.nf = s.nf ∧ KeepsMem t u

/-- NOP, CLC, STC, CLZ, STZ (R70 to R74): one constant flag and PC, nothing else. -/
def Obligations.SystemControlWritesAtMostOneFlag : Prop :=
  ∀ s : State,
    exec .nop s = .next { s with pc := s.pc + 1 } ∧
    exec .clc s = .next { s with pc := s.pc + 1, cf := false } ∧
    exec .stc s = .next { s with pc := s.pc + 1, cf := true } ∧
    exec .clz s = .next { s with pc := s.pc + 1, zf := false } ∧
    exec .stz s = .next { s with pc := s.pc + 1, zf := true }

/-- CLI and STI (R75, R76): IF and PC, nothing else; in force at the very next boundary (D27). The boundary is the spec's decision D27 (log entry 22), acceptance D14 (log entry 14). -/
def Obligations.CliAndStiMaskAndUnmaskAtTheNextBoundary : Prop :=
  ∀ s : State,
    (∃ t, exec .cli s = .next t ∧ t = { s with pc := s.pc + 1, iflag := false } ∧ ∀ b, t.accepted b = none) ∧
    (∃ t, exec .sti s = .next t ∧ t = { s with pc := s.pc + 1, iflag := true } ∧ ∀ b, t.accepted b = b.irq)

/-- B{CC} {REL8} (R81): all fifteen codes. The base is the parameter REL_BASE (D2, log entry 2), the wrap D5 (log entry 18), COND any table (D8, log entry 6). -/
def Obligations.BranchesGoToBasePlusRel8WhenTheConditionHolds : Prop :=
  ∀ (s : State) (rel : Int), relOk rel = true →
    ∀ q ∈ ([(.bcs rel, .cs), (.bcc rel, .cc), (.beq rel, .eq), (.bne rel, .ne),
      (.bvs rel, .vs), (.bvc rel, .vc), (.bmi rel, .mi), (.bpl rel, .pl),
      (.bls rel, .ls), (.bhi rel, .hi), (.blt rel, .lt), (.bge rel, .ge),
      (.ble rel, .le), (.bgt rel, .gt), (.bra rel, .al)] : List (Instr × Cond)),
    ∃ t, exec q.1 s = .next t ∧ t = { s with pc := t.pc } ∧
      t.pcAddr = if condHolds s.cfg.cond q.2 s.cf s.zf s.vf s.nf = true
        then (match s.cfg.relBase with | .next => s.pcAddr + 2 | .self => s.pcAddr) + BitVec.ofInt 16 rel
        else s.pcAddr + 2

/-- J{CC} {RB} (R82): all fifteen codes. That bit 0 is dropped is the spec's decision D4 (log entry 17). -/
def Obligations.RegisterJumpsGoToTheRegisterWhenTheConditionHolds : Prop :=
  ∀ (s : State) (rb : Reg),
    ∀ q ∈ ([(.jcsR rb, .cs), (.jccR rb, .cc), (.jeqR rb, .eq), (.jneR rb, .ne),
      (.jvsR rb, .vs), (.jvcR rb, .vc), (.jmiR rb, .mi), (.jplR rb, .pl),
      (.jlsR rb, .ls), (.jhiR rb, .hi), (.jltR rb, .lt), (.jgeR rb, .ge),
      (.jleR rb, .le), (.jgtR rb, .gt), (.jmpR rb, .al)] : List (Instr × Cond)),
    ∃ t, exec q.1 s = .next t ∧ t = { s with pc := t.pc } ∧
      t.pcAddr = if condHolds s.cfg.cond q.2 s.cf s.zf s.vf s.nf = true
        then s.reg rb &&& 0xFFFE#16 else s.pcAddr + 2

/-- J{CC} {ABS15} (R83): all fifteen codes. -/
def Obligations.AddressJumpsGoToTheAddressWhenTheConditionHolds : Prop :=
  ∀ (s : State) (abs : Word), absOk abs = true →
    ∀ q ∈ ([(.jcsA abs, .cs), (.jccA abs, .cc), (.jeqA abs, .eq), (.jneA abs, .ne),
      (.jvsA abs, .vs), (.jvcA abs, .vc), (.jmiA abs, .mi), (.jplA abs, .pl),
      (.jlsA abs, .ls), (.jhiA abs, .hi), (.jltA abs, .lt), (.jgeA abs, .ge),
      (.jleA abs, .le), (.jgtA abs, .gt), (.jmpA abs, .al)] : List (Instr × Cond)),
    ∃ t, exec q.1 s = .next t ∧ t = { s with pc := t.pc } ∧
      t.pcAddr = if condHolds s.cfg.cond q.2 s.cf s.zf s.vf s.nf = true then abs else s.pcAddr + 4

/-- The default COND table the spec proposes (R80); a default, not a claim about the hardware (log entry 6). -/
def Obligations.DefaultConditionTableTestsTheFlagsR80Lists : Prop :=
  ∀ cf zf vf nf : Bool,
    (condHolds defaultCondTable .cs cf zf vf nf = true ↔ cf = true) ∧
    (condHolds defaultCondTable .cc cf zf vf nf = true ↔ cf = false) ∧
    (condHolds defaultCondTable .eq cf zf vf nf = true ↔ zf = true) ∧
    (condHolds defaultCondTable .ne cf zf vf nf = true ↔ zf = false) ∧
    (condHolds defaultCondTable .vs cf zf vf nf = true ↔ vf = true) ∧
    (condHolds defaultCondTable .vc cf zf vf nf = true ↔ vf = false) ∧
    (condHolds defaultCondTable .mi cf zf vf nf = true ↔ nf = true) ∧
    (condHolds defaultCondTable .pl cf zf vf nf = true ↔ nf = false) ∧
    (condHolds defaultCondTable .ls cf zf vf nf = true ↔ cf = false ∨ zf = true) ∧
    (condHolds defaultCondTable .hi cf zf vf nf = true ↔ cf = true ∧ zf = false) ∧
    (condHolds defaultCondTable .lt cf zf vf nf = true ↔ nf ≠ vf) ∧
    (condHolds defaultCondTable .ge cf zf vf nf = true ↔ nf = vf) ∧
    (condHolds defaultCondTable .le cf zf vf nf = true ↔ zf = true ∨ nf ≠ vf) ∧
    (condHolds defaultCondTable .gt cf zf vf nf = true ↔ zf = false ∧ nf = vf) ∧
    condHolds defaultCondTable .al cf zf vf nf = true

/-- JSR {RB} with RB other than R15, and JSR {ABS15} (R84, R85). -/
def Obligations.CallsPushTheReturnWordAndJump : Prop :=
  ∀ (s : State) (rb : Reg) (abs : Word) (p : Word × Word), rb ≠ spReg → absOk abs = true →
    Accessible16 s (s.sp - 2) p →
    ∀ q ∈ ([(.jsrR rb, s.reg rb &&& 0xFFFE#16, 2), (.jsrA abs, abs, 4)] : List (Instr × Word × Word)),
    ∃ t, exec q.1 s = .next t ∧ t.sp = s.sp - 2 ∧ KeepsRegsBut [spReg] s t ∧ t.pcAddr = q.2.1 ∧
      StoresWord p (s.pcAddr + q.2.2 + (if s.iflag = true then 1 else 0)) s t ∧ KeepsFlags s t ∧ KeepsEnv s t

/-- `JSR R15` is refused (R84 (6), U3, D24). The spec's choice (log entry 23). -/
def Obligations.JsrThroughR15IsRefused : Prop :=
  ∀ s : State, exec (.jsrR spReg) s = .refused .jsrThroughSp

/-- RET, RET CLI, RET STI (R86 to R88): bit 0 of the word is discarded, IF is kept, cleared or set. -/
def Obligations.ReturnsPopTheReturnAddress : Prop :=
  ∀ (s : State) (v : Word), Holds16 s s.sp v →
    ∀ q ∈ ([(.ret, s.iflag), (.retCli, false), (.retSti, true)] : List (Instr × Bool)),
    ∃ t, exec q.1 s = .next t ∧ t.pcAddr = v &&& 0xFFFE#16 ∧ t.sp = s.sp + 2 ∧ KeepsRegsBut [spReg] s t ∧
      t.iflag = q.2 ∧ KeepsAluFlags s t ∧ KeepsMem s t ∧ KeepsEnv s t

/-- A call followed at once by RET comes back to the instruction after it with R15 as before (R104, R86). -/
def Obligations.ReturnAfterCallRestoresPcAndSp : Prop :=
  ∀ (s t : State) (i : Instr) (n : Nat), ((∃ rb, i = .jsrR rb) ∧ n = 1 ∨ (∃ abs, i = .jsrA abs) ∧ n = 2) →
    exec i s = .next t →
    ∃ u, exec .ret t = .next u ∧ u.pc = s.pc + BitVec.ofNat 15 n ∧ (∀ r, u.reg r = s.reg r) ∧ KeepsFlags s u ∧ KeepsMem t u

/-- PUSH {RP} (R100). -/
def Obligations.PushStoresTheRegisterBelowTheStackPointer : Prop :=
  ∀ (s : State) (rp : Reg) (p : Word × Word), rp ≠ spReg → Accessible16 s (s.sp - 2) p →
    ∃ t, exec (.push rp) s = .next t ∧ t.sp = s.sp - 2 ∧ KeepsRegsBut [spReg] s t ∧ StoresWord p (s.reg rp) s t ∧
      KeepsFlags s t ∧ KeepsEnv s t ∧ t.pc = s.pc + 1

/-- POP {RP} (R101). -/
def Obligations.PopLoadsTheRegisterFromTheStack : Prop :=
  ∀ (s : State) (rp : Reg) (v : Word), rp ≠ spReg → Holds16 s s.sp v →
    ∃ t, exec (.pop rp) s = .next t ∧ t.reg rp = v ∧ t.sp = s.sp + 2 ∧ KeepsRegsBut [rp, spReg] s t ∧
      KeepsFlags s t ∧ KeepsMem s t ∧ KeepsEnv s t ∧ t.pc = s.pc + 1

/-- POP directly after PUSH restores the register and R15 (R101 (1)). -/
def Obligations.PopAfterPushRestoresRegisterAndSp : Prop :=
  ∀ (s t : State) (rp : Reg), rp ≠ spReg → exec (.push rp) s = .next t →
    ∃ u, exec (.pop rp) t = .next u ∧ (∀ r, u.reg r = s.reg r) ∧ KeepsFlags s u ∧ KeepsMem t u

/-- PUSH FLAG (R102): the word is 16*IF + 8*NF + 4*VF + 2*ZF + CF. -/
def Obligations.PushFlagStoresTheFlagWord : Prop :=
  ∀ (s : State) (p : Word × Word), Accessible16 s (s.sp - 2) p →
    ∃ t, exec .pushFlag s = .next t ∧ t.sp = s.sp - 2 ∧ KeepsRegsBut [spReg] s t ∧
      StoresWord p (BitVec.ofNat 16 (16 * s.iflag.toNat + 8 * s.nf.toNat + 4 * s.vf.toNat + 2 * s.zf.toNat + s.cf.toNat)) s t ∧
      KeepsFlags s t ∧ KeepsEnv s t ∧ t.pc = s.pc + 1

/-- POP FLAG (R103): NF, VF, ZF, CF from bits 3 to 0; IF is not written. -/
def Obligations.PopFlagLoadsFourFlagsAndLeavesIf : Prop :=
  ∀ (s : State) (v : Word), Holds16 s s.sp v →
    ∃ t, exec .popFlag s = .next t ∧ t.nf = v.getLsbD 3 ∧ t.vf = v.getLsbD 2 ∧ t.zf = v.getLsbD 1 ∧
      t.cf = v.getLsbD 0 ∧ t.iflag = s.iflag ∧ t.sp = s.sp + 2 ∧ KeepsRegsBut [spReg] s t ∧ KeepsMem s t ∧
      KeepsEnv s t ∧ t.draws = s.draws ∧ t.pc = s.pc + 1

/-- POP FLAG after PUSH FLAG restores the four ALU flags and R15 (R103 (1)). -/
def Obligations.PopFlagAfterPushFlagRestoresTheFlags : Prop :=
  ∀ s t : State, exec .pushFlag s = .next t →
    ∃ u, exec .popFlag t = .next u ∧ KeepsFlags s u ∧ (∀ r, u.reg r = s.reg r) ∧ KeepsMem t u

/-- LDM and LDW (R110, R112, R116). -/
def Obligations.WordLoadsReadTheEffectiveAddress : Prop :=
  ∀ (s : State) (ra rp : Reg) (d4 : Nat) (d11 : Int) (v : Word), rp ≠ spReg → disp4Ok d4 = true → disp11Ok d11 = true →
    ∀ q ∈ ([(.ldm ra rp d4, s.reg rp + BitVec.ofNat 16 d4, 1), (.ldw ra rp d11, s.reg rp + BitVec.ofInt 16 d11, 2)] :
      List (Instr × Word × Nat)), Holds16 s q.2.1 v →
    ∃ t, exec q.1 s = .next t ∧ t.reg ra = v ∧ KeepsRegsBut [ra] s t ∧ KeepsFlags s t ∧ KeepsMem s t ∧ KeepsEnv s t ∧
      t.pc = s.pc + BitVec.ofNat 15 q.2.2

/-- STM and STW (R111, R113, R116). -/
def Obligations.WordStoresWriteTheEffectiveAddress : Prop :=
  ∀ (s : State) (ra rp : Reg) (d4 : Nat) (d11 : Int) (p : Word × Word), rp ≠ spReg → disp4Ok d4 = true →
    disp11Ok d11 = true →
    ∀ q ∈ ([(.stm rp d4 ra, s.reg rp + BitVec.ofNat 16 d4, 1), (.stw rp d11 ra, s.reg rp + BitVec.ofInt 16 d11, 2)] :
      List (Instr × Word × Nat)), Accessible16 s q.2.1 p →
    ∃ t, exec q.1 s = .next t ∧ StoresWord p (s.reg ra) s t ∧ KeepsRegsBut [] s t ∧ KeepsFlags s t ∧ KeepsEnv s t ∧
      t.pc = s.pc + BitVec.ofNat 15 q.2.2

/-- LDB (R114, R116): the high byte of RA keeps its value. -/
def Obligations.LoadByteReplacesTheLowByteOnly : Prop :=
  ∀ (s : State) (ra rp : Reg) (d : Int) (b : Byte), rp ≠ spReg → disp11Ok d = true →
    s.access (s.reg rp + BitVec.ofInt 16 d) = .ok () →
    s.mem.read (s.reg rp + BitVec.ofInt 16 d).toNat = some b →
    ∃ t, exec (.ldb ra rp d) s = .next t ∧
      (t.reg ra).toNat = 256 * ((s.reg ra).toNat / 256) + b.toNat ∧ KeepsRegsBut [ra] s t ∧ KeepsFlags s t ∧
      KeepsMem s t ∧ KeepsEnv s t ∧ t.pc = s.pc + 2

/-- STB (R115, R116). -/
def Obligations.StoreByteWritesOneByteOnly : Prop :=
  ∀ (s : State) (ra rp : Reg) (d : Int), rp ≠ spReg → disp11Ok d = true →
    s.access (s.reg rp + BitVec.ofInt 16 d) = .ok () →
    ∃ t, exec (.stb rp d ra) s = .next t ∧
      StoresByte (s.reg rp + BitVec.ofInt 16 d) (BitVec.ofNat 8 (s.reg ra).toNat) s t ∧ KeepsRegsBut [] s t ∧
      KeepsFlags s t ∧ KeepsEnv s t ∧ t.pc = s.pc + 2

/-- A word is read from its two bytes, a word written at an even address reads back, and no other byte changes (R31). -/
def Obligations.WordReadAfterWriteAtAnEvenAddress : Prop :=
  ∀ (s : State) (a v : Word), a.toNat % 2 = 0 →
    (s.read16 a = .ok v ↔ ∃ x y, s.read8 a = .ok x ∧ s.read8 (a + 1) = .ok y ∧ v = joinBytes s.cfg.byteOrder x y) ∧
    ∀ t, s.write16 a v = .ok t → t.read16 a = .ok v ∧
      ∀ n : Nat, n ≠ a.toNat → n ≠ a.toNat + 1 → t.mem.read n = s.mem.read n

/-- The value of a word and the values of its two bytes, for both byte orders (R32). -/
def Obligations.ByteOrderSaysWhichByteIsTheHighHalf : Prop :=
  ∀ (s : State) (a v : Word) (x y : Byte), a.toNat % 2 = 0 → s.read16 a = .ok v →
    s.read8 a = .ok x → s.read8 (a + 1) = .ok y →
    (s.cfg.byteOrder = .little → v.toNat = 256 * y.toNat + x.toNat) ∧
    (s.cfg.byteOrder = .big → v.toNat = 256 * x.toNat + y.toNat)

/-- Under MISALIGNED16 = refuse, every instruction whose MEM16 access is at an odd address is refused, and so is the entry of an interrupt (R33, R191, U5). The behaviours of MISALIGNED16 are the spec's (D7, log entry 5). -/
def Obligations.MisalignedWordAccessIsRefusedUnderRefuse : Prop :=
  ∀ s : State, s.cfg.misaligned16 = .refuse → ∀ (ra rp : Reg) (rq : Reg) (d4 : Nat) (d11 : Int) (abs : Word), rq ≠ spReg →
    ((s.reg rp + BitVec.ofNat 16 d4).toNat % 2 = 1 →
      exec (.ldm ra rp d4) s = .refused .misaligned ∧ exec (.stm rp d4 ra) s = .refused .misaligned) ∧
    ((s.reg rp + BitVec.ofInt 16 d11).toNat % 2 = 1 →
      exec (.ldw ra rp d11) s = .refused .misaligned ∧ exec (.stw rp d11 ra) s = .refused .misaligned) ∧
    (s.sp.toNat % 2 = 1 → ∀ i ∈ ([.jsrR rq, .jsrA abs, .ret, .retCli, .retSti, .push rq, .pop rq, .pushFlag, .popFlag] :
      List Instr), exec i s = .refused .misaligned) ∧
    (s.sp.toNat % 2 = 1 → ∀ v : BitVec 15, s.boundary = { reset := false, irq := some v } → s.iflag = true →
      step s = .refused .misaligned)

/-- At an odd address, ignore_bit0 accesses the word at a & 0xFFFE and split the bytes a and a+1 mod 2^16 (R33). The behaviours of MISALIGNED16 are the spec's (D7); that under split the byte at a is the one R32 calls lower is the model's choice (log entry 5). -/
def Obligations.MisalignedWordAccessUnderTheOtherParameters : Prop :=
  ∀ (s : State) (a : Word), a.toNat % 2 = 1 →
    (s.cfg.misaligned16 = .ignoreBit0 → s.read16 a = s.read16 (a - 1) ∧ ∀ v, s.write16 a v = s.write16 (a - 1) v) ∧
    (s.cfg.misaligned16 = .split → ∀ v t, s.write16 a v = .ok t → t.read16 a = .ok v ∧
      StoresWord (a, a + 1) v s t)

/-- A store to a byte outside MEMMAP or in the program text is refused: every instruction that stores, and the push of an interrupt (R35, R37, R44, R191). That the model refuses is the spec's choice (D21, D23, log entries 13 and 26); which ground is named where both bytes have one is the model's (log entry 5). -/
def Obligations.StoreOutsideMemMapOrInTextIsRefused : Prop :=
  ∀ (s : State) (a : Word) (ra rp rq : Reg) (d4 : Nat) (d11 : Int) (abs : Word) (r : Refusal), rq ≠ spReg →
    (s.reg rp + BitVec.ofInt 16 d11 = a → s.blocked a = some r → exec (.stb rp d11 ra) s = .refused r) ∧
    ∀ p : Word × Word, s.wordBytes a = .ok p →
      (s.blocked p.1 = some r ∨ s.blocked p.1 = none ∧ s.blocked p.2 = some r) →
      (∀ v, s.write16 a v = .error (.refused r)) ∧
      (s.reg rp + BitVec.ofNat 16 d4 = a → exec (.stm rp d4 ra) s = .refused r) ∧
      (s.reg rp + BitVec.ofInt 16 d11 = a → exec (.stw rp d11 ra) s = .refused r) ∧
      (s.sp - 2 = a →
        (∀ i ∈ ([.push rq, .pushFlag, .jsrR rq, .jsrA abs] : List Instr), exec i s = .refused r) ∧
        ∀ v : BitVec 15, s.boundary = { reset := false, irq := some v } → s.iflag = true → step s = .refused r)

/-- A read of bytes that may all be accessed, one of which nothing has written, faults: the loads, POP, POP FLAG, the returns and the vector reads of both exceptions (R23, R35, U7). That it is a fault is the spec's choice (D17, log entry 12). -/
def Obligations.ReadOfAValuelessByteFaults : Prop :=
  ∀ (s : State) (ra rp : Reg) (d4 : Nat) (d11 : Int),
    (s.access (s.reg rp + BitVec.ofInt 16 d11) = .ok () →
      s.mem.read (s.reg rp + BitVec.ofInt 16 d11).toNat = none → exec (.ldb ra rp d11) s = .fault .valuelessByte) ∧
    (∀ (a : Word) (p : Word × Word), Accessible16 s a p →
      s.mem.read p.1.toNat = none ∨ s.mem.read p.2.toNat = none →
      s.read16 a = .error (.fault .valuelessByte) ∧
      (s.reg rp + BitVec.ofNat 16 d4 = a → exec (.ldm ra rp d4) s = .fault .valuelessByte) ∧
      (s.reg rp + BitVec.ofInt 16 d11 = a → exec (.ldw ra rp d11) s = .fault .valuelessByte) ∧
      (s.sp = a → ∀ i ∈ ([.pop rp, .popFlag, .ret, .retCli, .retSti] : List Instr),
        exec i s = .fault .valuelessByte) ∧
      (s.cfg.resetVector ++ 0#1 = a → s.boundary.reset = true → step s = .fault .valuelessByte)) ∧
    ∀ (v : BitVec 15) (p q : Word × Word), s.boundary = { reset := false, irq := some v } → s.iflag = true →
      Accessible16 s (s.sp - 2) q → Accessible16 s (v ++ 0#1) p →
      (∃ b, (b = p.1 ∨ b = p.2) ∧ s.mem.read b.toNat = none ∧ b ≠ q.1 ∧ b ≠ q.2) →
      step s = .fault .valuelessByte

/-- MOV in its three forms (R123, R141, R153); CF receives a fresh free value. That CF is undefined after MOV is the spec's decision D10 (log entry 8). -/
def Obligations.MovMovesAndSetsFlags : Prop :=
  ∀ (s : State) (ra rb : Reg) (imm : Nat) (k : Word), imm ≤ 255 →
    (∀ q ∈ ([(.movR ra rb, s.reg rb, 1), (.movI8 ra imm, BitVec.ofNat 16 imm, 1), (.movI16 ra k, k, 2)] :
      List (Instr × Word × Nat)), ∃ t, exec q.1 s = .next t ∧
      AluEffect ra q.2.2 (q.2.1) (none) true s t)

/-- AND and TST in their three forms (R124, R133, R142, R151, R161, R170). The undefined CF is a free value (log entry 8). -/
def Obligations.AndAndTstCombineBitwise : Prop :=
  ∀ (s : State) (ra rb : Reg) (imm : Nat) (k : Word), imm ≤ 255 →
    (∀ q ∈ ([(.andR ra rb, s.reg rb, 1), (.andI8 ra imm, BitVec.ofNat 16 imm, 1), (.andI16 ra k, k, 2)] :
      List (Instr × Word × Nat)), ∃ t, exec q.1 s = .next t ∧
      AluEffect ra q.2.2 (s.reg ra &&& q.2.1) (none) true s t) ∧
    (∀ q ∈ ([(.tstR ra rb, s.reg rb, 1), (.tstI8 ra imm, BitVec.ofNat 16 imm, 1), (.tstI16 ra k, k, 2)] :
      List (Instr × Word × Nat)), ∃ t, exec q.1 s = .next t ∧
      AluEffect ra q.2.2 (s.reg ra &&& q.2.1) (none) false s t)

/-- OR and XOR in their three forms (R125, R126, R143, R144, R162, R163). The undefined CF is a free value (log entry 8). -/
def Obligations.OrAndXorCombineBitwise : Prop :=
  ∀ (s : State) (ra rb : Reg) (imm : Nat) (k : Word), imm ≤ 255 →
    (∀ q ∈ ([(.orR ra rb, s.reg rb, 1), (.orI8 ra imm, BitVec.ofNat 16 imm, 1), (.orI16 ra k, k, 2)] :
      List (Instr × Word × Nat)), ∃ t, exec q.1 s = .next t ∧
      AluEffect ra q.2.2 (s.reg ra ||| q.2.1) (none) true s t) ∧
    (∀ q ∈ ([(.xorR ra rb, s.reg rb, 1), (.xorI8 ra imm, BitVec.ofNat 16 imm, 1), (.xorI16 ra k, k, 2)] :
      List (Instr × Word × Nat)), ∃ t, exec q.1 s = .next t ∧
      AluEffect ra q.2.2 (s.reg ra ^^^ q.2.1) (none) true s t)

/-- ADD and ADC in their three forms (R127, R128, R145, R146, R164, R165). -/
def Obligations.AddAndAdcAddWithCarryOut : Prop :=
  ∀ (s : State) (ra rb : Reg) (imm : Nat) (k : Word), imm ≤ 255 →
    (∀ q ∈ ([(.addR ra rb, s.reg rb, 1), (.addI8 ra imm, BitVec.ofNat 16 imm, 1), (.addI16 ra k, k, 2)] :
      List (Instr × Word × Nat)), ∃ t, exec q.1 s = .next t ∧
      AluEffect ra q.2.2 (s.reg ra + q.2.1) (some (decide (65536 ≤ (s.reg ra).toNat + q.2.1.toNat))) true s t) ∧
    (∀ q ∈ ([(.adcR ra rb, s.reg rb, 1), (.adcI8 ra imm, BitVec.ofNat 16 imm, 1), (.adcI16 ra k, k, 2)] :
      List (Instr × Word × Nat)), ∃ t, exec q.1 s = .next t ∧
      AluEffect ra q.2.2 (s.reg ra + q.2.1 + BitVec.ofNat 16 s.cf.toNat) (some (decide (65536 ≤ (s.reg ra).toNat + q.2.1.toNat + s.cf.toNat))) true s t)

/-- SUB, SBC and CMP in their three forms (R129, R130, R134, R147, R148, R152, R166, R167, R171). The borrow reading is R129's own; see also log entry 21. -/
def Obligations.SubSbcAndCmpSubtractWithBorrow : Prop :=
  ∀ (s : State) (ra rb : Reg) (imm : Nat) (k : Word), imm ≤ 255 →
    (∀ q ∈ ([(.subR ra rb, s.reg rb, 1), (.subI8 ra imm, BitVec.ofNat 16 imm, 1), (.subI16 ra k, k, 2)] :
      List (Instr × Word × Nat)), ∃ t, exec q.1 s = .next t ∧
      AluEffect ra q.2.2 (s.reg ra - q.2.1) (some (decide ((s.reg ra).toNat < q.2.1.toNat))) true s t) ∧
    (∀ q ∈ ([(.sbcR ra rb, s.reg rb, 1), (.sbcI8 ra imm, BitVec.ofNat 16 imm, 1), (.sbcI16 ra k, k, 2)] :
      List (Instr × Word × Nat)), ∃ t, exec q.1 s = .next t ∧
      AluEffect ra q.2.2 (s.reg ra - q.2.1 - BitVec.ofNat 16 s.cf.toNat) (some (decide ((s.reg ra).toNat < q.2.1.toNat + s.cf.toNat))) true s t) ∧
    (∀ q ∈ ([(.cmpR ra rb, s.reg rb, 1), (.cmpI8 ra imm, BitVec.ofNat 16 imm, 1), (.cmpI16 ra k, k, 2)] :
      List (Instr × Word × Nat)), ∃ t, exec q.1 s = .next t ∧
      AluEffect ra q.2.2 (s.reg ra - q.2.1) (some (decide ((s.reg ra).toNat < q.2.1.toNat))) false s t)

/-- MLT in its three forms (R131, R149, R168): the result does not depend on MUL_SIGNED, CF is bit 16 of the product. -/
def Obligations.MltKeepsTheLowHalfOfTheProduct : Prop :=
  ∀ (s : State) (ra rb : Reg) (imm : Nat) (k : Word), imm ≤ 255 →
    (∀ q ∈ ([(.mltR ra rb, s.reg rb, 1), (.mltI8 ra imm, BitVec.ofNat 16 imm, 1), (.mltI16 ra k, k, 2)] :
      List (Instr × Word × Nat)), ∃ t, exec q.1 s = .next t ∧
      AluEffect ra q.2.2 (s.reg ra * q.2.1) (some (if s.cfg.mulSigned = true
          then decide (((s.reg ra).toInt * q.2.1.toInt / 65536) % 2 = 1)
          else decide (((s.reg ra).toNat * q.2.1.toNat / 65536) % 2 = 1))) true s t)

/-- MLH in its three forms (R132, R150, R169): floor of the product by 2^16, signed or not by MUL_SIGNED; CF by MLH_CF. Both are parameters (D11, log entry 7). -/
def Obligations.MlhKeepsTheHighHalfOfTheProduct : Prop :=
  ∀ (s : State) (ra rb : Reg) (imm : Nat) (k : Word), imm ≤ 255 →
    (∀ q ∈ ([(.mlhR ra rb, s.reg rb, 1), (.mlhI8 ra imm, BitVec.ofNat 16 imm, 1), (.mlhI16 ra k, k, 2)] :
      List (Instr × Word × Nat)), ∃ t, exec q.1 s = .next t ∧
      AluEffect ra q.2.2 (if s.cfg.mulSigned = true
          then BitVec.ofInt 16 ((s.reg ra).toInt * q.2.1.toInt / 65536)
          else BitVec.ofNat 16 ((s.reg ra).toNat * q.2.1.toNat / 65536)) (match s.cfg.mlhCf with
        | .zero => some false
        | .draw => none
        | .productBit16 => some (if s.cfg.mulSigned = true
            then decide (((s.reg ra).toInt * q.2.1.toInt / 65536) % 2 = 1)
            else decide (((s.reg ra).toNat * q.2.1.toNat / 65536) % 2 = 1))) true s t)

/-- NF xor VF = ra[15] after every ALU instruction (a consequence R120 (3) draws). -/
def Obligations.NfXorVfIsTheOldSignAfterEveryAluInstruction : Prop :=
  ∀ (s t : State) (i : Instr) (op : AluOp) (ra : Reg), (∃ rb, i = aluRegInstr ra rb op) ∨ (∃ imm, i = aluImm8Instr ra imm op) ∨
      (∃ k, i = aluImm16Instr ra k op) → exec i s = .next t → (t.nf ^^ t.vf) = (s.reg ra).getLsbD 15

/-- No instruction writes a register that R12 does not name for it, whatever it answers next. -/
def Obligations.InstructionsWriteOnlyTheirRegisters : Prop :=
  ∀ (i : Instr) (s t : State), exec i s = .next t → KeepsRegsBut (destRegs i) s t

/-- No instruction changes a byte of memory other than those R35 has it write. -/
def Obligations.InstructionsStoreOnlyTheirBytes : Prop :=
  ∀ (i : Instr) (s t : State), exec i s = .next t →
    ∀ a : Word, a ∉ storedBytes s i → t.mem.read a.toNat = s.mem.read a.toNat

/-- An instruction not in the table of R16 for a flag leaves that flag unchanged. -/
def Obligations.OnlyListedInstructionsWriteFlags : Prop :=
  ∀ (i : Instr) (s t : State), exec i s = .next t →
    (i ∉ ([.cli, .sti, .retCli, .retSti] : List Instr) → t.iflag = s.iflag) ∧
    (writesAluFlags i = false → t.vf = s.vf ∧ t.nf = s.nf ∧
      (i ∉ ([.clz, .stz] : List Instr) → t.zf = s.zf) ∧ (i ∉ ([.clc, .stc] : List Instr) → t.cf = s.cf))

/-- Program text, configuration, pending inputs and the cycle total are no instruction's to write (R20, R44). That the configuration, the inputs and the cycle total are fields at all is the model's (log entries 3, 14 and 28). -/
def Obligations.InstructionsLeaveTextConfigurationAndInputsAlone : Prop :=
  ∀ (i : Instr) (s t : State), exec i s = .next t → KeepsEnv s t

/-- Every step keeps memory in canonical form, the program text well-formed and memory free of program text and unmapped bytes. Program text and MEMMAP are the spec's D21 and D23 (log entries 13 and 26). -/
def Obligations.StepKeepsTheInvariant : Prop :=
  ∀ s t : State, s.Inv → step s = .next t → t.Inv

/-- The state after reset has the invariant, and IF = 0 in it (R22). That it lists no memory and no program is the model's (log entries 11 and 12). -/
def Obligations.ResetStateHasTheInvariant : Prop :=
  State.reset.Inv ∧ State.reset.iflag = false

/-- The program text is fixed for a run (R44), and so is the configuration; each step consumes one boundary and counts its cycles. The model's choices (log entries 3, 14 and 28). -/
def Obligations.StepKeepsProgramTextAndConfiguration : Prop :=
  ∀ s t : State, step s = .next t →
    t.prog = s.prog ∧ t.cfg = s.cfg ∧ t.inputs = s.inputs.tail ∧ s.cycles + 1 ≤ t.cycles ∧ t.cycles ≤ s.cycles + 3

/-- The word and cycle counts of R61 and R232, row by row of R232; the counter they go to is log entry 28. -/
def Obligations.WordAndCycleCountsAreThoseOfTheTable : Prop :=
  ∀ (rel d11 : Int) (ra rb rp : Reg) (abs k : Word) (d4 imm : Nat) (c : Cond) (op : AluOp),
    let n : Instr → Nat × Nat := fun i => (i.words, instrCycles i)
    (∀ i ∈ ([.nop, .clc, .stc, .clz, .stz, .cli, .sti] : List Instr), n i = (1, 1)) ∧
    n (branchInstr rel c) = (1, 1) ∧ n (jumpRegInstr rb c) = (1, 1) ∧ n (jumpAbsInstr abs c) = (2, 2) ∧
    n (.jsrR rb) = (1, 2) ∧ n (.jsrA abs) = (2, 3) ∧
    (∀ i ∈ ([.ret, .retCli, .retSti, .push rp, .pop rp, .pushFlag, .popFlag, .ldm ra rp d4, .stm rp d4 ra] : List Instr),
      n i = (1, 2)) ∧
    (∀ i ∈ ([.ldw ra rp d11, .stw rp d11 ra, .ldb ra rp d11, .stb rp d11 ra] : List Instr), n i = (2, 3)) ∧
    n (aluRegInstr ra rb op) = (1, 1) ∧ n (aluImm8Instr ra imm op) = (1, 1) ∧ n (aluImm16Instr ra k op) = (2, 2)

/-- A load from a byte outside MEMMAP or in the program text has no next state: every instruction that loads, and the vector reads of both exceptions (R35, R37, R44). It is refused, but where a word's first byte holds no value the fault of R23 comes first. That the model refuses is the spec's choice (D21, D23, log entries 13 and 26); the order of the checks is the model's (log entry 5). -/
def Obligations.LoadOutsideMemMapOrInTextHasNoNextState : Prop :=
  ∀ (s : State) (a : Word) (ra rp : Reg) (d4 : Nat) (d11 : Int),
    (∀ r, s.reg rp + BitVec.ofInt 16 d11 = a → s.blocked a = some r → exec (.ldb ra rp d11) s = .refused r) ∧
    ∀ p : Word × Word, s.wordBytes a = .ok p → s.blocked p.1 ≠ none ∨ s.blocked p.2 ≠ none →
      let stops : Prop → Host.Outcome State Fault Refusal → Prop := fun valued x =>
        (∀ r, s.blocked p.1 = some r → x = .refused r) ∧
        (s.blocked p.1 = none → ¬valued → x = .fault .valuelessByte) ∧
        (s.blocked p.1 = none → valued → ∀ r, s.blocked p.2 = some r → x = .refused r)
      let holds : Prop := s.mem.read p.1.toNat ≠ none
      (∀ v, s.read16 a ≠ .ok v) ∧
      (s.reg rp + BitVec.ofNat 16 d4 = a → stops holds (exec (.ldm ra rp d4) s)) ∧
      (s.reg rp + BitVec.ofInt 16 d11 = a → stops holds (exec (.ldw ra rp d11) s)) ∧
      (s.sp = a → ∀ i ∈ ([.pop rp, .popFlag, .ret, .retCli, .retSti] : List Instr), stops holds (exec i s)) ∧
      (s.cfg.resetVector ++ 0#1 = a → s.boundary.reset = true → stops holds (step s)) ∧
      ∀ (v : BitVec 15) (q : Word × Word), v ++ 0#1 = a → s.boundary = { reset := false, irq := some v } →
        s.iflag = true → Accessible16 s (s.sp - 2) q → stops (holds ∨ p.1 = q.1 ∨ p.1 = q.2) (step s)

/-- Under a lawful encoding each operand is told by the bits of its own field (R52, R67 (2) and (4)): two forms of one selector have the same bits there exactly when they have the same operand. The reading of R67 (4) is the model's (log entry 32). -/
def Obligations.OperandFieldsAreReadFromTheirOwnBits : Prop :=
  ∀ (e : Encoding) (place : Selector → List (List Nat)), e.Lawful → e.PlacesFields place →
    ∀ i j : Instr, i.wellFormed = true → j.wellFormed = true → (fieldsOf i).selector = (fieldsOf j).selector →
      ∀ (k : Nat) (bits : List Nat), (place (fieldsOf i).selector)[k]? = some bits →
        ((fieldsOf i).operands[k]? = (fieldsOf j).operands[k]? ↔
          ∀ n ∈ bits, wordBit (encode e i) n = wordBit (encode e j) n)
end

