-- ==== Sys2Proof/Laws/State.lean ====
section
/-! SUPPORT. One lemma per field per update of State, each true by rfl, and the reads that depend only on fields the
update leaves alone. -/

namespace Sys2Proof.Machine

/-! `setReg` -/

@[simp] theorem State.regs_setReg (s : State) (r : Reg) (v : Word) : (s.setReg r v).regs = s.regs.set r.val v r.isLt := rfl
@[simp] theorem State.pc_setReg (s : State) (r : Reg) (v : Word) : (s.setReg r v).pc = s.pc := rfl
@[simp] theorem State.cf_setReg (s : State) (r : Reg) (v : Word) : (s.setReg r v).cf = s.cf := rfl
@[simp] theorem State.zf_setReg (s : State) (r : Reg) (v : Word) : (s.setReg r v).zf = s.zf := rfl
@[simp] theorem State.vf_setReg (s : State) (r : Reg) (v : Word) : (s.setReg r v).vf = s.vf := rfl
@[simp] theorem State.nf_setReg (s : State) (r : Reg) (v : Word) : (s.setReg r v).nf = s.nf := rfl
@[simp] theorem State.iflag_setReg (s : State) (r : Reg) (v : Word) : (s.setReg r v).iflag = s.iflag := rfl
@[simp] theorem State.mem_setReg (s : State) (r : Reg) (v : Word) : (s.setReg r v).mem = s.mem := rfl
@[simp] theorem State.inputs_setReg (s : State) (r : Reg) (v : Word) : (s.setReg r v).inputs = s.inputs := rfl
@[simp] theorem State.prog_setReg (s : State) (r : Reg) (v : Word) : (s.setReg r v).prog = s.prog := rfl
@[simp] theorem State.cfg_setReg (s : State) (r : Reg) (v : Word) : (s.setReg r v).cfg = s.cfg := rfl
@[simp] theorem State.cycles_setReg (s : State) (r : Reg) (v : Word) : (s.setReg r v).cycles = s.cycles := rfl
@[simp] theorem State.draws_setReg (s : State) (r : Reg) (v : Word) : (s.setReg r v).draws = s.draws := rfl

/-! `jump` -/

@[simp] theorem State.regs_jump (s : State) (t : Word) : (s.jump t).regs = s.regs := rfl
@[simp] theorem State.pc_jump (s : State) (t : Word) : (s.jump t).pc = toPc t := rfl
@[simp] theorem State.cf_jump (s : State) (t : Word) : (s.jump t).cf = s.cf := rfl
@[simp] theorem State.zf_jump (s : State) (t : Word) : (s.jump t).zf = s.zf := rfl
@[simp] theorem State.vf_jump (s : State) (t : Word) : (s.jump t).vf = s.vf := rfl
@[simp] theorem State.nf_jump (s : State) (t : Word) : (s.jump t).nf = s.nf := rfl
@[simp] theorem State.iflag_jump (s : State) (t : Word) : (s.jump t).iflag = s.iflag := rfl
@[simp] theorem State.mem_jump (s : State) (t : Word) : (s.jump t).mem = s.mem := rfl
@[simp] theorem State.inputs_jump (s : State) (t : Word) : (s.jump t).inputs = s.inputs := rfl
@[simp] theorem State.prog_jump (s : State) (t : Word) : (s.jump t).prog = s.prog := rfl
@[simp] theorem State.cfg_jump (s : State) (t : Word) : (s.jump t).cfg = s.cfg := rfl
@[simp] theorem State.cycles_jump (s : State) (t : Word) : (s.jump t).cycles = s.cycles := rfl
@[simp] theorem State.draws_jump (s : State) (t : Word) : (s.jump t).draws = s.draws := rfl

/-! `advance` -/

@[simp] theorem State.regs_advance (s : State) (w : Nat) : (s.advance w).regs = s.regs := rfl
@[simp] theorem State.pc_advance (s : State) (w : Nat) : (s.advance w).pc = toPc (s.npc w) := rfl
@[simp] theorem State.cf_advance (s : State) (w : Nat) : (s.advance w).cf = s.cf := rfl
@[simp] theorem State.zf_advance (s : State) (w : Nat) : (s.advance w).zf = s.zf := rfl
@[simp] theorem State.vf_advance (s : State) (w : Nat) : (s.advance w).vf = s.vf := rfl
@[simp] theorem State.nf_advance (s : State) (w : Nat) : (s.advance w).nf = s.nf := rfl
@[simp] theorem State.iflag_advance (s : State) (w : Nat) : (s.advance w).iflag = s.iflag := rfl
@[simp] theorem State.mem_advance (s : State) (w : Nat) : (s.advance w).mem = s.mem := rfl
@[simp] theorem State.inputs_advance (s : State) (w : Nat) : (s.advance w).inputs = s.inputs := rfl
@[simp] theorem State.prog_advance (s : State) (w : Nat) : (s.advance w).prog = s.prog := rfl
@[simp] theorem State.cfg_advance (s : State) (w : Nat) : (s.advance w).cfg = s.cfg := rfl
@[simp] theorem State.cycles_advance (s : State) (w : Nat) : (s.advance w).cycles = s.cycles := rfl
@[simp] theorem State.draws_advance (s : State) (w : Nat) : (s.advance w).draws = s.draws := rfl

/-! `setIF` -/

@[simp] theorem State.regs_setIF (s : State) (b : Bool) : (s.setIF b).regs = s.regs := rfl
@[simp] theorem State.pc_setIF (s : State) (b : Bool) : (s.setIF b).pc = s.pc := rfl
@[simp] theorem State.cf_setIF (s : State) (b : Bool) : (s.setIF b).cf = s.cf := rfl
@[simp] theorem State.zf_setIF (s : State) (b : Bool) : (s.setIF b).zf = s.zf := rfl
@[simp] theorem State.vf_setIF (s : State) (b : Bool) : (s.setIF b).vf = s.vf := rfl
@[simp] theorem State.nf_setIF (s : State) (b : Bool) : (s.setIF b).nf = s.nf := rfl
@[simp] theorem State.iflag_setIF (s : State) (b : Bool) : (s.setIF b).iflag = b := rfl
@[simp] theorem State.mem_setIF (s : State) (b : Bool) : (s.setIF b).mem = s.mem := rfl
@[simp] theorem State.inputs_setIF (s : State) (b : Bool) : (s.setIF b).inputs = s.inputs := rfl
@[simp] theorem State.prog_setIF (s : State) (b : Bool) : (s.setIF b).prog = s.prog := rfl
@[simp] theorem State.cfg_setIF (s : State) (b : Bool) : (s.setIF b).cfg = s.cfg := rfl
@[simp] theorem State.cycles_setIF (s : State) (b : Bool) : (s.setIF b).cycles = s.cycles := rfl
@[simp] theorem State.draws_setIF (s : State) (b : Bool) : (s.setIF b).draws = s.draws := rfl

/-! `tick` -/

@[simp] theorem State.regs_tick (s : State) (n : Nat) : (s.tick n).regs = s.regs := rfl
@[simp] theorem State.pc_tick (s : State) (n : Nat) : (s.tick n).pc = s.pc := rfl
@[simp] theorem State.cf_tick (s : State) (n : Nat) : (s.tick n).cf = s.cf := rfl
@[simp] theorem State.zf_tick (s : State) (n : Nat) : (s.tick n).zf = s.zf := rfl
@[simp] theorem State.vf_tick (s : State) (n : Nat) : (s.tick n).vf = s.vf := rfl
@[simp] theorem State.nf_tick (s : State) (n : Nat) : (s.tick n).nf = s.nf := rfl
@[simp] theorem State.iflag_tick (s : State) (n : Nat) : (s.tick n).iflag = s.iflag := rfl
@[simp] theorem State.mem_tick (s : State) (n : Nat) : (s.tick n).mem = s.mem := rfl
@[simp] theorem State.inputs_tick (s : State) (n : Nat) : (s.tick n).inputs = s.inputs := rfl
@[simp] theorem State.prog_tick (s : State) (n : Nat) : (s.tick n).prog = s.prog := rfl
@[simp] theorem State.cfg_tick (s : State) (n : Nat) : (s.tick n).cfg = s.cfg := rfl
@[simp] theorem State.cycles_tick (s : State) (n : Nat) : (s.tick n).cycles = s.cycles + n := rfl
@[simp] theorem State.draws_tick (s : State) (n : Nat) : (s.tick n).draws = s.draws := rfl

/-! `drawn` -/

@[simp] theorem State.regs_drawn (s : State) : (s.drawn).regs = s.regs := rfl
@[simp] theorem State.pc_drawn (s : State) : (s.drawn).pc = s.pc := rfl
@[simp] theorem State.cf_drawn (s : State) : (s.drawn).cf = s.cf := rfl
@[simp] theorem State.zf_drawn (s : State) : (s.drawn).zf = s.zf := rfl
@[simp] theorem State.vf_drawn (s : State) : (s.drawn).vf = s.vf := rfl
@[simp] theorem State.nf_drawn (s : State) : (s.drawn).nf = s.nf := rfl
@[simp] theorem State.iflag_drawn (s : State) : (s.drawn).iflag = s.iflag := rfl
@[simp] theorem State.mem_drawn (s : State) : (s.drawn).mem = s.mem := rfl
@[simp] theorem State.inputs_drawn (s : State) : (s.drawn).inputs = s.inputs := rfl
@[simp] theorem State.prog_drawn (s : State) : (s.drawn).prog = s.prog := rfl
@[simp] theorem State.cfg_drawn (s : State) : (s.drawn).cfg = s.cfg := rfl
@[simp] theorem State.cycles_drawn (s : State) : (s.drawn).cycles = s.cycles := rfl
@[simp] theorem State.draws_drawn (s : State) : (s.drawn).draws = s.draws + 1 := rfl

/-! `pokeByte` -/

@[simp] theorem State.regs_pokeByte (s : State) (a : Word) (b : Byte) : (s.pokeByte a b).regs = s.regs := rfl
@[simp] theorem State.pc_pokeByte (s : State) (a : Word) (b : Byte) : (s.pokeByte a b).pc = s.pc := rfl
@[simp] theorem State.cf_pokeByte (s : State) (a : Word) (b : Byte) : (s.pokeByte a b).cf = s.cf := rfl
@[simp] theorem State.zf_pokeByte (s : State) (a : Word) (b : Byte) : (s.pokeByte a b).zf = s.zf := rfl
@[simp] theorem State.vf_pokeByte (s : State) (a : Word) (b : Byte) : (s.pokeByte a b).vf = s.vf := rfl
@[simp] theorem State.nf_pokeByte (s : State) (a : Word) (b : Byte) : (s.pokeByte a b).nf = s.nf := rfl
@[simp] theorem State.iflag_pokeByte (s : State) (a : Word) (b : Byte) : (s.pokeByte a b).iflag = s.iflag := rfl
@[simp] theorem State.mem_pokeByte (s : State) (a : Word) (b : Byte) : (s.pokeByte a b).mem = s.mem.write a.toNat b := rfl
@[simp] theorem State.inputs_pokeByte (s : State) (a : Word) (b : Byte) : (s.pokeByte a b).inputs = s.inputs := rfl
@[simp] theorem State.prog_pokeByte (s : State) (a : Word) (b : Byte) : (s.pokeByte a b).prog = s.prog := rfl
@[simp] theorem State.cfg_pokeByte (s : State) (a : Word) (b : Byte) : (s.pokeByte a b).cfg = s.cfg := rfl
@[simp] theorem State.cycles_pokeByte (s : State) (a : Word) (b : Byte) : (s.pokeByte a b).cycles = s.cycles := rfl
@[simp] theorem State.draws_pokeByte (s : State) (a : Word) (b : Byte) : (s.pokeByte a b).draws = s.draws := rfl

/-! `passBoundary` -/

@[simp] theorem State.regs_passBoundary (s : State) : (s.passBoundary).regs = s.regs := rfl
@[simp] theorem State.pc_passBoundary (s : State) : (s.passBoundary).pc = s.pc := rfl
@[simp] theorem State.cf_passBoundary (s : State) : (s.passBoundary).cf = s.cf := rfl
@[simp] theorem State.zf_passBoundary (s : State) : (s.passBoundary).zf = s.zf := rfl
@[simp] theorem State.vf_passBoundary (s : State) : (s.passBoundary).vf = s.vf := rfl
@[simp] theorem State.nf_passBoundary (s : State) : (s.passBoundary).nf = s.nf := rfl
@[simp] theorem State.iflag_passBoundary (s : State) : (s.passBoundary).iflag = s.iflag := rfl
@[simp] theorem State.mem_passBoundary (s : State) : (s.passBoundary).mem = s.mem := rfl
@[simp] theorem State.inputs_passBoundary (s : State) : (s.passBoundary).inputs = s.inputs.tail := rfl
@[simp] theorem State.prog_passBoundary (s : State) : (s.passBoundary).prog = s.prog := rfl
@[simp] theorem State.cfg_passBoundary (s : State) : (s.passBoundary).cfg = s.cfg := rfl
@[simp] theorem State.cycles_passBoundary (s : State) : (s.passBoundary).cycles = s.cycles := rfl
@[simp] theorem State.draws_passBoundary (s : State) : (s.passBoundary).draws = s.draws := rfl

/-! `setFlags` -/

@[simp] theorem State.regs_setFlags (s : State) (n v z c : Bool) : (s.setFlags n v z c).regs = s.regs := rfl
@[simp] theorem State.pc_setFlags (s : State) (n v z c : Bool) : (s.setFlags n v z c).pc = s.pc := rfl
@[simp] theorem State.cf_setFlags (s : State) (n v z c : Bool) : (s.setFlags n v z c).cf = c := rfl
@[simp] theorem State.zf_setFlags (s : State) (n v z c : Bool) : (s.setFlags n v z c).zf = z := rfl
@[simp] theorem State.vf_setFlags (s : State) (n v z c : Bool) : (s.setFlags n v z c).vf = v := rfl
@[simp] theorem State.nf_setFlags (s : State) (n v z c : Bool) : (s.setFlags n v z c).nf = n := rfl
@[simp] theorem State.iflag_setFlags (s : State) (n v z c : Bool) : (s.setFlags n v z c).iflag = s.iflag := rfl
@[simp] theorem State.mem_setFlags (s : State) (n v z c : Bool) : (s.setFlags n v z c).mem = s.mem := rfl
@[simp] theorem State.inputs_setFlags (s : State) (n v z c : Bool) : (s.setFlags n v z c).inputs = s.inputs := rfl
@[simp] theorem State.prog_setFlags (s : State) (n v z c : Bool) : (s.setFlags n v z c).prog = s.prog := rfl
@[simp] theorem State.cfg_setFlags (s : State) (n v z c : Bool) : (s.setFlags n v z c).cfg = s.cfg := rfl
@[simp] theorem State.cycles_setFlags (s : State) (n v z c : Bool) : (s.setFlags n v z c).cycles = s.cycles := rfl
@[simp] theorem State.draws_setFlags (s : State) (n v z c : Bool) : (s.setFlags n v z c).draws = s.draws := rfl

/-! `loadFlags` -/

@[simp] theorem State.regs_loadFlags (s : State) (t : Word) : (s.loadFlags t).regs = s.regs := rfl
@[simp] theorem State.pc_loadFlags (s : State) (t : Word) : (s.loadFlags t).pc = s.pc := rfl
@[simp] theorem State.cf_loadFlags (s : State) (t : Word) : (s.loadFlags t).cf = t.getLsbD 0 := rfl
@[simp] theorem State.zf_loadFlags (s : State) (t : Word) : (s.loadFlags t).zf = t.getLsbD 1 := rfl
@[simp] theorem State.vf_loadFlags (s : State) (t : Word) : (s.loadFlags t).vf = t.getLsbD 2 := rfl
@[simp] theorem State.nf_loadFlags (s : State) (t : Word) : (s.loadFlags t).nf = t.getLsbD 3 := rfl
@[simp] theorem State.iflag_loadFlags (s : State) (t : Word) : (s.loadFlags t).iflag = s.iflag := rfl
@[simp] theorem State.mem_loadFlags (s : State) (t : Word) : (s.loadFlags t).mem = s.mem := rfl
@[simp] theorem State.inputs_loadFlags (s : State) (t : Word) : (s.loadFlags t).inputs = s.inputs := rfl
@[simp] theorem State.prog_loadFlags (s : State) (t : Word) : (s.loadFlags t).prog = s.prog := rfl
@[simp] theorem State.cfg_loadFlags (s : State) (t : Word) : (s.loadFlags t).cfg = s.cfg := rfl
@[simp] theorem State.cycles_loadFlags (s : State) (t : Word) : (s.loadFlags t).cycles = s.cycles := rfl
@[simp] theorem State.draws_loadFlags (s : State) (t : Word) : (s.loadFlags t).draws = s.draws := rfl

@[simp] theorem State.reg_jump (s : State) (t : Word) (q : Reg) : (s.jump t).reg q = s.reg q := rfl
@[simp] theorem State.sp_jump (s : State) (t : Word) : (s.jump t).sp = s.sp := rfl
@[simp] theorem State.reg_advance (s : State) (w : Nat) (q : Reg) : (s.advance w).reg q = s.reg q := rfl
@[simp] theorem State.sp_advance (s : State) (w : Nat) : (s.advance w).sp = s.sp := rfl
@[simp] theorem State.reg_setIF (s : State) (b : Bool) (q : Reg) : (s.setIF b).reg q = s.reg q := rfl
@[simp] theorem State.sp_setIF (s : State) (b : Bool) : (s.setIF b).sp = s.sp := rfl
@[simp] theorem State.reg_tick (s : State) (n : Nat) (q : Reg) : (s.tick n).reg q = s.reg q := rfl
@[simp] theorem State.sp_tick (s : State) (n : Nat) : (s.tick n).sp = s.sp := rfl
@[simp] theorem State.reg_drawn (s : State) (q : Reg) : (s.drawn).reg q = s.reg q := rfl
@[simp] theorem State.sp_drawn (s : State) : (s.drawn).sp = s.sp := rfl
@[simp] theorem State.reg_pokeByte (s : State) (a : Word) (b : Byte) (q : Reg) : (s.pokeByte a b).reg q = s.reg q := rfl
@[simp] theorem State.sp_pokeByte (s : State) (a : Word) (b : Byte) : (s.pokeByte a b).sp = s.sp := rfl
@[simp] theorem State.reg_passBoundary (s : State) (q : Reg) : (s.passBoundary).reg q = s.reg q := rfl
@[simp] theorem State.sp_passBoundary (s : State) : (s.passBoundary).sp = s.sp := rfl
@[simp] theorem State.reg_setFlags (s : State) (n v z c : Bool) (q : Reg) : (s.setFlags n v z c).reg q = s.reg q := rfl
@[simp] theorem State.sp_setFlags (s : State) (n v z c : Bool) : (s.setFlags n v z c).sp = s.sp := rfl
@[simp] theorem State.reg_loadFlags (s : State) (t : Word) (q : Reg) : (s.loadFlags t).reg q = s.reg q := rfl
@[simp] theorem State.sp_loadFlags (s : State) (t : Word) : (s.loadFlags t).sp = s.sp := rfl

@[simp] theorem State.pcAddr_setReg (s : State) (r : Reg) (v : Word) : (s.setReg r v).pcAddr = s.pcAddr := rfl
@[simp] theorem State.npc_setReg (s : State) (r : Reg) (v : Word) (k : Nat) : (s.setReg r v).npc k = s.npc k := rfl
@[simp] theorem State.inText_setReg (s : State) (r : Reg) (v : Word) (b0 : Word) : (s.setReg r v).inText b0 = s.inText b0 := rfl
@[simp] theorem State.mapped_setReg (s : State) (r : Reg) (v : Word) (b0 : Word) : (s.setReg r v).mapped b0 = s.mapped b0 := rfl
@[simp] theorem State.access_setReg (s : State) (r : Reg) (v : Word) (b0 : Word) : (s.setReg r v).access b0 = s.access b0 := rfl
@[simp] theorem State.wordBytes_setReg (s : State) (r : Reg) (v : Word) (b0 : Word) : (s.setReg r v).wordBytes b0 = s.wordBytes b0 := rfl
@[simp] theorem State.fetch_setReg (s : State) (r : Reg) (v : Word) : (s.setReg r v).fetch = s.fetch := rfl
@[simp] theorem State.freeBit_setReg (s : State) (r : Reg) (v : Word) : (s.setReg r v).freeBit = s.freeBit := rfl
@[simp] theorem State.readByte_setReg (s : State) (r : Reg) (v : Word) (b0 : Word) : (s.setReg r v).readByte b0 = s.readByte b0 := rfl
@[simp] theorem State.read16_setReg (s : State) (r : Reg) (v : Word) (b0 : Word) : (s.setReg r v).read16 b0 = s.read16 b0 := rfl
@[simp] theorem State.holds_setReg (s : State) (r : Reg) (v : Word) (c0 : Cond) : (s.setReg r v).holds c0 = s.holds c0 := rfl

@[simp] theorem State.inText_jump (s : State) (t : Word) (b0 : Word) : (s.jump t).inText b0 = s.inText b0 := rfl
@[simp] theorem State.mapped_jump (s : State) (t : Word) (b0 : Word) : (s.jump t).mapped b0 = s.mapped b0 := rfl
@[simp] theorem State.access_jump (s : State) (t : Word) (b0 : Word) : (s.jump t).access b0 = s.access b0 := rfl
@[simp] theorem State.wordBytes_jump (s : State) (t : Word) (b0 : Word) : (s.jump t).wordBytes b0 = s.wordBytes b0 := rfl
@[simp] theorem State.freeBit_jump (s : State) (t : Word) : (s.jump t).freeBit = s.freeBit := rfl
@[simp] theorem State.readByte_jump (s : State) (t : Word) (b0 : Word) : (s.jump t).readByte b0 = s.readByte b0 := rfl
@[simp] theorem State.read16_jump (s : State) (t : Word) (b0 : Word) : (s.jump t).read16 b0 = s.read16 b0 := rfl
@[simp] theorem State.holds_jump (s : State) (t : Word) (c0 : Cond) : (s.jump t).holds c0 = s.holds c0 := rfl

@[simp] theorem State.inText_advance (s : State) (w : Nat) (b0 : Word) : (s.advance w).inText b0 = s.inText b0 := rfl
@[simp] theorem State.mapped_advance (s : State) (w : Nat) (b0 : Word) : (s.advance w).mapped b0 = s.mapped b0 := rfl
@[simp] theorem State.access_advance (s : State) (w : Nat) (b0 : Word) : (s.advance w).access b0 = s.access b0 := rfl
@[simp] theorem State.wordBytes_advance (s : State) (w : Nat) (b0 : Word) : (s.advance w).wordBytes b0 = s.wordBytes b0 := rfl
@[simp] theorem State.freeBit_advance (s : State) (w : Nat) : (s.advance w).freeBit = s.freeBit := rfl
@[simp] theorem State.readByte_advance (s : State) (w : Nat) (b0 : Word) : (s.advance w).readByte b0 = s.readByte b0 := rfl
@[simp] theorem State.read16_advance (s : State) (w : Nat) (b0 : Word) : (s.advance w).read16 b0 = s.read16 b0 := rfl
@[simp] theorem State.holds_advance (s : State) (w : Nat) (c0 : Cond) : (s.advance w).holds c0 = s.holds c0 := rfl

@[simp] theorem State.pcAddr_setIF (s : State) (b : Bool) : (s.setIF b).pcAddr = s.pcAddr := rfl
@[simp] theorem State.npc_setIF (s : State) (b : Bool) (k : Nat) : (s.setIF b).npc k = s.npc k := rfl
@[simp] theorem State.inText_setIF (s : State) (b : Bool) (b0 : Word) : (s.setIF b).inText b0 = s.inText b0 := rfl
@[simp] theorem State.mapped_setIF (s : State) (b : Bool) (b0 : Word) : (s.setIF b).mapped b0 = s.mapped b0 := rfl
@[simp] theorem State.access_setIF (s : State) (b : Bool) (b0 : Word) : (s.setIF b).access b0 = s.access b0 := rfl
@[simp] theorem State.wordBytes_setIF (s : State) (b : Bool) (b0 : Word) : (s.setIF b).wordBytes b0 = s.wordBytes b0 := rfl
@[simp] theorem State.fetch_setIF (s : State) (b : Bool) : (s.setIF b).fetch = s.fetch := rfl
@[simp] theorem State.freeBit_setIF (s : State) (b : Bool) : (s.setIF b).freeBit = s.freeBit := rfl
@[simp] theorem State.readByte_setIF (s : State) (b : Bool) (b0 : Word) : (s.setIF b).readByte b0 = s.readByte b0 := rfl
@[simp] theorem State.read16_setIF (s : State) (b : Bool) (b0 : Word) : (s.setIF b).read16 b0 = s.read16 b0 := rfl
@[simp] theorem State.holds_setIF (s : State) (b : Bool) (c0 : Cond) : (s.setIF b).holds c0 = s.holds c0 := rfl

@[simp] theorem State.pcAddr_tick (s : State) (n : Nat) : (s.tick n).pcAddr = s.pcAddr := rfl
@[simp] theorem State.npc_tick (s : State) (n : Nat) (k : Nat) : (s.tick n).npc k = s.npc k := rfl
@[simp] theorem State.inText_tick (s : State) (n : Nat) (b0 : Word) : (s.tick n).inText b0 = s.inText b0 := rfl
@[simp] theorem State.mapped_tick (s : State) (n : Nat) (b0 : Word) : (s.tick n).mapped b0 = s.mapped b0 := rfl
@[simp] theorem State.access_tick (s : State) (n : Nat) (b0 : Word) : (s.tick n).access b0 = s.access b0 := rfl
@[simp] theorem State.wordBytes_tick (s : State) (n : Nat) (b0 : Word) : (s.tick n).wordBytes b0 = s.wordBytes b0 := rfl
@[simp] theorem State.fetch_tick (s : State) (n : Nat) : (s.tick n).fetch = s.fetch := rfl
@[simp] theorem State.freeBit_tick (s : State) (n : Nat) : (s.tick n).freeBit = s.freeBit := rfl
@[simp] theorem State.readByte_tick (s : State) (n : Nat) (b0 : Word) : (s.tick n).readByte b0 = s.readByte b0 := rfl
@[simp] theorem State.read16_tick (s : State) (n : Nat) (b0 : Word) : (s.tick n).read16 b0 = s.read16 b0 := rfl
@[simp] theorem State.holds_tick (s : State) (n : Nat) (c0 : Cond) : (s.tick n).holds c0 = s.holds c0 := rfl

@[simp] theorem State.pcAddr_drawn (s : State) : (s.drawn).pcAddr = s.pcAddr := rfl
@[simp] theorem State.npc_drawn (s : State) (k : Nat) : (s.drawn).npc k = s.npc k := rfl
@[simp] theorem State.inText_drawn (s : State) (b0 : Word) : (s.drawn).inText b0 = s.inText b0 := rfl
@[simp] theorem State.mapped_drawn (s : State) (b0 : Word) : (s.drawn).mapped b0 = s.mapped b0 := rfl
@[simp] theorem State.access_drawn (s : State) (b0 : Word) : (s.drawn).access b0 = s.access b0 := rfl
@[simp] theorem State.wordBytes_drawn (s : State) (b0 : Word) : (s.drawn).wordBytes b0 = s.wordBytes b0 := rfl
@[simp] theorem State.fetch_drawn (s : State) : (s.drawn).fetch = s.fetch := rfl
@[simp] theorem State.readByte_drawn (s : State) (b0 : Word) : (s.drawn).readByte b0 = s.readByte b0 := rfl
@[simp] theorem State.read16_drawn (s : State) (b0 : Word) : (s.drawn).read16 b0 = s.read16 b0 := rfl
@[simp] theorem State.holds_drawn (s : State) (c0 : Cond) : (s.drawn).holds c0 = s.holds c0 := rfl

@[simp] theorem State.pcAddr_pokeByte (s : State) (a : Word) (b : Byte) : (s.pokeByte a b).pcAddr = s.pcAddr := rfl
@[simp] theorem State.npc_pokeByte (s : State) (a : Word) (b : Byte) (k : Nat) : (s.pokeByte a b).npc k = s.npc k := rfl
@[simp] theorem State.inText_pokeByte (s : State) (a : Word) (b : Byte) (b0 : Word) : (s.pokeByte a b).inText b0 = s.inText b0 := rfl
@[simp] theorem State.mapped_pokeByte (s : State) (a : Word) (b : Byte) (b0 : Word) : (s.pokeByte a b).mapped b0 = s.mapped b0 := rfl
@[simp] theorem State.access_pokeByte (s : State) (a : Word) (b : Byte) (b0 : Word) : (s.pokeByte a b).access b0 = s.access b0 := rfl
@[simp] theorem State.wordBytes_pokeByte (s : State) (a : Word) (b : Byte) (b0 : Word) : (s.pokeByte a b).wordBytes b0 = s.wordBytes b0 := rfl
@[simp] theorem State.fetch_pokeByte (s : State) (a : Word) (b : Byte) : (s.pokeByte a b).fetch = s.fetch := rfl
@[simp] theorem State.freeBit_pokeByte (s : State) (a : Word) (b : Byte) : (s.pokeByte a b).freeBit = s.freeBit := rfl
@[simp] theorem State.holds_pokeByte (s : State) (a : Word) (b : Byte) (c0 : Cond) : (s.pokeByte a b).holds c0 = s.holds c0 := rfl

@[simp] theorem State.pcAddr_passBoundary (s : State) : (s.passBoundary).pcAddr = s.pcAddr := rfl
@[simp] theorem State.npc_passBoundary (s : State) (k : Nat) : (s.passBoundary).npc k = s.npc k := rfl
@[simp] theorem State.inText_passBoundary (s : State) (b0 : Word) : (s.passBoundary).inText b0 = s.inText b0 := rfl
@[simp] theorem State.mapped_passBoundary (s : State) (b0 : Word) : (s.passBoundary).mapped b0 = s.mapped b0 := rfl
@[simp] theorem State.access_passBoundary (s : State) (b0 : Word) : (s.passBoundary).access b0 = s.access b0 := rfl
@[simp] theorem State.wordBytes_passBoundary (s : State) (b0 : Word) : (s.passBoundary).wordBytes b0 = s.wordBytes b0 := rfl
@[simp] theorem State.fetch_passBoundary (s : State) : (s.passBoundary).fetch = s.fetch := rfl
@[simp] theorem State.freeBit_passBoundary (s : State) : (s.passBoundary).freeBit = s.freeBit := rfl
@[simp] theorem State.readByte_passBoundary (s : State) (b0 : Word) : (s.passBoundary).readByte b0 = s.readByte b0 := rfl
@[simp] theorem State.read16_passBoundary (s : State) (b0 : Word) : (s.passBoundary).read16 b0 = s.read16 b0 := rfl
@[simp] theorem State.holds_passBoundary (s : State) (c0 : Cond) : (s.passBoundary).holds c0 = s.holds c0 := rfl

@[simp] theorem State.pcAddr_setFlags (s : State) (n v z c : Bool) : (s.setFlags n v z c).pcAddr = s.pcAddr := rfl
@[simp] theorem State.npc_setFlags (s : State) (n v z c : Bool) (k : Nat) : (s.setFlags n v z c).npc k = s.npc k := rfl
@[simp] theorem State.inText_setFlags (s : State) (n v z c : Bool) (b0 : Word) : (s.setFlags n v z c).inText b0 = s.inText b0 := rfl
@[simp] theorem State.mapped_setFlags (s : State) (n v z c : Bool) (b0 : Word) : (s.setFlags n v z c).mapped b0 = s.mapped b0 := rfl
@[simp] theorem State.access_setFlags (s : State) (n v z c : Bool) (b0 : Word) : (s.setFlags n v z c).access b0 = s.access b0 := rfl
@[simp] theorem State.wordBytes_setFlags (s : State) (n v z c : Bool) (b0 : Word) : (s.setFlags n v z c).wordBytes b0 = s.wordBytes b0 := rfl
@[simp] theorem State.fetch_setFlags (s : State) (n v z c : Bool) : (s.setFlags n v z c).fetch = s.fetch := rfl
@[simp] theorem State.freeBit_setFlags (s : State) (n v z c : Bool) : (s.setFlags n v z c).freeBit = s.freeBit := rfl
@[simp] theorem State.readByte_setFlags (s : State) (n v z c : Bool) (b0 : Word) : (s.setFlags n v z c).readByte b0 = s.readByte b0 := rfl
@[simp] theorem State.read16_setFlags (s : State) (n v z c : Bool) (b0 : Word) : (s.setFlags n v z c).read16 b0 = s.read16 b0 := rfl

@[simp] theorem State.pcAddr_loadFlags (s : State) (t : Word) : (s.loadFlags t).pcAddr = s.pcAddr := rfl
@[simp] theorem State.npc_loadFlags (s : State) (t : Word) (k : Nat) : (s.loadFlags t).npc k = s.npc k := rfl
@[simp] theorem State.inText_loadFlags (s : State) (t : Word) (b0 : Word) : (s.loadFlags t).inText b0 = s.inText b0 := rfl
@[simp] theorem State.mapped_loadFlags (s : State) (t : Word) (b0 : Word) : (s.loadFlags t).mapped b0 = s.mapped b0 := rfl
@[simp] theorem State.access_loadFlags (s : State) (t : Word) (b0 : Word) : (s.loadFlags t).access b0 = s.access b0 := rfl
@[simp] theorem State.wordBytes_loadFlags (s : State) (t : Word) (b0 : Word) : (s.loadFlags t).wordBytes b0 = s.wordBytes b0 := rfl
@[simp] theorem State.fetch_loadFlags (s : State) (t : Word) : (s.loadFlags t).fetch = s.fetch := rfl
@[simp] theorem State.freeBit_loadFlags (s : State) (t : Word) : (s.loadFlags t).freeBit = s.freeBit := rfl
@[simp] theorem State.readByte_loadFlags (s : State) (t : Word) (b0 : Word) : (s.loadFlags t).readByte b0 = s.readByte b0 := rfl
@[simp] theorem State.read16_loadFlags (s : State) (t : Word) (b0 : Word) : (s.loadFlags t).read16 b0 = s.read16 b0 := rfl

/-! Reading a register that was just written. -/

theorem State.reg_setReg (s : State) (r q : Reg) (v : Word) :
    (s.setReg r v).reg q = if q = r then v else s.reg q := by
  simp [State.reg, State.setReg, Vector.get_eq_getElem, Vector.getElem_set, Fin.ext_iff, eq_comm]

@[simp] theorem State.reg_setReg_same (s : State) (r : Reg) (v : Word) : (s.setReg r v).reg r = v := by
  simp [State.reg_setReg]

@[simp] theorem State.reg_setReg_ne (s : State) {r q : Reg} (v : Word) (h : q ≠ r) :
    (s.setReg r v).reg q = s.reg q := by
  simp [State.reg_setReg, h]

@[simp] theorem State.sp_setReg_sp (s : State) (v : Word) : (s.setReg spReg v).sp = v := by
  simp [State.sp]

end Sys2Proof.Machine
end

