-- ==== Sys2Proof/Laws/Pc.lean ====
section
/-! SUPPORT. The program counter as an even byte address (R13, R14), and `finish`. -/

namespace Sys2Proof.Machine

/-- `{v[15:1], 0}` is `v` with bit 0 cleared. -/
theorem toPc_append (v : Word) : (toPc v ++ 0#1 : Word) = v &&& 0xFFFE#16 := by
  apply BitVec.eq_of_getLsbD_eq
  intro i hi
  have h16 : i < 16 := by omega
  rw [BitVec.getLsbD_append]
  interval_cases i <;> simp [toPc]

theorem State.pcAddr_jump (s : State) (t : Word) : (s.jump t).pcAddr = t &&& 0xFFFE#16 := toPc_append t

/-- An even address loses nothing when it enters PC. -/
theorem and_fffe_of_even {v : Word} (h : v.toNat % 2 = 0) : v &&& 0xFFFE#16 = v := by
  apply BitVec.eq_of_getLsbD_eq
  intro i hi
  have h16 : i < 16 := by omega
  have h0 : v.getLsbD 0 = false := by
    rw [BitVec.getLsbD, Nat.testBit_zero]; simp; omega
  rcases Nat.eq_zero_or_pos i with rfl | hp
  · simpa using h0
  · interval_cases i <;> simp

theorem State.pcAddr_toNat (s : State) : s.pcAddr.toNat = 2 * s.pc.toNat := by
  have h : s.pcAddr.toNat = s.pc.toNat <<< 1 ||| (0#1).toNat := BitVec.toNat_append _ _
  simpa [Nat.shiftLeft_eq, Nat.mul_comm] using h

theorem State.npc_even (s : State) (w : Nat) : (s.npc w).toNat % 2 = 0 := by
  simp [State.npc, BitVec.toNat_add, State.pcAddr_toNat]

theorem State.pcAddr_advance (s : State) (w : Nat) : (s.advance w).pcAddr = s.pcAddr + BitVec.ofNat 16 (2 * w) := by
  rw [State.advance, State.pcAddr_jump, and_fffe_of_even (s.npc_even w), State.npc]

/-- The 15-bit PC of an address made from a 15-bit PC. -/
theorem toPc_append_bit (p : Pc) (b : BitVec 1) : toPc (p ++ b : Word) = p := by
  apply BitVec.eq_of_getLsbD_eq
  intro i hi
  simp only [toPc, BitVec.getLsbD_extractLsb', BitVec.getLsbD_append]
  simp [hi]

@[simp] theorem State.toPc_pcAddr (s : State) : toPc s.pcAddr = s.pc := toPc_append_bit _ _

/-- A return word gives back the PC it was made from, whatever its bit 0 (R18, R86). -/
@[simp] theorem toPc_returnWord (t : Word) (b : Bool) : toPc (returnWord t b) = toPc t := toPc_append_bit _ _

theorem pcAddr_inj {s t : State} (h : s.pcAddr = t.pcAddr) : s.pc = t.pc := by
  rw [← s.toPc_pcAddr, h, t.toPc_pcAddr]

/-- What `finish` can answer. -/
theorem finish_next {α : Type} {r : Except Stop α} {k : α → State} {t : State} :
    finish r k = .next t ↔ ∃ v, r = .ok v ∧ t = k v := by
  cases r with
  | ok v => simp [finish, eq_comm]
  | error e => cases e <;> simp [finish, Stop.outcome]

@[simp] theorem finish_ok {α : Type} (v : α) (k : α → State) : finish (.ok v) k = .next (k v) := rfl

@[simp] theorem finish_error {α : Type} (e : Stop) (k : α → State) :
    finish (.error e : Except Stop α) k = e.outcome := rfl

end Sys2Proof.Machine
end

