-- ==== Sys2Proof/Laws/Alu.lean ====
section
/-! SUPPORT. The ALU: the exact results of the operators, and what the template of an ALU instruction does
(R120 to R122). -/

namespace Sys2Proof.Machine

/-! ### Operators -/

theorem toNat_bool_le (b : Bool) : b.toNat ≤ 1 := by cases b <;> decide

/-- Addition wraps modulo 2^16 (R121). -/
theorem addResult_value (a b : Word) (cin : Bool) :
    (addResult a b cin).value = a + b + BitVec.ofNat 16 cin.toNat := by
  apply BitVec.eq_of_toNat_eq
  simp [addResult, BitVec.toNat_add]

/-- CF after an addition is the carry out (R121). -/
theorem addResult_carry (a b : Word) (cin : Bool) :
    (addResult a b cin).carry = some (decide (65536 ≤ a.toNat + b.toNat + cin.toNat)) := by
  have ha := a.isLt
  have hb := b.isLt
  have hc := toNat_bool_le cin
  simp only [addResult, Option.some.injEq, Nat.testBit_eq_decide_div_mod_eq]
  congr 1
  apply propext
  constructor <;> intro h <;> omega

/-- Subtraction wraps modulo 2^16 (R121). -/
theorem subResult_value (a b : Word) (cin : Bool) :
    (subResult a b cin).value = a - b - BitVec.ofNat 16 cin.toNat := by
  have ha := a.isLt
  have hb := b.isLt
  have hc := toNat_bool_le cin
  apply BitVec.eq_of_toNat_eq
  simp only [subResult, BitVec.toNat_ofInt, BitVec.toNat_sub, BitVec.toNat_ofNat]
  omega

/-- CF after a subtraction is the borrow (R121). -/
theorem subResult_carry (a b : Word) (cin : Bool) :
    (subResult a b cin).carry = some (decide (a.toNat < b.toNat + cin.toNat)) := by
  simp only [subResult, Option.some.injEq]
  congr 1
  apply propext
  constructor <;> intro h <;> omega

/-- The exact product, signed or unsigned (R121). -/
def exactProduct (signed : Bool) (a b : Word) : Int :=
  if signed = true then a.toInt * b.toInt else (a.toNat : Int) * b.toNat

theorem product_eq (signed : Bool) (a b : Word) : product signed a b = BitVec.ofInt 32 (exactProduct signed a b) := by
  cases signed
  · apply BitVec.eq_of_toNat_eq
    simp [product, exactProduct, BitVec.toNat_ofInt]
    norm_cast
  · rfl

theorem low_ofInt (n : Int) : (BitVec.ofInt 32 n).extractLsb' 0 16 = BitVec.ofInt 16 n := by
  apply BitVec.eq_of_toNat_eq
  simp only [BitVec.extractLsb'_toNat, BitVec.toNat_ofInt, Nat.shiftRight_zero]
  omega

theorem high_ofInt (n : Int) : (BitVec.ofInt 32 n).extractLsb' 16 16 = BitVec.ofInt 16 (n / 65536) := by
  apply BitVec.eq_of_toNat_eq
  simp only [BitVec.extractLsb'_toNat, BitVec.toNat_ofInt, Nat.shiftRight_eq_div_pow]
  omega

theorem bit16_ofInt (n : Int) : (BitVec.ofInt 32 n).getLsbD 16 = decide ((n / 65536) % 2 = 1) := by
  simp only [BitVec.getLsbD, BitVec.toNat_ofInt, Nat.testBit_eq_decide_div_mod_eq]
  congr 1
  apply propext
  constructor <;> intro h <;> omega

/-- The exact product is `a * b` modulo 2^16, signed or not. -/
theorem ofInt_exactProduct (signed : Bool) (a b : Word) : BitVec.ofInt 16 (exactProduct signed a b) = a * b := by
  cases signed
  · simp [exactProduct, BitVec.ofInt_mul]
  · simp [exactProduct, BitVec.ofInt_mul]

/-- The low half of the product does not depend on its signedness (R121 (d), R131). -/
theorem mltResult_value (signed : Bool) (a b : Word) : (mltResult (product signed a b)).value = a * b := by
  rw [mltResult, product_eq, low_ofInt, ofInt_exactProduct]

/-- CF after MLT is bit 16 of the exact product (R131). -/
theorem mltResult_carry (signed : Bool) (a b : Word) :
    (mltResult (product signed a b)).carry = some (decide ((exactProduct signed a b / 65536) % 2 = 1)) := by
  rw [mltResult, product_eq, bit16_ofInt]

/-- MLH keeps the exact product divided by 2^16, rounded down (R132). -/
theorem mlhResult_value (m : MlhCf) (signed : Bool) (a b : Word) :
    (mlhResult m (product signed a b)).value = BitVec.ofInt 16 (exactProduct signed a b / 65536) := by
  show (product signed a b).extractLsb' 16 16 = _
  rw [product_eq, high_ofInt]

/-- CF after MLH by `MLH_CF` (R132). -/
theorem mlhResult_carry (m : MlhCf) (signed : Bool) (a b : Word) :
    (mlhResult m (product signed a b)).carry = match m with
      | .productBit16 => some (decide ((exactProduct signed a b / 65536) % 2 = 1))
      | .zero => some false
      | .draw => none := by
  cases m with
  | productBit16 => exact congrArg some (by rw [product_eq, bit16_ofInt])
  | zero => rfl
  | draw => rfl

/-! ### The template -/

/-- What the template of every ALU instruction does, field by field (R120, R122). -/
theorem State.alu_eq (s : State) (op : AluOp) (ra : Reg) (b : Word) (w : Nat) :
    let r := aluResult s.cfg op (s.reg ra) b s.cf
    s.alu op ra b w =
      { s with
        regs := if aluWrites op = true then s.regs.set ra.val r.value ra.isLt else s.regs
        pc := toPc (s.npc w)
        cf := r.carry.getD s.freeBit
        zf := decide (r.value = 0)
        vf := (s.reg ra).msb ^^ r.value.msb
        nf := r.value.msb
        draws := s.draws + (if r.carry = none then 1 else 0) } := by
  intro r
  have hr : aluResult s.cfg op (s.reg ra) b s.cf = r := rfl
  unfold State.alu
  simp only [hr]
  cases hc : r.carry <;> cases hw : aluWrites op <;>
    simp [State.aluFlag, State.setCarry, State.advance, State.jump, State.setReg, State.drawn, State.freeBit,
      State.npc, State.pcAddr]

end Sys2Proof.Machine
end

