-- ==== Sys2Proof/Laws/DecodeValues.lean ====
section
/-! SUPPORT. The value maps of the operand fields and their inverses (R54 to R59). -/

namespace Sys2Proof

theorem relValue_relField {rel : Int} (h : relOk rel = true) : relValue (relField rel) = rel := by
  simp only [relOk, decide_eq_true_eq] at h
  simp only [relValue, relField, BitVec.toInt_ofInt]
  rw [Int.bmod_eq_of_le] <;> omega

theorem relOk_relValue (f : BitVec 8) : relOk (relValue f) = true := by
  have h1 := BitVec.le_toInt f
  have h2 := BitVec.toInt_lt (x := f)
  exact decide_eq_true (by simp only [relValue]; omega)

theorem relField_relValue (f : BitVec 8) : relField (relValue f) = f := by
  simp [relField, relValue]

theorem absValue_absField {abs : Word} (h : absOk abs = true) : absValue (absField abs) = abs := by
  simp only [absOk, decide_eq_true_eq] at h
  apply BitVec.eq_of_toNat_eq
  have e : (absValue (absField abs)).toNat = (absField abs).toNat <<< 1 ||| (0#1).toNat := BitVec.toNat_append _ _
  rw [e]
  simp [absField, Nat.shiftLeft_eq, Nat.shiftRight_eq_div_pow]
  have := abs.isLt
  omega

theorem absValue_toNat (f : BitVec 15) : (absValue f).toNat = 2 * f.toNat := by
  have e : (absValue f).toNat = f.toNat <<< 1 ||| (0#1).toNat := BitVec.toNat_append _ _
  simpa [Nat.shiftLeft_eq, Nat.mul_comm] using e

theorem absOk_absValue (f : BitVec 15) : absOk (absValue f) = true := by
  simp [absOk, absValue_toNat]

theorem absField_absValue (f : BitVec 15) : absField (absValue f) = f := by
  apply BitVec.eq_of_toNat_eq
  have := f.isLt
  simp [absField, absValue_toNat, Nat.shiftRight_eq_div_pow]
  omega

theorem disp4Value_disp4Field {d : Nat} (h : disp4Ok d = true) : disp4Value (disp4Field d) = d := by
  simp only [disp4Ok, decide_eq_true_eq] at h
  simp only [disp4Value, disp4Field, BitVec.toNat_ofNat]
  omega

theorem disp4Ok_disp4Value (f : BitVec 4) : disp4Ok (disp4Value f) = true := by
  have := f.isLt
  exact decide_eq_true (by simp only [disp4Value]; omega)

theorem disp4Field_disp4Value (f : BitVec 4) : disp4Field (disp4Value f) = f := by
  simp [disp4Field, disp4Value]

theorem disp11Value_disp11Field {d : Int} (h : disp11Ok d = true) : disp11Value (disp11Field d) = d := by
  simp only [disp11Ok, decide_eq_true_eq] at h
  simp only [disp11Value, disp11Field, BitVec.toInt_ofInt]
  rw [Int.bmod_eq_of_le] <;> omega

theorem disp11Ok_disp11Value (f : BitVec 11) : disp11Ok (disp11Value f) = true := by
  have h1 := BitVec.le_toInt f
  have h2 := BitVec.toInt_lt (x := f)
  exact decide_eq_true (by simp only [disp11Value]; omega)

theorem disp11Field_disp11Value (f : BitVec 11) : disp11Field (disp11Value f) = f := by
  simp [disp11Field, disp11Value]

theorem imm8Value_imm8Field {n : Nat} (h : imm8Ok n = true) : imm8Value (imm8Field n) = n := by
  simp only [imm8Ok, decide_eq_true_eq] at h
  simp only [imm8Value, imm8Field, BitVec.toNat_ofNat]
  omega

theorem imm8Ok_imm8Value (f : BitVec 8) : imm8Ok (imm8Value f) = true := by
  have := f.isLt
  exact decide_eq_true (by simp only [imm8Value]; omega)

theorem imm8Field_imm8Value (f : BitVec 8) : imm8Field (imm8Value f) = f := by
  simp [imm8Field, imm8Value]

/-- What `withRp` can answer: only R0 to R14 (R53, R62). -/
theorem withRp_ok {rp : Reg} {i j : Instr} : withRp rp i = .ok j ↔ rpOk rp = true ∧ i = j := by
  unfold withRp rpOk
  split <;> simp_all

theorem withRp_of_ok {rp : Reg} (i : Instr) (h : rpOk rp = true) : withRp rp i = .ok i := withRp_ok.mpr ⟨h, rfl⟩

end Sys2Proof
end

