-- ==== Sys2Proof/Laws/Memory.lean ====
section
/-! SUPPORT. Memory: read after write, the canonical form, and what each memory operation can do (R30 to R38). -/

namespace Sys2Proof.Machine

/-! ### The list of bytes -/

/-- Read after write: the byte written, and every other byte as before (R30). -/
theorem Memory.read_write (m : Memory) (a : Nat) (v : Byte) (b : Nat) :
    (Memory.write m a v).read b = if b = a then some v else Memory.read m b := by
  induction m with
  | nil => simp [Memory.write, Memory.read, eq_comm]
  | cons c rest ih =>
    simp only [Memory.write]
    split
    · simp [Memory.read, eq_comm]
    · split
      · next h => subst h; by_cases hb : b = c.1 <;> simp [Memory.read, hb, eq_comm]
      · next h => simp only [Memory.read, ih]; by_cases hb : c.1 = b <;> simp_all [eq_comm]

/-- Writing keeps a lower bound of the addresses below the address written. -/
theorem Memory.rising_cons_write {c : Host.Cell} {m : Memory} {a : Nat} {v : Byte}
    (h : Memory.rising (c :: m) = true) (hc : c.1 < a) : Memory.rising (c :: Memory.write m a v) = true := by
  induction m generalizing c with
  | nil => simp [Memory.write, Memory.rising, hc]
  | cons d rest ih =>
    simp only [Memory.rising, Bool.and_eq_true, decide_eq_true_eq] at h
    simp only [Memory.write]
    split
    · next hd => simp [Memory.rising, hc, hd, h.2]
    · split
      · next hd =>
        subst hd
        cases rest with
        | nil => simp [Memory.rising, h.1]
        | cons e rest => simp_all [Memory.rising]
      · next h1 h2 =>
        have hda : d.1 < a := by omega
        have := ih h.2 hda
        simp [Memory.rising, h.1, this]

theorem Memory.rising_write {m : Memory} (a : Nat) (v : Byte) (h : m.rising = true) :
    (Memory.write m a v).rising = true := by
  cases m with
  | nil => rfl
  | cons c rest =>
    simp only [Memory.write]
    split
    · next hc => simp [Memory.rising, hc, h]
    · split
      · next hc =>
        subst hc
        cases rest with
        | nil => rfl
        | cons e rest => simpa [Memory.rising] using h
      · next h1 h2 => exact Memory.rising_cons_write h (by omega)

theorem Memory.all_write {m : Memory} {a : Nat} {v : Byte} (h : (m.all fun c => decide (c.1 < 65536)) = true)
    (ha : a < 65536) : ((Memory.write m a v).all fun c => decide (c.1 < 65536)) = true := by
  induction m with
  | nil => simp [Memory.write, ha]
  | cons c rest ih =>
    simp only [List.all_cons, Bool.and_eq_true] at h
    simp only [Memory.write]
    split
    · simp [ha, h.1, h.2]
    · split
      · simp [ha, h.2]
      · simp [h.1, ih h.2]

/-- Every write keeps the canonical form. -/
theorem Memory.wf_write {m : Memory} {a : Nat} (v : Byte) (h : m.wf = true) (ha : a < 65536) :
    (Memory.write m a v).wf = true := by
  simp only [Memory.wf, Bool.and_eq_true] at *
  exact ⟨Memory.rising_write a v h.1, Memory.all_write h.2 ha⟩

/-- The memory after reset has the canonical form. -/
theorem State.reset_mem_wf : State.reset.mem.wf = true := rfl

/-- An address below the first one listed is not listed. -/
theorem Memory.read_below {c : Host.Cell} {m : Memory} (h : Memory.rising (c :: m) = true) {a : Nat} (ha : a < c.1) :
    Memory.read (c :: m) a = none := by
  induction m generalizing c with
  | nil => simp [Memory.read]; omega
  | cons d rest ih =>
    simp only [Memory.rising, Bool.and_eq_true, decide_eq_true_eq] at h
    have hne : c.1 ≠ a := by omega
    rw [Memory.read, if_neg hne]
    exact ih h.2 (by omega)

/-- Equal reads are equal data: two memories in canonical form that read alike everywhere are one list. -/
theorem Memory.ext_read {m n : Memory} (hm : m.rising = true) (hn : n.rising = true)
    (h : ∀ a, m.read a = n.read a) : m = n := by
  induction m generalizing n with
  | nil =>
    cases n with
    | nil => rfl
    | cons d rest => have := h d.1; simp [Memory.read] at this
  | cons c rest ih =>
    cases n with
    | nil => have := h c.1; simp [Memory.read] at this
    | cons d rest' =>
      have hcd : c.1 = d.1 := by
        rcases Nat.lt_trichotomy c.1 d.1 with hlt | heq | hgt
        · have := h c.1; rw [Memory.read_below hn hlt] at this; simp [Memory.read] at this
        · exact heq
        · have := h d.1; rw [Memory.read_below hm hgt] at this; simp [Memory.read] at this
      have hv : c.2 = d.2 := by have := h c.1; simpa [Memory.read, hcd] using this
      have hc : c = d := Prod.ext hcd hv
      subst hc
      have tail : ∀ {l : Memory}, Memory.rising (c :: l) = true → l.rising = true ∧ l.read c.1 = none := by
        intro l hl
        cases l with
        | nil => exact ⟨rfl, rfl⟩
        | cons e l =>
          simp only [Memory.rising, Bool.and_eq_true, decide_eq_true_eq] at hl
          exact ⟨hl.2, Memory.read_below hl.2 hl.1⟩
      congr 1
      refine ih (tail hm).1 (tail hn).1 fun a => ?_
      by_cases ha : a = c.1
      · subst ha; rw [(tail hm).2, (tail hn).2]
      · have := h a; simpa [Memory.read, Ne.symm ha] using this

/-! ### Byte accesses -/

@[simp] theorem State.mem_read_pokeByte (s : State) (a : Word) (b : Byte) (n : Nat) :
    (s.pokeByte a b).mem.read n = if n = a.toNat then some b else s.mem.read n := by
  simp [Memory.read_write]

/-- What `access` can answer. -/
theorem State.access_ok {s : State} {a : Word} :
    s.access a = .ok () ↔ s.mapped a = true ∧ s.inText a = false := by
  unfold State.access
  split
  · simp_all
  · split <;> simp_all

/-- What `readByte` can answer: it gives a value exactly for an accessible byte that holds one (R23, R37, R44). -/
theorem State.readByte_ok {s : State} {a : Word} {b : Byte} :
    s.readByte a = .ok b ↔ s.access a = .ok () ∧ s.mem.read a.toNat = some b := by
  unfold State.readByte
  cases s.access a with
  | error e => simp
  | ok u => cases s.mem.read a.toNat <;> simp

/-! ### Word accesses -/

/-- What `wordBytes` can answer (R31, R33). -/
theorem State.wordBytes_ok {s : State} {a : Word} {p : Word × Word} (h : s.wordBytes a = .ok p) :
    p.2 = p.1 + 1 ∧ (p.1 = a ∨ s.cfg.misaligned16 = .ignoreBit0 ∧ p.1 = a &&& 0xFFFE#16) := by
  unfold State.wordBytes at h
  split at h
  · cases h; exact ⟨rfl, .inl rfl⟩
  · split at h
    · cases h
    · next hm => cases h; exact ⟨rfl, .inr ⟨hm, rfl⟩⟩
    · cases h; exact ⟨rfl, .inl rfl⟩

@[simp] theorem State.wordBytes_even (s : State) {a : Word} (h : a.toNat % 2 = 0) :
    s.wordBytes a = .ok (a, a + 1) := by
  simp [State.wordBytes, h]

theorem word_ne_add_one (a : Word) : a.toNat ≠ (a + 1).toNat := by
  have h : (a + 1).toNat = (a.toNat + 1) % 65536 := BitVec.toNat_add a 1
  omega

/-- The two bytes of a word access are different bytes. -/
theorem State.wordBytes_ne {s : State} {a : Word} {p : Word × Word} (h : s.wordBytes a = .ok p) :
    p.1.toNat ≠ p.2.toNat := by
  rw [(State.wordBytes_ok h).1]; exact word_ne_add_one _

/-- What `read16` can answer. -/
theorem State.read16_ok {s : State} {a v : Word} :
    s.read16 a = .ok v ↔ ∃ p x y, s.wordBytes a = .ok p ∧ s.readByte p.1 = .ok x ∧ s.readByte p.2 = .ok y ∧
      v = joinBytes s.cfg.byteOrder x y := by
  unfold State.read16
  cases s.wordBytes a with
  | error e => simp
  | ok p =>
    cases h1 : s.readByte p.1 with
    | error e => simp [h1]
    | ok x =>
      cases h2 : s.readByte p.2 with
      | error e => simp [h1, h2]
      | ok y => simp [h1, h2, eq_comm]

/-- What `write16` can answer. -/
theorem State.write16_ok {s t : State} {a v : Word} :
    s.write16 a v = .ok t ↔ ∃ p, s.wordBytes a = .ok p ∧ s.access p.1 = .ok () ∧ s.access p.2 = .ok () ∧
      t = (s.pokeByte p.1 (lowerByte s.cfg.byteOrder v)).pokeByte p.2 (upperByte s.cfg.byteOrder v) := by
  unfold State.write16
  cases s.wordBytes a with
  | error e => simp
  | ok p =>
    simp only [Except.ok.injEq]
    cases h1 : s.access p.1 with
    | error e => simp [h1]
    | ok x =>
      cases h2 : s.access p.2 with
      | error e => simp [h1, h2]
      | ok y => simp [h1, h2, eq_comm]

/-- What `write8` can answer. -/
theorem State.write8_ok {s t : State} {a : Word} {b : Byte} :
    s.write8 a b = .ok t ↔ s.access a = .ok () ∧ t = s.pokeByte a b := by
  unfold State.write8
  cases s.access a <;> simp [eq_comm]

/-- The two bytes of a word, joined again, are the word, under either byte order (R31, R32). -/
@[simp] theorem joinBytes_split (o : ByteOrder) (v : Word) : joinBytes o (lowerByte o v) (upperByte o v) = v := by
  cases o <;>
  · apply BitVec.eq_of_getLsbD_eq
    intro i hi
    have h16 : i < 16 := by omega
    simp only [joinBytes, lowerByte, upperByte, BitVec.getLsbD_append, BitVec.getLsbD_extractLsb']
    interval_cases i <;> simp

end Sys2Proof.Machine
end

