-- ==== Sys2Proof/Laws/Stack.lean ====
section
/-! SUPPORT. What the stack operations and the two exceptions can do, each said once (R84 to R88, R100, R190, R191). -/

namespace Sys2Proof.Machine

/-! ### Word accesses as effects -/

/-- The state a word store answers: two bytes and nothing else. -/
def State.pokeWord (s : State) (p : Word × Word) (v : Word) : State :=
  (s.pokeByte p.1 (lowerByte s.cfg.byteOrder v)).pokeByte p.2 (upperByte s.cfg.byteOrder v)

theorem State.write16_iff {s t : State} {a v : Word} :
    s.write16 a v = .ok t ↔
      ∃ p, s.wordBytes a = .ok p ∧ s.access p.1 = .ok () ∧ s.access p.2 = .ok () ∧ t = s.pokeWord p v :=
  State.write16_ok

theorem State.mem_read_pokeWord (s : State) (p : Word × Word) (v : Word) (n : Nat) :
    (s.pokeWord p v).mem.read n =
      if n = p.2.toNat then some (upperByte s.cfg.byteOrder v)
      else if n = p.1.toNat then some (lowerByte s.cfg.byteOrder v)
      else s.mem.read n := by
  simp only [State.pokeWord, State.mem_read_pokeByte]

@[simp] theorem State.reg_pokeWord (s : State) (p : Word × Word) (v : Word) (r : Reg) :
    (s.pokeWord p v).reg r = s.reg r := rfl
@[simp] theorem State.sp_pokeWord (s : State) (p : Word × Word) (v : Word) : (s.pokeWord p v).sp = s.sp := rfl
@[simp] theorem State.pc_pokeWord (s : State) (p : Word × Word) (v : Word) : (s.pokeWord p v).pc = s.pc := rfl
@[simp] theorem State.cf_pokeWord (s : State) (p : Word × Word) (v : Word) : (s.pokeWord p v).cf = s.cf := rfl
@[simp] theorem State.zf_pokeWord (s : State) (p : Word × Word) (v : Word) : (s.pokeWord p v).zf = s.zf := rfl
@[simp] theorem State.vf_pokeWord (s : State) (p : Word × Word) (v : Word) : (s.pokeWord p v).vf = s.vf := rfl
@[simp] theorem State.nf_pokeWord (s : State) (p : Word × Word) (v : Word) : (s.pokeWord p v).nf = s.nf := rfl
@[simp] theorem State.iflag_pokeWord (s : State) (p : Word × Word) (v : Word) :
    (s.pokeWord p v).iflag = s.iflag := rfl
@[simp] theorem State.inputs_pokeWord (s : State) (p : Word × Word) (v : Word) :
    (s.pokeWord p v).inputs = s.inputs := rfl
@[simp] theorem State.prog_pokeWord (s : State) (p : Word × Word) (v : Word) : (s.pokeWord p v).prog = s.prog := rfl
@[simp] theorem State.cfg_pokeWord (s : State) (p : Word × Word) (v : Word) : (s.pokeWord p v).cfg = s.cfg := rfl
@[simp] theorem State.cycles_pokeWord (s : State) (p : Word × Word) (v : Word) :
    (s.pokeWord p v).cycles = s.cycles := rfl
@[simp] theorem State.draws_pokeWord (s : State) (p : Word × Word) (v : Word) :
    (s.pokeWord p v).draws = s.draws := rfl
@[simp] theorem State.access_pokeWord (s : State) (p : Word × Word) (v a : Word) :
    (s.pokeWord p v).access a = s.access a := rfl
@[simp] theorem State.wordBytes_pokeWord (s : State) (p : Word × Word) (v a : Word) :
    (s.pokeWord p v).wordBytes a = s.wordBytes a := rfl
@[simp] theorem State.pcAddr_pokeWord (s : State) (p : Word × Word) (v : Word) :
    (s.pokeWord p v).pcAddr = s.pcAddr := rfl

/-- A state in which a word was stored at `a`, and whose memory, text and configuration were then left alone, gives
the word back at `a` (R31). -/
theorem State.read16_of_stored {s t : State} {a v : Word} {p : Word × Word} (hp : s.wordBytes a = .ok p)
    (h1 : s.access p.1 = .ok ()) (h2 : s.access p.2 = .ok ()) (hm : t.mem = (s.pokeWord p v).mem)
    (hprog : t.prog = s.prog) (hcfg : t.cfg = s.cfg) : t.read16 a = .ok v := by
  have hacc : ∀ b, t.access b = s.access b := by
    intro b; simp [State.access, State.mapped, State.inText, hprog, hcfg]
  have hwb : t.wordBytes a = .ok p := by rw [← hp]; simp [State.wordBytes, hcfg]
  refine State.read16_ok.mpr ⟨p, lowerByte s.cfg.byteOrder v, upperByte s.cfg.byteOrder v, hwb, ?_, ?_, ?_⟩
  · refine State.readByte_ok.mpr ⟨by rw [hacc, h1], ?_⟩
    rw [hm, State.mem_read_pokeWord, if_neg (State.wordBytes_ne hp), if_pos rfl]
  · refine State.readByte_ok.mpr ⟨by rw [hacc, h2], ?_⟩
    rw [hm, State.mem_read_pokeWord, if_pos rfl]
  · rw [hcfg, joinBytes_split]

/-! ### Stack -/

/-- What a push can do (R84, R100). -/
theorem State.pushWord_ok {s t : State} {v : Word} :
    s.pushWord v = .ok t ↔ ∃ p, s.wordBytes (s.sp - 2) = .ok p ∧ s.access p.1 = .ok () ∧ s.access p.2 = .ok () ∧
      t = (s.setReg spReg (s.sp - 2)).pokeWord p v := by
  rw [State.pushWord, State.write16_iff]; rfl

/-- What a call can do (R84, R85). -/
theorem State.call_ok {s t : State} {target : Word} {w : Nat} :
    s.call target w = .ok t ↔ ∃ u, s.pushWord (returnWord (s.npc w) s.iflag) = .ok u ∧ t = u.jump target := by
  unfold State.call
  cases s.pushWord (returnWord (s.npc w) s.iflag) <;> simp [eq_comm]

/-- What a return can do (R86 to R88). -/
theorem State.popReturn_ok {s t : State} :
    s.popReturn = .ok t ↔ ∃ v, s.read16 s.sp = .ok v ∧ t = (s.jump v).setReg spReg (s.sp + 2) := by
  unfold State.popReturn
  cases s.read16 s.sp <;> simp [eq_comm]

/-! ### Exceptions -/

/-- What the RESET exception can do (R190). -/
theorem State.takeReset_ok {s t : State} :
    s.takeReset = .ok t ↔
      ∃ v, s.read16 (vectorAddr s.cfg.resetVector) = .ok v ∧ t = ((s.setIF false).jump v).tick 2 := by
  unfold State.takeReset
  rw [State.read16_setIF]
  cases s.read16 (vectorAddr s.cfg.resetVector) <;> simp [eq_comm]

/-- What the interrupt exception can do (R191). -/
theorem State.takeInterrupt_ok {s t : State} {v : BitVec 15} :
    s.takeInterrupt v = .ok t ↔
      ∃ u x, (s.setIF false).afterPushedIF.pushWord (returnWord s.pcAddr (s.pushedIF s.iflag)) = .ok u ∧
        u.read16 (vectorAddr v) = .ok x ∧ t = (u.jump x).tick 3 := by
  unfold State.takeInterrupt
  cases (s.setIF false).afterPushedIF.pushWord (returnWord s.pcAddr (s.pushedIF s.iflag)) with
  | error e => simp
  | ok u => cases h : u.read16 (vectorAddr v) <;> simp [h, eq_comm]

/-- The draw of the pushed bit touches nothing but the counter of draws. -/
theorem State.afterPushedIF_eq (s : State) :
    s.afterPushedIF = { s with draws := s.draws + (if s.cfg.intPushedIf = .draw then 1 else 0) } := by
  unfold State.afterPushedIF
  cases h : s.cfg.intPushedIf <;> simp [State.drawn]

end Sys2Proof.Machine
end

