-- ==== Sys2Proof/Laws/Exec.lean ====
section
/-! SUPPORT. The shared operations in the terms of Safety.lean, each said once: what a boundary without exception,
a MEM16 read, a jump, the end of an instruction, the ALU template and the memory operations do. -/

namespace Sys2Proof.Machine

/-! ### The program counter -/

/-- `pc <- npc` adds the word count to PC (R14). -/
@[simp] theorem State.pc_advance_eq (s : State) (w : Nat) : toPc (s.npc w) = s.pc + BitVec.ofNat 15 w := by
  apply BitVec.eq_of_toNat_eq
  have hp := s.pcAddr_toNat
  have hl := s.pc.isLt
  simp only [toPc, State.npc, BitVec.extractLsb'_toNat, BitVec.toNat_add, BitVec.toNat_ofNat, hp,
    Nat.shiftRight_eq_div_pow]
  omega

theorem State.advance_eq (s : State) (w : Nat) : s.advance w = { s with pc := s.pc + BitVec.ofNat 15 w } := by
  rw [State.advance, State.jump, State.pc_advance_eq]

/-- The return word of an even address is that address plus its flag bit (R18). -/
theorem returnWord_even {a : Word} (h : a.toNat % 2 = 0) (b : Bool) :
    returnWord a b = a + (if b = true then 1 else 0) := by
  have h1 : (returnWord a b).toNat = (toPc a).toNat <<< 1 ||| (BitVec.ofBool b).toNat := BitVec.toNat_append _ _
  have ha := a.isLt
  have ht : (toPc a).toNat = a.toNat / 2 := by
    simp only [toPc, BitVec.extractLsb'_toNat, Nat.shiftRight_eq_div_pow]; omega
  have h2 : (toPc a).toNat <<< 1 ||| (BitVec.ofBool b).toNat = 2 * (toPc a).toNat + b.toNat := by
    cases b
    · simp [Nat.shiftLeft_eq, Nat.mul_comm]
    · rw [Nat.shiftLeft_eq, Nat.mul_comm]
      exact (Nat.two_pow_add_eq_or_of_lt (i := 1) (b := 1) (by decide) _).symm
  apply BitVec.eq_of_toNat_eq
  rw [h1, h2, ht]
  cases b <;> simp [BitVec.toNat_add] <;> omega

/-- A conditional jump in one line (R81 to R83). -/
theorem State.jumpIf_eq (s : State) (c : Cond) (target : Word) (w : Nat) :
    s.jumpIf c target w = { s with pc := if s.holds c = true then toPc target else s.pc + BitVec.ofNat 15 w } := by
  unfold State.jumpIf State.jump
  split <;> simp

theorem State.pcAddr_jumpIf (s : State) (c : Cond) (target : Word) (w : Nat) :
    (s.jumpIf c target w).pcAddr =
      if s.holds c = true then target &&& 0xFFFE#16 else s.pcAddr + BitVec.ofNat 16 (2 * w) := by
  unfold State.jumpIf
  rw [State.pcAddr_jump]
  split
  · rfl
  · rw [and_fffe_of_even (s.npc_even w), State.npc]

/-! ### Reads -/

/-- An access goes through exactly where no byte is blocked, and else is refused on that ground (R37, R44). -/
theorem State.access_eq (s : State) (a : Word) :
    s.access a = match s.blocked a with | none => .ok () | some r => .error (.refused r) := by
  unfold State.access State.blocked
  split
  · rfl
  · split <;> rfl

/-- All a byte read can answer: a refusal where the byte is blocked, the fault where it holds no value, else its
value (R23, R37, R44). -/
theorem State.readByte_eq (s : State) (a : Word) :
    s.readByte a = match s.blocked a, s.mem.read a.toNat with
      | some r, _ => .error (.refused r)
      | none, none => .error (.fault .valuelessByte)
      | none, some b => .ok b := by
  unfold State.readByte
  rw [State.access_eq]
  cases s.blocked a <;> cases s.mem.read a.toNat <;> rfl

/-- `Holds16` is what a MEM16 read answers on. -/
theorem holds16_iff {s : State} {a v : Word} : Holds16 s a v ↔ s.read16 a = .ok v := by
  rw [State.read16_ok]
  constructor
  · rintro ⟨p, x, y, ⟨h1, h2, h3⟩, h4, h5, rfl⟩
    exact ⟨p, x, y, h1, State.readByte_ok.mpr ⟨h2, h4⟩, State.readByte_ok.mpr ⟨h3, h5⟩, rfl⟩
  · rintro ⟨p, x, y, h1, h2, h3, rfl⟩
    obtain ⟨h2, h4⟩ := State.readByte_ok.mp h2
    obtain ⟨h3, h5⟩ := State.readByte_ok.mp h3
    exact ⟨p, x, y, ⟨h1, h2, h3⟩, h4, h5, rfl⟩

/-- A MEM16 write to two accessible bytes is the store of both. -/
theorem State.write16_accessible {s : State} {a v : Word} {p : Word × Word} (h : Accessible16 s a p) :
    s.write16 a v = .ok (s.pokeWord p v) :=
  State.write16_iff.mpr ⟨p, h.1, h.2.1, h.2.2, rfl⟩

/-- A push whose two bytes are accessible is the new R15 and the store of both (R100). -/
theorem State.pushWord_accessible {s : State} {v : Word} {p : Word × Word} (h : Accessible16 s (s.sp - 2) p) :
    s.pushWord v = .ok ((s.setReg spReg (s.sp - 2)).pokeWord p v) :=
  State.pushWord_ok.mpr ⟨p, h.1, h.2.1, h.2.2, rfl⟩

/-! ### The FLAG word -/

theorem State.flagWord_eq (s : State) : s.flagWord =
    BitVec.ofNat 16 (16 * s.iflag.toNat + 8 * s.nf.toNat + 4 * s.vf.toNat + 2 * s.zf.toNat + s.cf.toNat) := by
  unfold State.flagWord
  cases s.iflag <;> cases s.nf <;> cases s.vf <;> cases s.zf <;> cases s.cf <;> rfl

/-! ### The ALU template -/

/-- The template of an ALU instruction has the effect Safety.lean names, for the result of its operator (R122). -/
theorem State.alu_effect (s : State) (op : AluOp) (ra : Reg) (b : Word) (w : Nat) :
    AluEffect ra w (aluResult s.cfg op (s.reg ra) b s.cf).value (aluResult s.cfg op (s.reg ra) b s.cf).carry
      (aluWrites op) s (s.alu op ra b w) := by
  have h := s.alu_eq op ra b w
  simp only at h
  rw [h]
  refine ⟨fun r => ?_, (BitVec.msb_eq_getLsbD_last (aluResult s.cfg op (s.reg ra) b s.cf).value :), by simp, ?_, fun c hc => ?_, fun hc => ?_, rfl, fun _ => rfl,
    ⟨rfl, rfl, rfl, rfl⟩, by simp⟩
  · cases hw : aluWrites op
    · simp [State.reg]
    · exact (s.reg_setReg ra r _).trans (by simp)
  · simp only [BitVec.msb_eq_getLsbD_last]
  · simp [hc]
  · simp [hc, State.freeBit]

/-! ### Steps -/

/-- With no exception at the coming boundary, the step is the instruction at PC (R194). -/
theorem step_of_no_exception {s : State} (h1 : s.boundary.reset = false)
    (h2 : s.iflag = false ∨ s.boundary.irq = none) : step s = s.passBoundary.runInstr := by
  have ha : s.accepted s.boundary = none := by
    unfold State.accepted; rcases h2 with h | h <;> simp [h]
  simp [step, h1, ha]

/-- What `fetch` can answer (R44, R62). -/
theorem State.fetch_ok {s : State} {i : Instr} :
    s.fetch = .ok i ↔ findEntry s.prog s.pc = some i ∧ i.wellFormed = true := by
  unfold State.fetch
  cases findEntry s.prog s.pc with
  | none => simp
  | some j =>
    by_cases hj : j.wellFormed = true
    · simp only [hj, if_true, Except.ok.injEq, Option.some.injEq]
      exact ⟨fun h => ⟨h, h ▸ hj⟩, fun h => h.1⟩
    · simp only [if_neg hj, Option.some.injEq, reduceCtorEq, false_iff]
      rintro ⟨rfl, h⟩
      exact hj h

/-- The three ways a step answers a next state: RESET, an interrupt, an instruction. -/
theorem step_next {s t : State} (h : step s = .next t) :
    (s.boundary.reset = true ∧ s.passBoundary.takeReset = .ok t) ∨
    (∃ v, s.boundary.reset = false ∧ s.accepted s.boundary = some v ∧ s.passBoundary.takeInterrupt v = .ok t) ∨
    (∃ i u, s.boundary.reset = false ∧ s.accepted s.boundary = none ∧ findEntry s.prog s.pc = some i ∧
      i.wellFormed = true ∧ exec i s.passBoundary = .next u ∧ t = u.tick (instrCycles i)) := by
  unfold step at h
  split at h
  · next hb =>
    obtain ⟨v, hv, rfl⟩ := finish_next.mp h
    exact .inl ⟨hb, hv⟩
  · next hb =>
    have hb : s.boundary.reset = false := by simpa using hb
    split at h
    · next v hv =>
      obtain ⟨u, hu, rfl⟩ := finish_next.mp h
      exact .inr (.inl ⟨v, hb, hv, hu⟩)
    · next hv =>
      refine .inr (.inr ?_)
      unfold State.runInstr at h
      split at h
      · next e he => cases e <;> cases h
      · next i hi =>
        split at h
        · next u hu =>
          cases h
          exact ⟨i, u, hb, hv, (State.fetch_ok.mp hi).1, (State.fetch_ok.mp hi).2, hu, rfl⟩
        · cases h
        · cases h

/-! ### The canonical form of memory -/

/-- A byte store keeps memory in canonical form. -/
theorem State.wf_pokeByte {s : State} (a : Word) (b : Byte) (h : s.mem.wf = true) : (s.pokeByte a b).mem.wf = true :=
  Memory.wf_write b h a.isLt

/-- A word store keeps memory in canonical form. -/
theorem State.wf_pokeWord {s : State} (p : Word × Word) (v : Word) (h : s.mem.wf = true) :
    (s.pokeWord p v).mem.wf = true :=
  State.wf_pokeByte _ _ (State.wf_pokeByte _ _ h)

theorem State.wf_write8 {s t : State} {a : Word} {b : Byte} (h : s.mem.wf = true) (hw : s.write8 a b = .ok t) :
    t.mem.wf = true := by
  obtain ⟨-, rfl⟩ := State.write8_ok.mp hw
  exact State.wf_pokeByte _ _ h

theorem State.wf_write16 {s t : State} {a v : Word} (h : s.mem.wf = true) (hw : s.write16 a v = .ok t) :
    t.mem.wf = true := by
  obtain ⟨p, -, -, -, rfl⟩ := State.write16_iff.mp hw
  exact State.wf_pokeWord p v h

theorem State.wf_pushWord {s t : State} {v : Word} (h : s.mem.wf = true) (hw : s.pushWord v = .ok t) :
    t.mem.wf = true :=
  State.wf_write16 (s := s.setReg spReg (s.sp - 2)) h hw

theorem State.wf_call {s t : State} {target : Word} {w : Nat} (h : s.mem.wf = true) (hw : s.call target w = .ok t) :
    t.mem.wf = true := by
  obtain ⟨u, hu, rfl⟩ := State.call_ok.mp hw
  exact (State.wf_pushWord h hu : u.mem.wf = true)

theorem State.wf_popReturn {s t : State} (h : s.mem.wf = true) (hw : s.popReturn = .ok t) : t.mem.wf = true := by
  obtain ⟨v, -, rfl⟩ := State.popReturn_ok.mp hw
  exact h

theorem State.wf_takeReset {s t : State} (h : s.mem.wf = true) (hw : s.takeReset = .ok t) : t.mem.wf = true := by
  obtain ⟨v, -, rfl⟩ := State.takeReset_ok.mp hw
  exact h

theorem State.wf_takeInterrupt {s t : State} {v : BitVec 15} (h : s.mem.wf = true) (hw : s.takeInterrupt v = .ok t) :
    t.mem.wf = true := by
  obtain ⟨u, x, hu, -, rfl⟩ := State.takeInterrupt_ok.mp hw
  refine (State.wf_pushWord (s := (s.setIF false).afterPushedIF) ?_ hu : u.mem.wf = true)
  rw [State.afterPushedIF_eq]
  exact h

/-! ### Decoding -/

/-- What `decodeWords` can answer: an instruction and the words after it (R62). -/
theorem decodeWords_ok {e : Encoding} {ws rest : List Word} {i : Instr} :
    decodeWords e ws = .ok (i, rest) ↔ ws ≠ [] ∧ i.words ≤ ws.length ∧ rest = ws.drop i.words ∧
      ∃ f, e.read ws = some f ∧ decodeFields f = .ok i := by
  cases ws with
  | nil => simp [decodeWords]
  | cons w ws =>
    simp only [decodeWords]
    cases hr : e.read (w :: ws) with
    | none => simp
    | some f =>
      cases hd : decodeFields f with
      | error x => simp [hd]
      | ok j =>
        by_cases hl : (w :: ws).length < j.words
        · simp only [hd, hl, if_true, reduceCtorEq, false_iff]
          rintro ⟨-, h, -, g, hg, hi⟩
          cases hg
          rw [hd] at hi
          cases hi
          omega
        · simp only [hd, hl, if_false, Except.ok.injEq, Prod.mk.injEq]
          constructor
          · rintro ⟨rfl, rfl⟩
            exact ⟨by simp, by omega, rfl, f, rfl, hd⟩
          · rintro ⟨-, -, rfl, g, hg, hi⟩
            cases hg
            rw [hd] at hi
            cases hi
            exact ⟨rfl, rfl⟩

/-- What operand fields decode to is well-formed (R53 to R59). -/
theorem decodeFields_wf {f : Fields} {i : Instr} (h : decodeFields f = .ok i) : i.wellFormed = true := by
  cases f with
  | plain op => cases op <;> cases h <;> rfl
  | ccRel8 c rel => cases c <;> cases h <;> exact relOk_relValue rel
  | ccRb c rb => cases c <;> cases h <;> rfl
  | ccAbs15 c a => cases c <;> cases h <;> exact absOk_absValue a
  | rb rb => cases h; rfl
  | abs15 a => cases h; exact absOk_absValue a
  | rp op rp =>
    obtain ⟨h1, rfl⟩ := withRp_ok.mp h
    cases op <;> exact h1
  | raRpDisp4 op ra rp d =>
    obtain ⟨h1, rfl⟩ := withRp_ok.mp h
    cases op <;> simp [Instr.wellFormed, shortMemInstr, h1, disp4Ok_disp4Value]
  | raRpDisp11 op ra rp d =>
    obtain ⟨h1, rfl⟩ := withRp_ok.mp h
    cases op <;> simp [Instr.wellFormed, longMemInstr, h1, disp11Ok_disp11Value]
  | raRb op ra rb => cases op <;> cases h <;> rfl
  | raImm8 op ra n => cases op <;> cases h <;> exact imm8Ok_imm8Value n
  | raImm16 op ra n => cases op <;> cases h <;> rfl

end Sys2Proof.Machine
end

