-- ==== Sys2Proof/Laws/PerInstr.lean ====
section
/-! SUPPORT. The families of statements proved instruction by instruction. -/

open Sys2Proof

/-- `FieldsRoundTrip`: the operand fields of the instruction, if it is well-formed, decode to it (R52 to R60). -/
def Sys2Proof.Laws.FieldsRoundTrip.Statement (i : Instr) : Prop :=
  i.wellFormed = true → decodeFields (fieldsOf i) = .ok i

open Sys2Proof.Laws.FieldsRoundTrip

theorem Sys2Proof.Laws.FieldsRoundTrip.nop : Statement .nop :=
  fun _ => rfl

theorem Sys2Proof.Laws.FieldsRoundTrip.clc : Statement .clc :=
  fun _ => rfl

theorem Sys2Proof.Laws.FieldsRoundTrip.stc : Statement .stc :=
  fun _ => rfl

theorem Sys2Proof.Laws.FieldsRoundTrip.clz : Statement .clz :=
  fun _ => rfl

theorem Sys2Proof.Laws.FieldsRoundTrip.stz : Statement .stz :=
  fun _ => rfl

theorem Sys2Proof.Laws.FieldsRoundTrip.cli : Statement .cli :=
  fun _ => rfl

theorem Sys2Proof.Laws.FieldsRoundTrip.sti : Statement .sti :=
  fun _ => rfl

theorem Sys2Proof.Laws.FieldsRoundTrip.ret : Statement .ret :=
  fun _ => rfl

theorem Sys2Proof.Laws.FieldsRoundTrip.retCli : Statement .retCli :=
  fun _ => rfl

theorem Sys2Proof.Laws.FieldsRoundTrip.retSti : Statement .retSti :=
  fun _ => rfl

theorem Sys2Proof.Laws.FieldsRoundTrip.pushFlag : Statement .pushFlag :=
  fun _ => rfl

theorem Sys2Proof.Laws.FieldsRoundTrip.popFlag : Statement .popFlag :=
  fun _ => rfl

theorem Sys2Proof.Laws.FieldsRoundTrip.bcs (rel : Int) : Statement (.bcs rel) :=
  fun h => congrArg (fun v => Except.ok (Instr.bcs v)) (relValue_relField h)

theorem Sys2Proof.Laws.FieldsRoundTrip.bcc (rel : Int) : Statement (.bcc rel) :=
  fun h => congrArg (fun v => Except.ok (Instr.bcc v)) (relValue_relField h)

theorem Sys2Proof.Laws.FieldsRoundTrip.beq (rel : Int) : Statement (.beq rel) :=
  fun h => congrArg (fun v => Except.ok (Instr.beq v)) (relValue_relField h)

theorem Sys2Proof.Laws.FieldsRoundTrip.bne (rel : Int) : Statement (.bne rel) :=
  fun h => congrArg (fun v => Except.ok (Instr.bne v)) (relValue_relField h)

theorem Sys2Proof.Laws.FieldsRoundTrip.bvs (rel : Int) : Statement (.bvs rel) :=
  fun h => congrArg (fun v => Except.ok (Instr.bvs v)) (relValue_relField h)

theorem Sys2Proof.Laws.FieldsRoundTrip.bvc (rel : Int) : Statement (.bvc rel) :=
  fun h => congrArg (fun v => Except.ok (Instr.bvc v)) (relValue_relField h)

theorem Sys2Proof.Laws.FieldsRoundTrip.bmi (rel : Int) : Statement (.bmi rel) :=
  fun h => congrArg (fun v => Except.ok (Instr.bmi v)) (relValue_relField h)

theorem Sys2Proof.Laws.FieldsRoundTrip.bpl (rel : Int) : Statement (.bpl rel) :=
  fun h => congrArg (fun v => Except.ok (Instr.bpl v)) (relValue_relField h)

theorem Sys2Proof.Laws.FieldsRoundTrip.bls (rel : Int) : Statement (.bls rel) :=
  fun h => congrArg (fun v => Except.ok (Instr.bls v)) (relValue_relField h)

theorem Sys2Proof.Laws.FieldsRoundTrip.bhi (rel : Int) : Statement (.bhi rel) :=
  fun h => congrArg (fun v => Except.ok (Instr.bhi v)) (relValue_relField h)

theorem Sys2Proof.Laws.FieldsRoundTrip.blt (rel : Int) : Statement (.blt rel) :=
  fun h => congrArg (fun v => Except.ok (Instr.blt v)) (relValue_relField h)

theorem Sys2Proof.Laws.FieldsRoundTrip.bge (rel : Int) : Statement (.bge rel) :=
  fun h => congrArg (fun v => Except.ok (Instr.bge v)) (relValue_relField h)

theorem Sys2Proof.Laws.FieldsRoundTrip.ble (rel : Int) : Statement (.ble rel) :=
  fun h => congrArg (fun v => Except.ok (Instr.ble v)) (relValue_relField h)

theorem Sys2Proof.Laws.FieldsRoundTrip.bgt (rel : Int) : Statement (.bgt rel) :=
  fun h => congrArg (fun v => Except.ok (Instr.bgt v)) (relValue_relField h)

theorem Sys2Proof.Laws.FieldsRoundTrip.bra (rel : Int) : Statement (.bra rel) :=
  fun h => congrArg (fun v => Except.ok (Instr.bra v)) (relValue_relField h)

theorem Sys2Proof.Laws.FieldsRoundTrip.jcsR (rb : Reg) : Statement (.jcsR rb) :=
  fun _ => rfl

theorem Sys2Proof.Laws.FieldsRoundTrip.jccR (rb : Reg) : Statement (.jccR rb) :=
  fun _ => rfl

theorem Sys2Proof.Laws.FieldsRoundTrip.jeqR (rb : Reg) : Statement (.jeqR rb) :=
  fun _ => rfl

theorem Sys2Proof.Laws.FieldsRoundTrip.jneR (rb : Reg) : Statement (.jneR rb) :=
  fun _ => rfl

theorem Sys2Proof.Laws.FieldsRoundTrip.jvsR (rb : Reg) : Statement (.jvsR rb) :=
  fun _ => rfl

theorem Sys2Proof.Laws.FieldsRoundTrip.jvcR (rb : Reg) : Statement (.jvcR rb) :=
  fun _ => rfl

theorem Sys2Proof.Laws.FieldsRoundTrip.jmiR (rb : Reg) : Statement (.jmiR rb) :=
  fun _ => rfl

theorem Sys2Proof.Laws.FieldsRoundTrip.jplR (rb : Reg) : Statement (.jplR rb) :=
  fun _ => rfl

theorem Sys2Proof.Laws.FieldsRoundTrip.jlsR (rb : Reg) : Statement (.jlsR rb) :=
  fun _ => rfl

theorem Sys2Proof.Laws.FieldsRoundTrip.jhiR (rb : Reg) : Statement (.jhiR rb) :=
  fun _ => rfl

theorem Sys2Proof.Laws.FieldsRoundTrip.jltR (rb : Reg) : Statement (.jltR rb) :=
  fun _ => rfl

theorem Sys2Proof.Laws.FieldsRoundTrip.jgeR (rb : Reg) : Statement (.jgeR rb) :=
  fun _ => rfl

theorem Sys2Proof.Laws.FieldsRoundTrip.jleR (rb : Reg) : Statement (.jleR rb) :=
  fun _ => rfl

theorem Sys2Proof.Laws.FieldsRoundTrip.jgtR (rb : Reg) : Statement (.jgtR rb) :=
  fun _ => rfl

theorem Sys2Proof.Laws.FieldsRoundTrip.jmpR (rb : Reg) : Statement (.jmpR rb) :=
  fun _ => rfl

theorem Sys2Proof.Laws.FieldsRoundTrip.jcsA (abs : Word) : Statement (.jcsA abs) :=
  fun h => congrArg (fun v => Except.ok (Instr.jcsA v)) (absValue_absField h)

theorem Sys2Proof.Laws.FieldsRoundTrip.jccA (abs : Word) : Statement (.jccA abs) :=
  fun h => congrArg (fun v => Except.ok (Instr.jccA v)) (absValue_absField h)

theorem Sys2Proof.Laws.FieldsRoundTrip.jeqA (abs : Word) : Statement (.jeqA abs) :=
  fun h => congrArg (fun v => Except.ok (Instr.jeqA v)) (absValue_absField h)

theorem Sys2Proof.Laws.FieldsRoundTrip.jneA (abs : Word) : Statement (.jneA abs) :=
  fun h => congrArg (fun v => Except.ok (Instr.jneA v)) (absValue_absField h)

theorem Sys2Proof.Laws.FieldsRoundTrip.jvsA (abs : Word) : Statement (.jvsA abs) :=
  fun h => congrArg (fun v => Except.ok (Instr.jvsA v)) (absValue_absField h)

theorem Sys2Proof.Laws.FieldsRoundTrip.jvcA (abs : Word) : Statement (.jvcA abs) :=
  fun h => congrArg (fun v => Except.ok (Instr.jvcA v)) (absValue_absField h)

theorem Sys2Proof.Laws.FieldsRoundTrip.jmiA (abs : Word) : Statement (.jmiA abs) :=
  fun h => congrArg (fun v => Except.ok (Instr.jmiA v)) (absValue_absField h)

theorem Sys2Proof.Laws.FieldsRoundTrip.jplA (abs : Word) : Statement (.jplA abs) :=
  fun h => congrArg (fun v => Except.ok (Instr.jplA v)) (absValue_absField h)

theorem Sys2Proof.Laws.FieldsRoundTrip.jlsA (abs : Word) : Statement (.jlsA abs) :=
  fun h => congrArg (fun v => Except.ok (Instr.jlsA v)) (absValue_absField h)

theorem Sys2Proof.Laws.FieldsRoundTrip.jhiA (abs : Word) : Statement (.jhiA abs) :=
  fun h => congrArg (fun v => Except.ok (Instr.jhiA v)) (absValue_absField h)

theorem Sys2Proof.Laws.FieldsRoundTrip.jltA (abs : Word) : Statement (.jltA abs) :=
  fun h => congrArg (fun v => Except.ok (Instr.jltA v)) (absValue_absField h)

theorem Sys2Proof.Laws.FieldsRoundTrip.jgeA (abs : Word) : Statement (.jgeA abs) :=
  fun h => congrArg (fun v => Except.ok (Instr.jgeA v)) (absValue_absField h)

theorem Sys2Proof.Laws.FieldsRoundTrip.jleA (abs : Word) : Statement (.jleA abs) :=
  fun h => congrArg (fun v => Except.ok (Instr.jleA v)) (absValue_absField h)

theorem Sys2Proof.Laws.FieldsRoundTrip.jgtA (abs : Word) : Statement (.jgtA abs) :=
  fun h => congrArg (fun v => Except.ok (Instr.jgtA v)) (absValue_absField h)

theorem Sys2Proof.Laws.FieldsRoundTrip.jmpA (abs : Word) : Statement (.jmpA abs) :=
  fun h => congrArg (fun v => Except.ok (Instr.jmpA v)) (absValue_absField h)

theorem Sys2Proof.Laws.FieldsRoundTrip.jsrR (rb : Reg) : Statement (.jsrR rb) :=
  fun _ => rfl

theorem Sys2Proof.Laws.FieldsRoundTrip.jsrA (abs : Word) : Statement (.jsrA abs) :=
  fun h => congrArg (fun v => Except.ok (Instr.jsrA v)) (absValue_absField h)

theorem Sys2Proof.Laws.FieldsRoundTrip.push (rp : Reg) : Statement (.push rp) :=
  fun h => withRp_of_ok _ h

theorem Sys2Proof.Laws.FieldsRoundTrip.pop (rp : Reg) : Statement (.pop rp) :=
  fun h => withRp_of_ok _ h

theorem Sys2Proof.Laws.FieldsRoundTrip.ldm (ra rp : Reg) (disp : Nat) : Statement (.ldm ra rp disp) :=
  by
  intro h
  simp only [Instr.wellFormed, Bool.and_eq_true] at h
  simp only [decodeFields, fieldsOf, disp4Value_disp4Field h.2]
  exact withRp_of_ok _ h.1

theorem Sys2Proof.Laws.FieldsRoundTrip.stm (rp : Reg) (disp : Nat) (ra : Reg) : Statement (.stm rp disp ra) :=
  by
  intro h
  simp only [Instr.wellFormed, Bool.and_eq_true] at h
  simp only [decodeFields, fieldsOf, disp4Value_disp4Field h.2]
  exact withRp_of_ok _ h.1

theorem Sys2Proof.Laws.FieldsRoundTrip.ldw (ra rp : Reg) (disp : Int) : Statement (.ldw ra rp disp) :=
  by
  intro h
  simp only [Instr.wellFormed, Bool.and_eq_true] at h
  simp only [decodeFields, fieldsOf, disp11Value_disp11Field h.2]
  exact withRp_of_ok _ h.1

theorem Sys2Proof.Laws.FieldsRoundTrip.stw (rp : Reg) (disp : Int) (ra : Reg) : Statement (.stw rp disp ra) :=
  by
  intro h
  simp only [Instr.wellFormed, Bool.and_eq_true] at h
  simp only [decodeFields, fieldsOf, disp11Value_disp11Field h.2]
  exact withRp_of_ok _ h.1

theorem Sys2Proof.Laws.FieldsRoundTrip.ldb (ra rp : Reg) (disp : Int) : Statement (.ldb ra rp disp) :=
  by
  intro h
  simp only [Instr.wellFormed, Bool.and_eq_true] at h
  simp only [decodeFields, fieldsOf, disp11Value_disp11Field h.2]
  exact withRp_of_ok _ h.1

theorem Sys2Proof.Laws.FieldsRoundTrip.stb (rp : Reg) (disp : Int) (ra : Reg) : Statement (.stb rp disp ra) :=
  by
  intro h
  simp only [Instr.wellFormed, Bool.and_eq_true] at h
  simp only [decodeFields, fieldsOf, disp11Value_disp11Field h.2]
  exact withRp_of_ok _ h.1

theorem Sys2Proof.Laws.FieldsRoundTrip.movR (ra rb : Reg) : Statement (.movR ra rb) :=
  fun _ => rfl

theorem Sys2Proof.Laws.FieldsRoundTrip.andR (ra rb : Reg) : Statement (.andR ra rb) :=
  fun _ => rfl

theorem Sys2Proof.Laws.FieldsRoundTrip.orR (ra rb : Reg) : Statement (.orR ra rb) :=
  fun _ => rfl

theorem Sys2Proof.Laws.FieldsRoundTrip.xorR (ra rb : Reg) : Statement (.xorR ra rb) :=
  fun _ => rfl

theorem Sys2Proof.Laws.FieldsRoundTrip.addR (ra rb : Reg) : Statement (.addR ra rb) :=
  fun _ => rfl

theorem Sys2Proof.Laws.FieldsRoundTrip.adcR (ra rb : Reg) : Statement (.adcR ra rb) :=
  fun _ => rfl

theorem Sys2Proof.Laws.FieldsRoundTrip.subR (ra rb : Reg) : Statement (.subR ra rb) :=
  fun _ => rfl

theorem Sys2Proof.Laws.FieldsRoundTrip.sbcR (ra rb : Reg) : Statement (.sbcR ra rb) :=
  fun _ => rfl

theorem Sys2Proof.Laws.FieldsRoundTrip.mltR (ra rb : Reg) : Statement (.mltR ra rb) :=
  fun _ => rfl

theorem Sys2Proof.Laws.FieldsRoundTrip.mlhR (ra rb : Reg) : Statement (.mlhR ra rb) :=
  fun _ => rfl

theorem Sys2Proof.Laws.FieldsRoundTrip.tstR (ra rb : Reg) : Statement (.tstR ra rb) :=
  fun _ => rfl

theorem Sys2Proof.Laws.FieldsRoundTrip.cmpR (ra rb : Reg) : Statement (.cmpR ra rb) :=
  fun _ => rfl

theorem Sys2Proof.Laws.FieldsRoundTrip.movI8 (ra : Reg) (imm : Nat) : Statement (.movI8 ra imm) :=
  fun h => congrArg (fun v => Except.ok (Instr.movI8 ra v)) (imm8Value_imm8Field h)

theorem Sys2Proof.Laws.FieldsRoundTrip.andI8 (ra : Reg) (imm : Nat) : Statement (.andI8 ra imm) :=
  fun h => congrArg (fun v => Except.ok (Instr.andI8 ra v)) (imm8Value_imm8Field h)

theorem Sys2Proof.Laws.FieldsRoundTrip.orI8 (ra : Reg) (imm : Nat) : Statement (.orI8 ra imm) :=
  fun h => congrArg (fun v => Except.ok (Instr.orI8 ra v)) (imm8Value_imm8Field h)

theorem Sys2Proof.Laws.FieldsRoundTrip.xorI8 (ra : Reg) (imm : Nat) : Statement (.xorI8 ra imm) :=
  fun h => congrArg (fun v => Except.ok (Instr.xorI8 ra v)) (imm8Value_imm8Field h)

theorem Sys2Proof.Laws.FieldsRoundTrip.addI8 (ra : Reg) (imm : Nat) : Statement (.addI8 ra imm) :=
  fun h => congrArg (fun v => Except.ok (Instr.addI8 ra v)) (imm8Value_imm8Field h)

theorem Sys2Proof.Laws.FieldsRoundTrip.adcI8 (ra : Reg) (imm : Nat) : Statement (.adcI8 ra imm) :=
  fun h => congrArg (fun v => Except.ok (Instr.adcI8 ra v)) (imm8Value_imm8Field h)

theorem Sys2Proof.Laws.FieldsRoundTrip.subI8 (ra : Reg) (imm : Nat) : Statement (.subI8 ra imm) :=
  fun h => congrArg (fun v => Except.ok (Instr.subI8 ra v)) (imm8Value_imm8Field h)

theorem Sys2Proof.Laws.FieldsRoundTrip.sbcI8 (ra : Reg) (imm : Nat) : Statement (.sbcI8 ra imm) :=
  fun h => congrArg (fun v => Except.ok (Instr.sbcI8 ra v)) (imm8Value_imm8Field h)

theorem Sys2Proof.Laws.FieldsRoundTrip.mltI8 (ra : Reg) (imm : Nat) : Statement (.mltI8 ra imm) :=
  fun h => congrArg (fun v => Except.ok (Instr.mltI8 ra v)) (imm8Value_imm8Field h)

theorem Sys2Proof.Laws.FieldsRoundTrip.mlhI8 (ra : Reg) (imm : Nat) : Statement (.mlhI8 ra imm) :=
  fun h => congrArg (fun v => Except.ok (Instr.mlhI8 ra v)) (imm8Value_imm8Field h)

theorem Sys2Proof.Laws.FieldsRoundTrip.tstI8 (ra : Reg) (imm : Nat) : Statement (.tstI8 ra imm) :=
  fun h => congrArg (fun v => Except.ok (Instr.tstI8 ra v)) (imm8Value_imm8Field h)

theorem Sys2Proof.Laws.FieldsRoundTrip.cmpI8 (ra : Reg) (imm : Nat) : Statement (.cmpI8 ra imm) :=
  fun h => congrArg (fun v => Except.ok (Instr.cmpI8 ra v)) (imm8Value_imm8Field h)

theorem Sys2Proof.Laws.FieldsRoundTrip.movI16 (ra : Reg) (imm : Word) : Statement (.movI16 ra imm) :=
  fun _ => rfl

theorem Sys2Proof.Laws.FieldsRoundTrip.andI16 (ra : Reg) (imm : Word) : Statement (.andI16 ra imm) :=
  fun _ => rfl

theorem Sys2Proof.Laws.FieldsRoundTrip.orI16 (ra : Reg) (imm : Word) : Statement (.orI16 ra imm) :=
  fun _ => rfl

theorem Sys2Proof.Laws.FieldsRoundTrip.xorI16 (ra : Reg) (imm : Word) : Statement (.xorI16 ra imm) :=
  fun _ => rfl

theorem Sys2Proof.Laws.FieldsRoundTrip.addI16 (ra : Reg) (imm : Word) : Statement (.addI16 ra imm) :=
  fun _ => rfl

theorem Sys2Proof.Laws.FieldsRoundTrip.adcI16 (ra : Reg) (imm : Word) : Statement (.adcI16 ra imm) :=
  fun _ => rfl

theorem Sys2Proof.Laws.FieldsRoundTrip.subI16 (ra : Reg) (imm : Word) : Statement (.subI16 ra imm) :=
  fun _ => rfl

theorem Sys2Proof.Laws.FieldsRoundTrip.sbcI16 (ra : Reg) (imm : Word) : Statement (.sbcI16 ra imm) :=
  fun _ => rfl

theorem Sys2Proof.Laws.FieldsRoundTrip.mltI16 (ra : Reg) (imm : Word) : Statement (.mltI16 ra imm) :=
  fun _ => rfl

theorem Sys2Proof.Laws.FieldsRoundTrip.mlhI16 (ra : Reg) (imm : Word) : Statement (.mlhI16 ra imm) :=
  fun _ => rfl

theorem Sys2Proof.Laws.FieldsRoundTrip.tstI16 (ra : Reg) (imm : Word) : Statement (.tstI16 ra imm) :=
  fun _ => rfl

theorem Sys2Proof.Laws.FieldsRoundTrip.cmpI16 (ra : Reg) (imm : Word) : Statement (.cmpI16 ra imm) :=
  fun _ => rfl
end

