-- ==== Sys2Proof/Laws/Specimen.lean ====
section
/-! SUPPORT. A specimen of a lawful encoding: one assignment of words that meets R67, made up here so that the
statements about every lawful encoding are known to speak of something. THIS IS NOT THE MR16's ENCODING: the source
gives no bit pattern (R51), and no definition of the model uses this file. -/

namespace Sys2Proof.Specimen

/-- A made-up number of each operation. -/
def aluCode : AluOp → Nat
  | .mov => 0
  | .and => 1
  | .or => 2
  | .xor => 3
  | .add => 4
  | .adc => 5
  | .sub => 6
  | .sbc => 7
  | .mlt => 8
  | .mlh => 9
  | .tst => 10
  | .cmp => 11

/-- The operation with a number. -/
def aluOf : Nat → Option AluOp
  | 0 => some .mov
  | 1 => some .and
  | 2 => some .or
  | 3 => some .xor
  | 4 => some .add
  | 5 => some .adc
  | 6 => some .sub
  | 7 => some .sbc
  | 8 => some .mlt
  | 9 => some .mlh
  | 10 => some .tst
  | 11 => some .cmp
  | _ => none

theorem aluCode_lt (op : AluOp) : aluCode op < 12 := by cases op <;> decide

theorem aluOf_code (op : AluOp) : aluOf (aluCode op) = some op := by cases op <;> rfl

theorem code_of_aluOf {n : Nat} {op : AluOp} (h : aluOf n = some op) : n = aluCode op := by
  unfold aluOf at h
  split at h <;> cases h <;> rfl

/-- A made-up number of each operation. -/
def condCode : Cond → Nat
  | .cs => 0
  | .cc => 1
  | .eq => 2
  | .ne => 3
  | .vs => 4
  | .vc => 5
  | .mi => 6
  | .pl => 7
  | .ls => 8
  | .hi => 9
  | .lt => 10
  | .ge => 11
  | .le => 12
  | .gt => 13
  | .al => 14

/-- The operation with a number. -/
def condOf : Nat → Option Cond
  | 0 => some .cs
  | 1 => some .cc
  | 2 => some .eq
  | 3 => some .ne
  | 4 => some .vs
  | 5 => some .vc
  | 6 => some .mi
  | 7 => some .pl
  | 8 => some .ls
  | 9 => some .hi
  | 10 => some .lt
  | 11 => some .ge
  | 12 => some .le
  | 13 => some .gt
  | 14 => some .al
  | _ => none

theorem condCode_lt (op : Cond) : condCode op < 15 := by cases op <;> decide

theorem condOf_code (op : Cond) : condOf (condCode op) = some op := by cases op <;> rfl

theorem code_of_condOf {n : Nat} {op : Cond} (h : condOf n = some op) : n = condCode op := by
  unfold condOf at h
  split at h <;> cases h <;> rfl

/-- A made-up number of each operation. -/
def plainCode : PlainOp → Nat
  | .nop => 0
  | .clc => 1
  | .stc => 2
  | .clz => 3
  | .stz => 4
  | .cli => 5
  | .sti => 6
  | .ret => 7
  | .retCli => 8
  | .retSti => 9
  | .pushFlag => 10
  | .popFlag => 11

/-- The operation with a number. -/
def plainOf : Nat → Option PlainOp
  | 0 => some .nop
  | 1 => some .clc
  | 2 => some .stc
  | 3 => some .clz
  | 4 => some .stz
  | 5 => some .cli
  | 6 => some .sti
  | 7 => some .ret
  | 8 => some .retCli
  | 9 => some .retSti
  | 10 => some .pushFlag
  | 11 => some .popFlag
  | _ => none

theorem plainCode_lt (op : PlainOp) : plainCode op < 12 := by cases op <;> decide

theorem plainOf_code (op : PlainOp) : plainOf (plainCode op) = some op := by cases op <;> rfl

theorem code_of_plainOf {n : Nat} {op : PlainOp} (h : plainOf n = some op) : n = plainCode op := by
  unfold plainOf at h
  split at h <;> cases h <;> rfl

/-- A made-up number of each operation. -/
def longCode : LongMemOp → Nat
  | .ldw => 0
  | .stw => 1
  | .ldb => 2
  | .stb => 3

/-- The operation with a number. -/
def longOf : Nat → Option LongMemOp
  | 0 => some .ldw
  | 1 => some .stw
  | 2 => some .ldb
  | 3 => some .stb
  | _ => none

theorem longCode_lt (op : LongMemOp) : longCode op < 4 := by cases op <;> decide

theorem longOf_code (op : LongMemOp) : longOf (longCode op) = some op := by cases op <;> rfl

theorem code_of_longOf {n : Nat} {op : LongMemOp} (h : longOf n = some op) : n = longCode op := by
  unfold longOf at h
  split at h <;> cases h <;> rfl

/-- A made-up number of each operation. -/
def shortCode : ShortMemOp → Nat
  | .ldm => 0
  | .stm => 1

/-- The operation with a number. -/
def shortOf : Nat → Option ShortMemOp
  | 0 => some .ldm
  | 1 => some .stm
  | _ => none

theorem shortCode_lt (op : ShortMemOp) : shortCode op < 2 := by cases op <;> decide

theorem shortOf_code (op : ShortMemOp) : shortOf (shortCode op) = some op := by cases op <;> rfl

theorem code_of_shortOf {n : Nat} {op : ShortMemOp} (h : shortOf n = some op) : n = shortCode op := by
  unfold shortOf at h
  split at h <;> cases h <;> rfl

/-- A made-up number of each operation. -/
def stackCode : StackOp → Nat
  | .push => 0
  | .pop => 1

/-- The operation with a number. -/
def stackOf : Nat → Option StackOp
  | 0 => some .push
  | 1 => some .pop
  | _ => none

theorem stackCode_lt (op : StackOp) : stackCode op < 2 := by cases op <;> decide

theorem stackOf_code (op : StackOp) : stackOf (stackCode op) = some op := by cases op <;> rfl

theorem code_of_stackOf {n : Nat} {op : StackOp} (h : stackOf n = some op) : n = stackCode op := by
  unfold stackOf at h
  split at h <;> cases h <;> rfl

/-- The made-up first word and the second word, as numbers. -/
def numbers : Fields → Nat × Option Nat
  | .raImm8 op ra imm => (aluCode op * 4096 + ra.val * 256 + imm.toNat, none)
  | .ccRel8 c rel => (49152 + condCode c * 256 + rel.toNat, none)
  | .raRpDisp4 op ra rp disp => (53248 + shortCode op * 4096 + ra.val * 256 + rp.val * 16 + disp.toNat, none)
  | .raRb op ra rb => (61440 + aluCode op * 256 + ra.val * 16 + rb.val, none)
  | .ccRb c rb => (64512 + condCode c * 16 + rb.val, none)
  | .rb rb => (64768 + rb.val, none)
  | .rp op rp => (64784 + stackCode op * 16 + rp.val, none)
  | .plain op => (64816 + plainCode op, none)
  | .raImm16 op ra imm => (64832 + aluCode op * 16 + ra.val, some imm.toNat)
  | .ccAbs15 c abs => (65024 + condCode c, some abs.toNat)
  | .abs15 abs => (65039, some abs.toNat)
  | .raRpDisp11 op ra rp disp =>
    (65040 + longCode op * 8 + (ra.val * 16 + rp.val) / 32, some ((ra.val * 16 + rp.val) % 32 * 2048 + disp.toNat))

/-- The specimen's words. -/
def words (f : Fields) : List Word :=
  match numbers f with
  | (m, none) => [BitVec.ofNat 16 m]
  | (m, some n) => [BitVec.ofNat 16 m, BitVec.ofNat 16 n]

/-- A register by its number. -/
def regOf (n : Nat) : Reg := Fin.ofNat 16 n

/-- The fields of a one-word instruction. -/
def read1 (n : Nat) : Option Fields :=
  if n < 49152 then (aluOf (n / 4096)).map fun op => .raImm8 op (regOf (n / 256 % 16)) (BitVec.ofNat 8 n)
  else if n < 53248 then (condOf ((n - 49152) / 256)).map fun c => .ccRel8 c (BitVec.ofNat 8 n)
  else if n < 61440 then (shortOf ((n - 53248) / 4096)).map fun op =>
    .raRpDisp4 op (regOf (n / 256 % 16)) (regOf (n / 16 % 16)) (BitVec.ofNat 4 n)
  else if n < 64512 then (aluOf ((n - 61440) / 256)).map fun op => .raRb op (regOf (n / 16 % 16)) (regOf (n % 16))
  else if n < 64768 then (condOf ((n - 64512) / 16)).map fun c => .ccRb c (regOf (n % 16))
  else if n < 64784 then some (.rb (regOf (n % 16)))
  else if n < 64816 then (stackOf ((n - 64784) / 16)).map fun op => .rp op (regOf (n % 16))
  else (plainOf (n - 64816)).map .plain

/-- The fields of a two-word instruction. -/
def read2 (n m : Nat) : Option Fields :=
  if n < 65024 then (aluOf ((n - 64832) / 16)).map fun op => .raImm16 op (regOf (n % 16)) (BitVec.ofNat 16 m)
  else if n < 65039 then
    if m < 32768 then (condOf (n - 65024)).map fun c => .ccAbs15 c (BitVec.ofNat 15 m) else none
  else if n < 65040 then if m < 32768 then some (.abs15 (BitVec.ofNat 15 m)) else none
  else (longOf ((n - 65040) / 8)).map fun op =>
    .raRpDisp11 op (regOf (((n - 65040) % 8 * 32 + m / 2048) / 16)) (regOf ((m / 2048) % 16)) (BitVec.ofNat 11 m)

/-- {RP} is not R15. -/
def fieldsOk : Fields → Bool
  | .rp _ rp | .raRpDisp4 _ _ rp _ | .raRpDisp11 _ _ rp _ => rpOk rp
  | .plain _ | .ccRel8 _ _ | .ccRb _ _ | .ccAbs15 _ _ | .rb _ | .abs15 _ | .raRb _ _ _ | .raImm8 _ _ _
  | .raImm16 _ _ _ => true

/-- Keep only fields whose {RP} is not R15. -/
def okFields (o : Option Fields) : Option Fields :=
  match o with
  | none => none
  | some f => if fieldsOk f = true then some f else none

/-- The specimen's reading of words. -/
def read : List Word → Option Fields
  | [] => none
  | [w] => if w.toNat < 64832 then okFields (read1 w.toNat) else none
  | w :: x :: _ => okFields (if w.toNat < 64832 then read1 w.toNat else read2 w.toNat x.toNat)

/-- The specimen. -/
def enc : Encoding := { words := words, read := read }

/-! ### The specimen reads its own words -/

theorem numbers_lt (f : Fields) : (numbers f).1 < 65536 ∧ ((numbers f).2 = none ↔ (numbers f).1 < 64832) ∧
    ∀ n, (numbers f).2 = some n → n < 65536 := by
  cases f with
  | plain op => have := plainCode_lt op; simp [numbers]; omega
  | ccRel8 c rel => have := condCode_lt c; simp [numbers]; omega
  | ccRb c rb => have := condCode_lt c; simp [numbers]; omega
  | ccAbs15 c abs => have := condCode_lt c; simp [numbers]; omega
  | rb rb => simp [numbers]; omega
  | abs15 abs => simp [numbers]; omega
  | rp op rp => have := stackCode_lt op; simp [numbers]; omega
  | raRpDisp4 op ra rp disp => have := shortCode_lt op; simp [numbers]; omega
  | raRpDisp11 op ra rp disp => have := longCode_lt op; simp [numbers]; omega
  | raRb op ra rb => have := aluCode_lt op; simp [numbers]; omega
  | raImm8 op ra imm => have := aluCode_lt op; simp [numbers]; omega
  | raImm16 op ra imm => have := aluCode_lt op; simp [numbers]; omega

theorem regOf_eq {n : Nat} {r : Reg} (h : n = r.val) : regOf n = r := by
  subst h; apply Fin.ext; exact Nat.mod_eq_of_lt r.isLt

theorem val_regOf {n : Nat} (h : n < 16) : (regOf n).val = n := Nat.mod_eq_of_lt h

theorem ofNat_eq {k n : Nat} {b : BitVec k} (h : n % 2 ^ k = b.toNat) : BitVec.ofNat k n = b :=
  BitVec.eq_of_toNat_eq (by simpa using h)

/-- The fields of a one-word instruction are read back. -/
theorem read1_numbers {f : Fields} {n : Nat} (h : numbers f = (n, none)) : read1 n = some f := by
  cases f with
  | plain op =>
    have e : 64816 + plainCode op = n := (Prod.mk.inj h).1
    have hop := plainCode_lt op
    rw [read1, if_neg (show ¬ n < 49152 by omega),
      if_neg (show ¬ n < 53248 by omega),
      if_neg (show ¬ n < 61440 by omega),
      if_neg (show ¬ n < 64512 by omega),
      if_neg (show ¬ n < 64768 by omega),
      if_neg (show ¬ n < 64784 by omega),
      if_neg (show ¬ n < 64816 by omega),
      show n - 64816 = plainCode op by omega,
      plainOf_code]
    rfl
  | ccRel8 c rel =>
    have e : 49152 + condCode c * 256 + rel.toNat = n := (Prod.mk.inj h).1
    have hop := condCode_lt c
    rw [read1, if_neg (show ¬ n < 49152 by omega),
      if_pos (show n < 53248 by omega),
      show (n - 49152) / 256 = condCode c by omega,
      condOf_code]
    exact congrArg (fun x => some (Fields.ccRel8 c x)) (ofNat_eq (by omega))
  | ccRb c rb =>
    have e : 64512 + condCode c * 16 + rb.val = n := (Prod.mk.inj h).1
    have hop := condCode_lt c
    rw [read1, if_neg (show ¬ n < 49152 by omega),
      if_neg (show ¬ n < 53248 by omega),
      if_neg (show ¬ n < 61440 by omega),
      if_neg (show ¬ n < 64512 by omega),
      if_pos (show n < 64768 by omega),
      show (n - 64512) / 16 = condCode c by omega,
      condOf_code,
      regOf_eq (r := rb) (by omega)]
    rfl
  | rb rb =>
    have e : 64768 + rb.val = n := (Prod.mk.inj h).1
    rw [read1, if_neg (show ¬ n < 49152 by omega),
      if_neg (show ¬ n < 53248 by omega),
      if_neg (show ¬ n < 61440 by omega),
      if_neg (show ¬ n < 64512 by omega),
      if_neg (show ¬ n < 64768 by omega),
      if_pos (show n < 64784 by omega),
      regOf_eq (r := rb) (by omega)]
  | rp op rp =>
    have e : 64784 + stackCode op * 16 + rp.val = n := (Prod.mk.inj h).1
    have hop := stackCode_lt op
    rw [read1, if_neg (show ¬ n < 49152 by omega),
      if_neg (show ¬ n < 53248 by omega),
      if_neg (show ¬ n < 61440 by omega),
      if_neg (show ¬ n < 64512 by omega),
      if_neg (show ¬ n < 64768 by omega),
      if_neg (show ¬ n < 64784 by omega),
      if_pos (show n < 64816 by omega),
      show (n - 64784) / 16 = stackCode op by omega,
      stackOf_code,
      regOf_eq (r := rp) (by omega)]
    rfl
  | raRpDisp4 op ra rp disp =>
    have e : 53248 + shortCode op * 4096 + ra.val * 256 + rp.val * 16 + disp.toNat = n := (Prod.mk.inj h).1
    have hop := shortCode_lt op
    rw [read1, if_neg (show ¬ n < 49152 by omega),
      if_neg (show ¬ n < 53248 by omega),
      if_pos (show n < 61440 by omega),
      show (n - 53248) / 4096 = shortCode op by omega,
      shortOf_code,
      regOf_eq (r := ra) (by omega),
      regOf_eq (r := rp) (by omega)]
    exact congrArg (fun x => some (Fields.raRpDisp4 op ra rp x)) (ofNat_eq (by omega))
  | raRb op ra rb =>
    have e : 61440 + aluCode op * 256 + ra.val * 16 + rb.val = n := (Prod.mk.inj h).1
    have hop := aluCode_lt op
    rw [read1, if_neg (show ¬ n < 49152 by omega),
      if_neg (show ¬ n < 53248 by omega),
      if_neg (show ¬ n < 61440 by omega),
      if_pos (show n < 64512 by omega),
      show (n - 61440) / 256 = aluCode op by omega,
      aluOf_code,
      regOf_eq (r := ra) (by omega),
      regOf_eq (r := rb) (by omega)]
    rfl
  | raImm8 op ra imm =>
    have e : aluCode op * 4096 + ra.val * 256 + imm.toNat = n := (Prod.mk.inj h).1
    have hop := aluCode_lt op
    rw [read1, if_pos (show n < 49152 by omega),
      show n / 4096 = aluCode op by omega,
      aluOf_code,
      regOf_eq (r := ra) (by omega)]
    exact congrArg (fun x => some (Fields.raImm8 op ra x)) (ofNat_eq (by omega))
  | ccAbs15 c abs => cases h
  | abs15 abs => cases h
  | raRpDisp11 op ra rp disp => cases h
  | raImm16 op ra imm => cases h

/-- The fields of a two-word instruction are read back. -/
theorem read2_numbers {f : Fields} {n m : Nat} (h : numbers f = (n, some m)) : read2 n m = some f := by
  cases f with
  | raImm16 op ra imm =>
    have e : 64832 + aluCode op * 16 + ra.val = n := (Prod.mk.inj h).1
    have em : imm.toNat = m := Option.some.inj (Prod.mk.inj h).2
    have hop := aluCode_lt op
    rw [read2, if_pos (show n < 65024 by omega),
      show (n - 64832) / 16 = aluCode op by omega,
      aluOf_code,
      regOf_eq (r := ra) (by omega)]
    exact congrArg (fun x => some (Fields.raImm16 op ra x)) (ofNat_eq (by omega))
  | ccAbs15 c abs =>
    have e : 65024 + condCode c = n := (Prod.mk.inj h).1
    have em : abs.toNat = m := Option.some.inj (Prod.mk.inj h).2
    have hop := condCode_lt c
    rw [read2, if_neg (show ¬ n < 65024 by omega),
      if_pos (show n < 65039 by omega),
      if_pos (show m < 32768 by omega),
      show n - 65024 = condCode c by omega,
      condOf_code]
    exact congrArg (fun x => some (Fields.ccAbs15 c x)) (ofNat_eq (by omega))
  | abs15 abs =>
    have e : 65039 = n := (Prod.mk.inj h).1
    have em : abs.toNat = m := Option.some.inj (Prod.mk.inj h).2
    rw [read2, if_neg (show ¬ n < 65024 by omega),
      if_neg (show ¬ n < 65039 by omega),
      if_pos (show n < 65040 by omega),
      if_pos (show m < 32768 by omega)]
    exact congrArg (fun x => some (Fields.abs15 x)) (ofNat_eq (by omega))
  | raRpDisp11 op ra rp disp =>
    have e : 65040 + longCode op * 8 + (ra.val * 16 + rp.val) / 32 = n := (Prod.mk.inj h).1
    have em : (ra.val * 16 + rp.val) % 32 * 2048 + disp.toNat = m := Option.some.inj (Prod.mk.inj h).2
    have hop := longCode_lt op
    rw [read2, if_neg (show ¬ n < 65024 by omega),
      if_neg (show ¬ n < 65039 by omega),
      if_neg (show ¬ n < 65040 by omega),
      show (n - 65040) / 8 = longCode op by omega,
      longOf_code,
      regOf_eq (r := ra) (by omega),
      regOf_eq (r := rp) (by omega)]
    exact congrArg (fun x => some (Fields.raRpDisp11 op ra rp x)) (ofNat_eq (by omega))
  | _ => cases h

/-- The words of a form are read as its fields, whatever follows. -/
theorem read_words {f : Fields} (hf : fieldsOk f = true) (rest : List Word) : read (words f ++ rest) = some f := by
  obtain ⟨h1, h2, h3⟩ := numbers_lt f
  cases hn : (numbers f).2 with
  | none =>
    have hlt := h2.mp hn
    have hw : words f = [BitVec.ofNat 16 (numbers f).1] := by
      rw [words]; rcases e : numbers f with ⟨a, b⟩; rw [e] at hn; cases hn; rfl
    have hm : (BitVec.ofNat 16 (numbers f).1).toNat = (numbers f).1 := by simp; omega
    rw [hw]
    cases rest <;> simp only [List.cons_append, List.nil_append, read, hm, if_pos hlt, read1_numbers (Prod.ext rfl hn), okFields, hf,
      if_true]
  | some n =>
    have hge : ¬ (numbers f).1 < 64832 := fun hlt => by rw [h2.mpr hlt] at hn; cases hn
    have hw : words f = [BitVec.ofNat 16 (numbers f).1, BitVec.ofNat 16 n] := by
      rw [words]; rcases e : numbers f with ⟨a, b⟩; rw [e] at hn; cases hn; rfl
    have hm : (BitVec.ofNat 16 (numbers f).1).toNat = (numbers f).1 := by simp; omega
    have hl : (BitVec.ofNat 16 n).toNat = n := by have := h3 n hn; simp; omega
    rw [hw]
    simp only [List.cons_append, List.nil_append, read, hm, hl, if_neg hge, read2_numbers (Prod.ext rfl hn), okFields, hf, if_true]

/-! ### The specimen reads nothing else -/

theorem numbers_of_read1 {n : Nat} {f : Fields} (h : read1 n = some f) : numbers f = (n, none) := by
  unfold read1 at h
  split at h
  · obtain ⟨op, ho, rfl⟩ := Option.map_eq_some_iff.mp h
    have := code_of_aluOf ho
    simp only [numbers, val_regOf (Nat.mod_lt _ (by decide : 16 > 0)), BitVec.toNat_ofNat, Prod.mk.injEq, and_true]
    omega
  split at h
  · obtain ⟨op, ho, rfl⟩ := Option.map_eq_some_iff.mp h
    have := code_of_condOf ho
    simp only [numbers, BitVec.toNat_ofNat, Prod.mk.injEq, and_true]
    omega
  split at h
  · obtain ⟨op, ho, rfl⟩ := Option.map_eq_some_iff.mp h
    have := code_of_shortOf ho
    simp only [numbers, val_regOf (Nat.mod_lt _ (by decide : 16 > 0)), BitVec.toNat_ofNat, Prod.mk.injEq, and_true]
    omega
  split at h
  · obtain ⟨op, ho, rfl⟩ := Option.map_eq_some_iff.mp h
    have := code_of_aluOf ho
    simp only [numbers, val_regOf (Nat.mod_lt _ (by decide : 16 > 0)), Prod.mk.injEq, and_true]
    omega
  split at h
  · obtain ⟨op, ho, rfl⟩ := Option.map_eq_some_iff.mp h
    have := code_of_condOf ho
    simp only [numbers, val_regOf (Nat.mod_lt _ (by decide : 16 > 0)), Prod.mk.injEq, and_true]
    omega
  split at h
  · cases h
    simp only [numbers, val_regOf (Nat.mod_lt _ (by decide : 16 > 0)), Prod.mk.injEq, and_true]
    omega
  split at h
  · obtain ⟨op, ho, rfl⟩ := Option.map_eq_some_iff.mp h
    have := code_of_stackOf ho
    simp only [numbers, val_regOf (Nat.mod_lt _ (by decide : 16 > 0)), Prod.mk.injEq, and_true]
    omega
  · obtain ⟨op, ho, rfl⟩ := Option.map_eq_some_iff.mp h
    have := code_of_plainOf ho
    simp only [numbers, Prod.mk.injEq, and_true]
    omega

theorem numbers_of_read2 {n m : Nat} {f : Fields} (hn : 64832 ≤ n) (hm : m < 65536) (h : read2 n m = some f) :
    numbers f = (n, some m) := by
  unfold read2 at h
  split at h
  · obtain ⟨op, ho, rfl⟩ := Option.map_eq_some_iff.mp h
    have := code_of_aluOf ho
    simp only [numbers, val_regOf (Nat.mod_lt _ (by decide : 16 > 0)), BitVec.toNat_ofNat, Prod.mk.injEq,
      Option.some.injEq]
    omega
  split at h
  · split at h
    · obtain ⟨op, ho, rfl⟩ := Option.map_eq_some_iff.mp h
      have := code_of_condOf ho
      simp only [numbers, BitVec.toNat_ofNat, Prod.mk.injEq, Option.some.injEq]
      omega
    · cases h
  split at h
  · split at h
    · cases h
      simp only [numbers, BitVec.toNat_ofNat, Prod.mk.injEq, Option.some.injEq]
      omega
    · cases h
  · obtain ⟨op, ho, rfl⟩ := Option.map_eq_some_iff.mp h
    have := code_of_longOf ho
    have hlt : ((n - 65040) % 8 * 32 + m / 2048) / 16 < 16 := by omega
    simp only [numbers, val_regOf hlt, val_regOf (Nat.mod_lt _ (by decide : 16 > 0)), BitVec.toNat_ofNat,
      Prod.mk.injEq, Option.some.injEq]
    omega

theorem okFields_some {o : Option Fields} {f : Fields} (h : okFields o = some f) : o = some f ∧ fieldsOk f = true := by
  unfold okFields at h
  split at h
  · cases h
  · split at h
    · next hf => cases h; exact ⟨rfl, hf⟩
    · cases h

/-- What the specimen reads are the words of the fields it answers. -/
theorem words_of_read {ws : List Word} {f : Fields} (h : read ws = some f) :
    fieldsOk f = true ∧ ∃ rest, ws = words f ++ rest := by
  unfold read at h
  split at h
  · cases h
  · next w =>
    split at h
    · obtain ⟨h1, h2⟩ := okFields_some h
      refine ⟨h2, [], ?_⟩
      rw [words, numbers_of_read1 h1]
      simp
    · cases h
  · next w x rest =>
    obtain ⟨h1, h2⟩ := okFields_some h
    refine ⟨h2, ?_⟩
    split at h1
    · exact ⟨x :: rest, by rw [words, numbers_of_read1 h1]; simp⟩
    · next hw => exact ⟨rest, by rw [words, numbers_of_read2 (by omega) x.isLt h1]; simp⟩

/-! ### The specimen is lawful -/

theorem fieldsOk_fieldsOf {i : Instr} (h : i.wellFormed = true) : fieldsOk (fieldsOf i) = true := by
  cases i <;> first | rfl | simp_all [Instr.wellFormed, fieldsOf, fieldsOk]

theorem length_words (f : Fields) : (words f).length = if (numbers f).1 < 64832 then 1 else 2 := by
  obtain ⟨-, h2, -⟩ := numbers_lt f
  rw [words]
  rcases e : numbers f with ⟨a, b⟩
  rw [e] at h2
  cases b <;> simp_all

/-- The specimen has the word counts of R61. -/
theorem countsWords : enc.CountsWords := by
  intro i _
  show (words (fieldsOf i)).length = i.words
  cases i <;> rfl

theorem head_words (f : Fields) : ((words f).head?.map BitVec.toNat) = some (numbers f).1 := by
  obtain ⟨h1, -, -⟩ := numbers_lt f
  rw [words]
  rcases e : numbers f with ⟨a, b⟩
  rw [e] at h1
  cases b <;> simpa using h1

theorem firstWordCounts : enc.FirstWordCounts := by
  intro i j hi hj h
  rw [← countsWords i hi, ← countsWords j hj]
  show (words (fieldsOf i)).length = (words (fieldsOf j)).length
  have hh : (numbers (fieldsOf i)).1 = (numbers (fieldsOf j)).1 := by
    have := congrArg (Option.map BitVec.toNat) h
    exact Option.some.inj ((head_words _).symm.trans (this.trans (head_words _)))
  rw [length_words, length_words, hh]

theorem readsForms : enc.ReadsForms := by
  intro i rest hi
  show (read (words (fieldsOf i) ++ rest)).isSome = true
  rw [read_words (fieldsOk_fieldsOf hi)]; rfl

/-- Every in-range fields value is the fields of an instruction form. -/
theorem exists_instr {f : Fields} (h : fieldsOk f = true) : ∃ i : Instr, decodeFields f = .ok i := by
  cases f with
  | rp op rp => exact ⟨_, withRp_of_ok _ h⟩
  | raRpDisp4 op ra rp disp => exact ⟨_, withRp_of_ok _ h⟩
  | raRpDisp11 op ra rp disp => exact ⟨_, withRp_of_ok _ h⟩
  | _ => exact ⟨_, rfl⟩

/-- Different forms have different words: the words give the fields, and the fields the form. -/
theorem tellsForms : enc.TellsForms := by
  have key : ∀ i : Instr, i.wellFormed = true → decodeFields (fieldsOf i) = .ok i := by
    intro i hi
    cases i with
    | nop => exact Sys2Proof.Laws.FieldsRoundTrip.nop hi
    | clc => exact Sys2Proof.Laws.FieldsRoundTrip.clc hi
    | stc => exact Sys2Proof.Laws.FieldsRoundTrip.stc hi
    | clz => exact Sys2Proof.Laws.FieldsRoundTrip.clz hi
    | stz => exact Sys2Proof.Laws.FieldsRoundTrip.stz hi
    | cli => exact Sys2Proof.Laws.FieldsRoundTrip.cli hi
    | sti => exact Sys2Proof.Laws.FieldsRoundTrip.sti hi
    | bcs _ => exact Sys2Proof.Laws.FieldsRoundTrip.bcs _ hi
    | bcc _ => exact Sys2Proof.Laws.FieldsRoundTrip.bcc _ hi
    | beq _ => exact Sys2Proof.Laws.FieldsRoundTrip.beq _ hi
    | bne _ => exact Sys2Proof.Laws.FieldsRoundTrip.bne _ hi
    | bvs _ => exact Sys2Proof.Laws.FieldsRoundTrip.bvs _ hi
    | bvc _ => exact Sys2Proof.Laws.FieldsRoundTrip.bvc _ hi
    | bmi _ => exact Sys2Proof.Laws.FieldsRoundTrip.bmi _ hi
    | bpl _ => exact Sys2Proof.Laws.FieldsRoundTrip.bpl _ hi
    | bls _ => exact Sys2Proof.Laws.FieldsRoundTrip.bls _ hi
    | bhi _ => exact Sys2Proof.Laws.FieldsRoundTrip.bhi _ hi
    | blt _ => exact Sys2Proof.Laws.FieldsRoundTrip.blt _ hi
    | bge _ => exact Sys2Proof.Laws.FieldsRoundTrip.bge _ hi
    | ble _ => exact Sys2Proof.Laws.FieldsRoundTrip.ble _ hi
    | bgt _ => exact Sys2Proof.Laws.FieldsRoundTrip.bgt _ hi
    | bra _ => exact Sys2Proof.Laws.FieldsRoundTrip.bra _ hi
    | jcsR _ => exact Sys2Proof.Laws.FieldsRoundTrip.jcsR _ hi
    | jccR _ => exact Sys2Proof.Laws.FieldsRoundTrip.jccR _ hi
    | jeqR _ => exact Sys2Proof.Laws.FieldsRoundTrip.jeqR _ hi
    | jneR _ => exact Sys2Proof.Laws.FieldsRoundTrip.jneR _ hi
    | jvsR _ => exact Sys2Proof.Laws.FieldsRoundTrip.jvsR _ hi
    | jvcR _ => exact Sys2Proof.Laws.FieldsRoundTrip.jvcR _ hi
    | jmiR _ => exact Sys2Proof.Laws.FieldsRoundTrip.jmiR _ hi
    | jplR _ => exact Sys2Proof.Laws.FieldsRoundTrip.jplR _ hi
    | jlsR _ => exact Sys2Proof.Laws.FieldsRoundTrip.jlsR _ hi
    | jhiR _ => exact Sys2Proof.Laws.FieldsRoundTrip.jhiR _ hi
    | jltR _ => exact Sys2Proof.Laws.FieldsRoundTrip.jltR _ hi
    | jgeR _ => exact Sys2Proof.Laws.FieldsRoundTrip.jgeR _ hi
    | jleR _ => exact Sys2Proof.Laws.FieldsRoundTrip.jleR _ hi
    | jgtR _ => exact Sys2Proof.Laws.FieldsRoundTrip.jgtR _ hi
    | jmpR _ => exact Sys2Proof.Laws.FieldsRoundTrip.jmpR _ hi
    | jcsA _ => exact Sys2Proof.Laws.FieldsRoundTrip.jcsA _ hi
    | jccA _ => exact Sys2Proof.Laws.FieldsRoundTrip.jccA _ hi
    | jeqA _ => exact Sys2Proof.Laws.FieldsRoundTrip.jeqA _ hi
    | jneA _ => exact Sys2Proof.Laws.FieldsRoundTrip.jneA _ hi
    | jvsA _ => exact Sys2Proof.Laws.FieldsRoundTrip.jvsA _ hi
    | jvcA _ => exact Sys2Proof.Laws.FieldsRoundTrip.jvcA _ hi
    | jmiA _ => exact Sys2Proof.Laws.FieldsRoundTrip.jmiA _ hi
    | jplA _ => exact Sys2Proof.Laws.FieldsRoundTrip.jplA _ hi
    | jlsA _ => exact Sys2Proof.Laws.FieldsRoundTrip.jlsA _ hi
    | jhiA _ => exact Sys2Proof.Laws.FieldsRoundTrip.jhiA _ hi
    | jltA _ => exact Sys2Proof.Laws.FieldsRoundTrip.jltA _ hi
    | jgeA _ => exact Sys2Proof.Laws.FieldsRoundTrip.jgeA _ hi
    | jleA _ => exact Sys2Proof.Laws.FieldsRoundTrip.jleA _ hi
    | jgtA _ => exact Sys2Proof.Laws.FieldsRoundTrip.jgtA _ hi
    | jmpA _ => exact Sys2Proof.Laws.FieldsRoundTrip.jmpA _ hi
    | jsrR _ => exact Sys2Proof.Laws.FieldsRoundTrip.jsrR _ hi
    | jsrA _ => exact Sys2Proof.Laws.FieldsRoundTrip.jsrA _ hi
    | ret => exact Sys2Proof.Laws.FieldsRoundTrip.ret hi
    | retCli => exact Sys2Proof.Laws.FieldsRoundTrip.retCli hi
    | retSti => exact Sys2Proof.Laws.FieldsRoundTrip.retSti hi
    | push _ => exact Sys2Proof.Laws.FieldsRoundTrip.push _ hi
    | pop _ => exact Sys2Proof.Laws.FieldsRoundTrip.pop _ hi
    | pushFlag => exact Sys2Proof.Laws.FieldsRoundTrip.pushFlag hi
    | popFlag => exact Sys2Proof.Laws.FieldsRoundTrip.popFlag hi
    | ldm _ _ _ => exact Sys2Proof.Laws.FieldsRoundTrip.ldm _ _ _ hi
    | stm _ _ _ => exact Sys2Proof.Laws.FieldsRoundTrip.stm _ _ _ hi
    | ldw _ _ _ => exact Sys2Proof.Laws.FieldsRoundTrip.ldw _ _ _ hi
    | stw _ _ _ => exact Sys2Proof.Laws.FieldsRoundTrip.stw _ _ _ hi
    | ldb _ _ _ => exact Sys2Proof.Laws.FieldsRoundTrip.ldb _ _ _ hi
    | stb _ _ _ => exact Sys2Proof.Laws.FieldsRoundTrip.stb _ _ _ hi
    | movR _ _ => exact Sys2Proof.Laws.FieldsRoundTrip.movR _ _ hi
    | andR _ _ => exact Sys2Proof.Laws.FieldsRoundTrip.andR _ _ hi
    | orR _ _ => exact Sys2Proof.Laws.FieldsRoundTrip.orR _ _ hi
    | xorR _ _ => exact Sys2Proof.Laws.FieldsRoundTrip.xorR _ _ hi
    | addR _ _ => exact Sys2Proof.Laws.FieldsRoundTrip.addR _ _ hi
    | adcR _ _ => exact Sys2Proof.Laws.FieldsRoundTrip.adcR _ _ hi
    | subR _ _ => exact Sys2Proof.Laws.FieldsRoundTrip.subR _ _ hi
    | sbcR _ _ => exact Sys2Proof.Laws.FieldsRoundTrip.sbcR _ _ hi
    | mltR _ _ => exact Sys2Proof.Laws.FieldsRoundTrip.mltR _ _ hi
    | mlhR _ _ => exact Sys2Proof.Laws.FieldsRoundTrip.mlhR _ _ hi
    | tstR _ _ => exact Sys2Proof.Laws.FieldsRoundTrip.tstR _ _ hi
    | cmpR _ _ => exact Sys2Proof.Laws.FieldsRoundTrip.cmpR _ _ hi
    | movI8 _ _ => exact Sys2Proof.Laws.FieldsRoundTrip.movI8 _ _ hi
    | andI8 _ _ => exact Sys2Proof.Laws.FieldsRoundTrip.andI8 _ _ hi
    | orI8 _ _ => exact Sys2Proof.Laws.FieldsRoundTrip.orI8 _ _ hi
    | xorI8 _ _ => exact Sys2Proof.Laws.FieldsRoundTrip.xorI8 _ _ hi
    | addI8 _ _ => exact Sys2Proof.Laws.FieldsRoundTrip.addI8 _ _ hi
    | adcI8 _ _ => exact Sys2Proof.Laws.FieldsRoundTrip.adcI8 _ _ hi
    | subI8 _ _ => exact Sys2Proof.Laws.FieldsRoundTrip.subI8 _ _ hi
    | sbcI8 _ _ => exact Sys2Proof.Laws.FieldsRoundTrip.sbcI8 _ _ hi
    | mltI8 _ _ => exact Sys2Proof.Laws.FieldsRoundTrip.mltI8 _ _ hi
    | mlhI8 _ _ => exact Sys2Proof.Laws.FieldsRoundTrip.mlhI8 _ _ hi
    | tstI8 _ _ => exact Sys2Proof.Laws.FieldsRoundTrip.tstI8 _ _ hi
    | cmpI8 _ _ => exact Sys2Proof.Laws.FieldsRoundTrip.cmpI8 _ _ hi
    | movI16 _ _ => exact Sys2Proof.Laws.FieldsRoundTrip.movI16 _ _ hi
    | andI16 _ _ => exact Sys2Proof.Laws.FieldsRoundTrip.andI16 _ _ hi
    | orI16 _ _ => exact Sys2Proof.Laws.FieldsRoundTrip.orI16 _ _ hi
    | xorI16 _ _ => exact Sys2Proof.Laws.FieldsRoundTrip.xorI16 _ _ hi
    | addI16 _ _ => exact Sys2Proof.Laws.FieldsRoundTrip.addI16 _ _ hi
    | adcI16 _ _ => exact Sys2Proof.Laws.FieldsRoundTrip.adcI16 _ _ hi
    | subI16 _ _ => exact Sys2Proof.Laws.FieldsRoundTrip.subI16 _ _ hi
    | sbcI16 _ _ => exact Sys2Proof.Laws.FieldsRoundTrip.sbcI16 _ _ hi
    | mltI16 _ _ => exact Sys2Proof.Laws.FieldsRoundTrip.mltI16 _ _ hi
    | mlhI16 _ _ => exact Sys2Proof.Laws.FieldsRoundTrip.mlhI16 _ _ hi
    | tstI16 _ _ => exact Sys2Proof.Laws.FieldsRoundTrip.tstI16 _ _ hi
    | cmpI16 _ _ => exact Sys2Proof.Laws.FieldsRoundTrip.cmpI16 _ _ hi
  intro i j hi hj h
  have hf : fieldsOf i = fieldsOf j := by
    have h1 := read_words (fieldsOk_fieldsOf hi) []
    have h2 := read_words (fieldsOk_fieldsOf hj) []
    have h : words (fieldsOf i) = words (fieldsOf j) := h
    rw [h, h2] at h1
    exact (Option.some.inj h1).symm
  have := key i hi
  rw [hf, key j hj] at this
  exact (Except.ok.inj this).symm

theorem refusesOthers : enc.RefusesOthers := by
  intro ws f h
  obtain ⟨hf, rest, hw⟩ := words_of_read h
  have hi : ∃ i : Instr, i.wellFormed = true ∧ f = fieldsOf i := by
    obtain ⟨i, hd⟩ := exists_instr hf
    refine ⟨i, Machine.decodeFields_wf hd, ?_⟩
    cases f with
    | plain op => cases op <;> cases hd <;> rfl
    | ccRel8 c rel => cases c <;> cases hd <;> exact congrArg _ (relField_relValue rel).symm
    | ccRb c rb => cases c <;> cases hd <;> rfl
    | ccAbs15 c a => cases c <;> cases hd <;> exact congrArg _ (absField_absValue a).symm
    | rb rb => cases hd; rfl
    | abs15 a => cases hd; exact congrArg _ (absField_absValue a).symm
    | rp op rp => obtain ⟨-, rfl⟩ := withRp_ok.mp hd; cases op <;> rfl
    | raRpDisp4 op ra rp d =>
      obtain ⟨-, rfl⟩ := withRp_ok.mp hd
      cases op <;> exact congrArg _ (disp4Field_disp4Value d).symm
    | raRpDisp11 op ra rp d =>
      obtain ⟨-, rfl⟩ := withRp_ok.mp hd
      cases op <;> exact congrArg _ (disp11Field_disp11Value d).symm
    | raRb op ra rb => cases op <;> cases hd <;> rfl
    | raImm8 op ra n => cases op <;> cases hd <;> exact congrArg _ (imm8Field_imm8Value n).symm
    | raImm16 op ra n => cases op <;> cases hd <;> rfl
  obtain ⟨i, hi, rfl⟩ := hi
  exact ⟨i, rest, hi, rfl, hw⟩

theorem readable : enc.Readable := ⟨countsWords, tellsForms, firstWordCounts, readsForms, refusesOthers⟩

/-! ### The specimen's operand fields occupy the bits of R52 -/

/-- The bits of the specimen's operand fields, in the order of R52. -/
def place : Selector → List (List Nat)
  | .plain _ => []
  | .ccRel8 => [List.range' 8 4, List.range' 0 8]
  | .ccRb => [List.range' 4 4, List.range' 0 4]
  | .ccAbs15 => [List.range' 0 4, List.range' 16 15]
  | .rb => [List.range' 0 4]
  | .abs15 => [List.range' 16 15]
  | .rp _ => [List.range' 0 4]
  | .raRpDisp4 _ => [List.range' 8 4, List.range' 4 4, List.range' 0 4]
  | .raRpDisp11 _ => [[31, 0, 1, 2], List.range' 27 4, List.range' 16 11]
  | .raRb _ => [List.range' 4 4, List.range' 0 4]
  | .raImm8 _ => [List.range' 8 4, List.range' 0 8]
  | .raImm16 _ => [List.range' 0 4, List.range' 16 16]

theorem place_widths (f : Fields) : (place f.selector).map List.length = f.selector.widths ∧
    (place f.selector).flatten.Nodup ∧ ∀ n ∈ (place f.selector).flatten, n < 16 * (words f).length := by
  cases f <;> exact ⟨rfl, by simp only [Fields.selector, place]; decide, by
    simp only [Fields.selector, place, words, numbers, List.length]; decide⟩

/-- Two numbers that differ in a bit differ in the low field the bit belongs to, or above it in that bit. -/
theorem testBit_field {w n x y hi hi' : Nat} (hx : x < 2 ^ w) (hy : y < 2 ^ w)
    (h : (2 ^ w * hi + x).testBit n ≠ (2 ^ w * hi' + y).testBit n) :
    n < w ∧ x ≠ y ∨ w ≤ n ∧ hi.testBit (n - w) ≠ hi'.testBit (n - w) := by
  rw [Nat.testBit_two_pow_mul_add _ hx, Nat.testBit_two_pow_mul_add _ hy] at h
  by_cases hn : n < w
  · exact .inl ⟨hn, fun e => h (by simp [hn, e])⟩
  · exact .inr ⟨by omega, by simpa [hn] using h⟩

theorem wordBit_one {m m' n : Nat}
    (h : wordBit [BitVec.ofNat 16 m] n ≠ wordBit [BitVec.ofNat 16 m'] n) : n < 16 ∧ m.testBit n ≠ m'.testBit n := by
  unfold wordBit at h
  rcases hq : n / 16 with _ | q
  · have : n % 16 = n := by omega
    rw [hq, this] at h
    exact ⟨by omega, fun e => h (by simp [BitVec.getLsbD_ofNat, e])⟩
  · rw [hq] at h; simp at h

theorem wordBit_two {m m' l l' n : Nat}
    (h : wordBit [BitVec.ofNat 16 m, BitVec.ofNat 16 l] n ≠ wordBit [BitVec.ofNat 16 m', BitVec.ofNat 16 l'] n) :
    n < 16 ∧ m.testBit n ≠ m'.testBit n ∨ 16 ≤ n ∧ n < 32 ∧ l.testBit (n - 16) ≠ l'.testBit (n - 16) := by
  unfold wordBit at h
  rcases hq : n / 16 with _ | _ | q
  · have : n % 16 = n := by omega
    rw [hq, this] at h
    exact .inl ⟨by omega, fun e => h (by simp [BitVec.getLsbD_ofNat, e])⟩
  · have : n % 16 = n - 16 := by omega
    rw [hq, this] at h
    exact .inr ⟨by omega, by omega, fun e => h (by simp [BitVec.getLsbD_ofNat, e])⟩
  · rw [hq] at h; simp at h

theorem condCode_inj {c d : Cond} (h : condCode c ≠ condCode d) : c ≠ d := fun e => h (e ▸ rfl)

theorem val_ne {r q : Reg} (h : r.val ≠ q.val) : r ≠ q := fun e => h (e ▸ rfl)

/-- A bit in which the words of two forms of one selector differ belongs to a field in which they differ. -/
theorem differs_in_field {f g : Fields} (hs : f.selector = g.selector) {n : Nat}
    (h : wordBit (words f) n ≠ wordBit (words g) n) :
    ∃ (k : Nat) (bits : List Nat), (place f.selector)[k]? = some bits ∧ n ∈ bits ∧ f.operands[k]? ≠ g.operands[k]? := by
  cases f with
  | plain op => cases g <;> cases hs; exact absurd rfl h
  | ccRel8 c rel =>
    cases g <;> cases hs
    rename_i d rel'
    have hc := condCode_lt c
    have hd := condCode_lt d
    have h : wordBit [BitVec.ofNat 16 (49152 + condCode c * 256 + rel.toNat)] n ≠
      wordBit [BitVec.ofNat 16 (49152 + condCode d * 256 + rel'.toNat)] n := h
    rw [show 49152 + condCode c * 256 + rel.toNat = 2 ^ 8 * (2 ^ 4 * 12 + condCode c) + rel.toNat by omega,
      show 49152 + condCode d * 256 + rel'.toNat = 2 ^ 8 * (2 ^ 4 * 12 + condCode d) + rel'.toNat by omega] at h
    obtain ⟨hn, h⟩ := wordBit_one h
    rcases testBit_field rel.isLt rel'.isLt h with ⟨hw, hx⟩ | ⟨hw, h⟩
    · exact ⟨1, _, rfl, List.mem_range'_1.mpr (by omega), by simpa [Fields.operands] using hx⟩
    · rcases testBit_field (by omega) (by omega) h with ⟨hw', hx⟩ | ⟨-, h⟩
      · exact ⟨0, _, rfl, List.mem_range'_1.mpr (by omega), by simpa [Fields.operands] using condCode_inj hx⟩
      · exact absurd rfl h
  | ccRb c rb =>
    cases g <;> cases hs
    rename_i d rb'
    have hc := condCode_lt c
    have hd := condCode_lt d
    have h : wordBit [BitVec.ofNat 16 (64512 + condCode c * 16 + rb.val)] n ≠
      wordBit [BitVec.ofNat 16 (64512 + condCode d * 16 + rb'.val)] n := h
    rw [show 64512 + condCode c * 16 + rb.val = 2 ^ 4 * (2 ^ 4 * 252 + condCode c) + rb.val by omega,
      show 64512 + condCode d * 16 + rb'.val = 2 ^ 4 * (2 ^ 4 * 252 + condCode d) + rb'.val by omega] at h
    obtain ⟨hn, h⟩ := wordBit_one h
    rcases testBit_field rb.isLt rb'.isLt h with ⟨hw, hx⟩ | ⟨hw, h⟩
    · exact ⟨1, _, rfl, List.mem_range'_1.mpr (by omega), by simpa [Fields.operands] using val_ne hx⟩
    · rcases testBit_field (by omega) (by omega) h with ⟨hw', hx⟩ | ⟨-, h⟩
      · exact ⟨0, _, rfl, List.mem_range'_1.mpr (by omega), by simpa [Fields.operands] using condCode_inj hx⟩
      · exact absurd rfl h
  | ccAbs15 c abs =>
    cases g <;> cases hs
    rename_i d abs'
    have hc := condCode_lt c
    have hd := condCode_lt d
    have h : wordBit [BitVec.ofNat 16 (65024 + condCode c), BitVec.ofNat 16 abs.toNat] n ≠
      wordBit [BitVec.ofNat 16 (65024 + condCode d), BitVec.ofNat 16 abs'.toNat] n := h
    rw [show 65024 + condCode c = 2 ^ 4 * 4064 + condCode c by omega,
      show 65024 + condCode d = 2 ^ 4 * 4064 + condCode d by omega,
      show abs.toNat = 2 ^ 15 * 0 + abs.toNat by omega, show abs'.toNat = 2 ^ 15 * 0 + abs'.toNat by omega] at h
    rcases wordBit_two h with ⟨hn, h⟩ | ⟨hn, hn', h⟩
    · rcases testBit_field (by omega) (by omega) h with ⟨hw, hx⟩ | ⟨-, h⟩
      · exact ⟨0, _, rfl, List.mem_range'_1.mpr (by omega), by simpa [Fields.operands] using condCode_inj hx⟩
      · exact absurd rfl h
    · rcases testBit_field abs.isLt abs'.isLt h with ⟨hw, hx⟩ | ⟨-, h⟩
      · exact ⟨1, _, rfl, List.mem_range'_1.mpr (by omega), by simpa [Fields.operands] using hx⟩
      · exact absurd rfl h
  | rb rb =>
    cases g <;> cases hs
    rename_i rb'
    have h : wordBit [BitVec.ofNat 16 (2 ^ 4 * 4048 + rb.val)] n ≠ wordBit [BitVec.ofNat 16 (2 ^ 4 * 4048 + rb'.val)] n := h
    rcases testBit_field rb.isLt rb'.isLt (wordBit_one h).2 with ⟨hw, hx⟩ | ⟨-, h⟩
    · exact ⟨0, _, rfl, List.mem_range'_1.mpr (by omega), by simpa [Fields.operands] using val_ne hx⟩
    · exact absurd rfl h
  | abs15 abs =>
    cases g <;> cases hs
    rename_i abs'
    have h : wordBit [BitVec.ofNat 16 65039, BitVec.ofNat 16 abs.toNat] n ≠
      wordBit [BitVec.ofNat 16 65039, BitVec.ofNat 16 abs'.toNat] n := h
    rw [show abs.toNat = 2 ^ 15 * 0 + abs.toNat by omega, show abs'.toNat = 2 ^ 15 * 0 + abs'.toNat by omega] at h
    rcases wordBit_two h with ⟨-, h⟩ | ⟨hn, hn', h⟩
    · exact absurd rfl h
    · rcases testBit_field abs.isLt abs'.isLt h with ⟨hw, hx⟩ | ⟨-, h⟩
      · exact ⟨0, _, rfl, List.mem_range'_1.mpr (by omega), by simpa [Fields.operands] using hx⟩
      · exact absurd rfl h
  | rp op rp =>
    cases g <;> cases hs
    rename_i rp'
    have h : wordBit [BitVec.ofNat 16 (64784 + stackCode op * 16 + rp.val)] n ≠
      wordBit [BitVec.ofNat 16 (64784 + stackCode op * 16 + rp'.val)] n := h
    rw [show 64784 + stackCode op * 16 + rp.val = 2 ^ 4 * (4049 + stackCode op) + rp.val by omega,
      show 64784 + stackCode op * 16 + rp'.val = 2 ^ 4 * (4049 + stackCode op) + rp'.val by omega] at h
    rcases testBit_field rp.isLt rp'.isLt (wordBit_one h).2 with ⟨hw, hx⟩ | ⟨-, h⟩
    · exact ⟨0, _, rfl, List.mem_range'_1.mpr (by omega), by simpa [Fields.operands] using val_ne hx⟩
    · exact absurd rfl h
  | raRpDisp4 op ra rp disp =>
    cases g <;> cases hs
    rename_i ra' rp' disp'
    have h : wordBit [BitVec.ofNat 16 (53248 + shortCode op * 4096 + ra.val * 256 + rp.val * 16 + disp.toNat)] n ≠
      wordBit [BitVec.ofNat 16 (53248 + shortCode op * 4096 + ra'.val * 256 + rp'.val * 16 + disp'.toNat)] n := h
    rw [show 53248 + shortCode op * 4096 + ra.val * 256 + rp.val * 16 + disp.toNat =
        2 ^ 4 * (2 ^ 4 * (2 ^ 4 * (13 + shortCode op) + ra.val) + rp.val) + disp.toNat by omega,
      show 53248 + shortCode op * 4096 + ra'.val * 256 + rp'.val * 16 + disp'.toNat =
        2 ^ 4 * (2 ^ 4 * (2 ^ 4 * (13 + shortCode op) + ra'.val) + rp'.val) + disp'.toNat by omega] at h
    rcases testBit_field disp.isLt disp'.isLt (wordBit_one h).2 with ⟨hw, hx⟩ | ⟨hw, h⟩
    · exact ⟨2, _, rfl, List.mem_range'_1.mpr (by omega), by simpa [Fields.operands] using hx⟩
    rcases testBit_field rp.isLt rp'.isLt h with ⟨hw', hx⟩ | ⟨hw', h⟩
    · exact ⟨1, _, rfl, List.mem_range'_1.mpr (by omega), by simpa [Fields.operands] using val_ne hx⟩
    rcases testBit_field ra.isLt ra'.isLt h with ⟨hw'', hx⟩ | ⟨-, h⟩
    · exact ⟨0, _, rfl, List.mem_range'_1.mpr (by omega), by simpa [Fields.operands] using val_ne hx⟩
    · exact absurd rfl h
  | raRpDisp11 op ra rp disp =>
    cases g <;> cases hs
    rename_i ra' rp' disp'
    have h : wordBit [BitVec.ofNat 16 (65040 + longCode op * 8 + (ra.val * 16 + rp.val) / 32),
        BitVec.ofNat 16 ((ra.val * 16 + rp.val) % 32 * 2048 + disp.toNat)] n ≠
      wordBit [BitVec.ofNat 16 (65040 + longCode op * 8 + (ra'.val * 16 + rp'.val) / 32),
        BitVec.ofNat 16 ((ra'.val * 16 + rp'.val) % 32 * 2048 + disp'.toNat)] n := h
    rw [show 65040 + longCode op * 8 + (ra.val * 16 + rp.val) / 32 = 2 ^ 3 * (8130 + longCode op) + ra.val / 2 by omega,
      show 65040 + longCode op * 8 + (ra'.val * 16 + rp'.val) / 32 = 2 ^ 3 * (8130 + longCode op) + ra'.val / 2 by omega,
      show (ra.val * 16 + rp.val) % 32 * 2048 + disp.toNat =
        2 ^ 11 * (2 ^ 4 * (2 ^ 1 * 0 + ra.val % 2) + rp.val) + disp.toNat by omega,
      show (ra'.val * 16 + rp'.val) % 32 * 2048 + disp'.toNat =
        2 ^ 11 * (2 ^ 4 * (2 ^ 1 * 0 + ra'.val % 2) + rp'.val) + disp'.toNat by omega] at h
    rcases wordBit_two h with ⟨hn, h⟩ | ⟨hn, hn', h⟩
    · rcases testBit_field (by omega) (by omega) h with ⟨hw, hx⟩ | ⟨-, h⟩
      · exact ⟨0, _, rfl, by simp; omega, by simpa [Fields.operands] using val_ne fun e => hx (by rw [e])⟩
      · exact absurd rfl h
    rcases testBit_field disp.isLt disp'.isLt h with ⟨hw, hx⟩ | ⟨hw, h⟩
    · exact ⟨2, _, rfl, List.mem_range'_1.mpr (by omega), by simpa [Fields.operands] using hx⟩
    rcases testBit_field rp.isLt rp'.isLt h with ⟨hw', hx⟩ | ⟨hw', h⟩
    · exact ⟨1, _, rfl, List.mem_range'_1.mpr (by omega), by simpa [Fields.operands] using val_ne hx⟩
    rcases testBit_field (by omega) (by omega) h with ⟨hw'', hx⟩ | ⟨-, h⟩
    · exact ⟨0, _, rfl, by simp; omega, by simpa [Fields.operands] using val_ne fun e => hx (by rw [e])⟩
    · exact absurd rfl h
  | raRb op ra rb =>
    cases g <;> cases hs
    rename_i ra' rb'
    have h : wordBit [BitVec.ofNat 16 (61440 + aluCode op * 256 + ra.val * 16 + rb.val)] n ≠
      wordBit [BitVec.ofNat 16 (61440 + aluCode op * 256 + ra'.val * 16 + rb'.val)] n := h
    rw [show 61440 + aluCode op * 256 + ra.val * 16 + rb.val =
        2 ^ 4 * (2 ^ 4 * (240 + aluCode op) + ra.val) + rb.val by omega,
      show 61440 + aluCode op * 256 + ra'.val * 16 + rb'.val =
        2 ^ 4 * (2 ^ 4 * (240 + aluCode op) + ra'.val) + rb'.val by omega] at h
    rcases testBit_field rb.isLt rb'.isLt (wordBit_one h).2 with ⟨hw, hx⟩ | ⟨hw, h⟩
    · exact ⟨1, _, rfl, List.mem_range'_1.mpr (by omega), by simpa [Fields.operands] using val_ne hx⟩
    rcases testBit_field ra.isLt ra'.isLt h with ⟨hw', hx⟩ | ⟨-, h⟩
    · exact ⟨0, _, rfl, List.mem_range'_1.mpr (by omega), by simpa [Fields.operands] using val_ne hx⟩
    · exact absurd rfl h
  | raImm8 op ra imm =>
    cases g <;> cases hs
    rename_i ra' imm'
    have h : wordBit [BitVec.ofNat 16 (aluCode op * 4096 + ra.val * 256 + imm.toNat)] n ≠
      wordBit [BitVec.ofNat 16 (aluCode op * 4096 + ra'.val * 256 + imm'.toNat)] n := h
    rw [show aluCode op * 4096 + ra.val * 256 + imm.toNat = 2 ^ 8 * (2 ^ 4 * aluCode op + ra.val) + imm.toNat by omega,
      show aluCode op * 4096 + ra'.val * 256 + imm'.toNat = 2 ^ 8 * (2 ^ 4 * aluCode op + ra'.val) + imm'.toNat by
        omega] at h
    rcases testBit_field imm.isLt imm'.isLt (wordBit_one h).2 with ⟨hw, hx⟩ | ⟨hw, h⟩
    · exact ⟨1, _, rfl, List.mem_range'_1.mpr (by omega), by simpa [Fields.operands] using hx⟩
    rcases testBit_field ra.isLt ra'.isLt h with ⟨hw', hx⟩ | ⟨-, h⟩
    · exact ⟨0, _, rfl, List.mem_range'_1.mpr (by omega), by simpa [Fields.operands] using val_ne hx⟩
    · exact absurd rfl h
  | raImm16 op ra imm =>
    cases g <;> cases hs
    rename_i ra' imm'
    have h : wordBit [BitVec.ofNat 16 (64832 + aluCode op * 16 + ra.val), BitVec.ofNat 16 imm.toNat] n ≠
      wordBit [BitVec.ofNat 16 (64832 + aluCode op * 16 + ra'.val), BitVec.ofNat 16 imm'.toNat] n := h
    rw [show 64832 + aluCode op * 16 + ra.val = 2 ^ 4 * (4052 + aluCode op) + ra.val by omega,
      show 64832 + aluCode op * 16 + ra'.val = 2 ^ 4 * (4052 + aluCode op) + ra'.val by omega,
      show imm.toNat = 2 ^ 16 * 0 + imm.toNat by omega, show imm'.toNat = 2 ^ 16 * 0 + imm'.toNat by omega] at h
    rcases wordBit_two h with ⟨hn, h⟩ | ⟨hn, hn', h⟩
    · rcases testBit_field ra.isLt ra'.isLt h with ⟨hw, hx⟩ | ⟨-, h⟩
      · exact ⟨0, _, rfl, List.mem_range'_1.mpr (by omega), by simpa [Fields.operands] using val_ne hx⟩
      · exact absurd rfl h
    · rcases testBit_field imm.isLt imm'.isLt h with ⟨hw, hx⟩ | ⟨-, h⟩
      · exact ⟨1, _, rfl, List.mem_range'_1.mpr (by omega), by simpa [Fields.operands] using hx⟩
      · exact absurd rfl h

theorem placesFields : enc.PlacesFields place := by
  refine ⟨fun i hi => ?_, fun i j _ _ hs n h => differs_in_field hs h⟩
  obtain ⟨h1, h2, h3⟩ := place_widths (fieldsOf i)
  refine ⟨h1, h2, ?_⟩
  rw [← countsWords i hi]
  exact h3

/-- R67 can be met: some encoding is lawful. -/
theorem lawful : enc.Lawful := ⟨readable, place, placesFields⟩

end Sys2Proof.Specimen
end

