-- ==== Sys2Proof/Tests/Slice0.lean ====
section
/-! SUPPORT. Tests, expected values from spec/95_test_vectors.md and the rules it cites, none from the model: the
WellFormed smoke, the operand fields of every form, one step of each instruction, the exceptions, and a witness for
the hypotheses of every obligation. -/

namespace Sys2Proof.Tests
open Sys2Proof Sys2Proof.Machine

/-! ### Helpers -/

/-- A small machine: all registers 0, `pc = 0100`, flags 0, nothing in memory, the defaults of R3. -/
def ini : State where
  regs := Vector.replicate 16 0
  pc := 0x0080#15
  cf := false
  zf := false
  vf := false
  nf := false
  iflag := false
  mem := []
  inputs := []
  prog := []
  cfg := defaultConfig .little true 0
  cycles := 0
  draws := 0

/-- `s` with PC at the byte address `a`. -/
def at_ (s : State) (a : Word) : State := s.jump a

/-- `s` with the word `v` in memory at `a`. -/
def word (s : State) (a v : Word) : State := s.pokeWord (a, a + 1) v

/-- `s` with the instruction `i` in the program text at PC. -/
def text (s : State) (i : Instr) : State := { s with prog := [{ pc := s.pc, instr := i }] }

/-- `s` under another configuration. -/
def under (s : State) (f : Config → Config) : State := { s with cfg := f s.cfg }

/-- What `f` sees of the state after an instruction. -/
def sees {α : Type} (i : Instr) (s : State) (f : State → α) : Option α :=
  match exec i s with
  | .next t => some (f t)
  | .fault _ => none
  | .refused _ => none

/-- The same after a step. -/
def stepSees {α : Type} (s : State) (f : State → α) : Option α :=
  match step s with
  | .next t => some (f t)
  | .fault _ => none
  | .refused _ => none

/-- NF, VF, ZF as a number. -/
def nvz (t : State) : Nat := 4 * t.nf.toNat + 2 * t.vf.toNat + t.zf.toNat

/-- CF, ZF, VF, NF, IF as a list. -/
def flags (t : State) : List Bool := [t.cf, t.zf, t.vf, t.nf, t.iflag]

/-- The byte address in PC. -/
def pcOf (t : State) : Word := t.pcAddr

/-- The word a data access finds at `a`. -/
def wordAt (a : Word) (t : State) : Option Word := (t.read16 a).toOption

/-! ### WellFormed: each check refuses an ill-formed term (L1.1, R53 to R59) -/

theorem test_wf_refuses_rp_r15 :
    (Instr.push 15).wellFormed = false ∧ (Instr.ldb 0 15 0).wellFormed = false ∧ (Instr.pop 14).wellFormed = true := by decide

theorem test_wf_refuses_rel8 :
    (Instr.bra 3).wellFormed = false ∧ (Instr.bra 256).wellFormed = false ∧ (Instr.bra (-258)).wellFormed = false ∧
    (Instr.bra 254).wellFormed = true ∧ (Instr.bra (-256)).wellFormed = true := by decide

theorem test_wf_refuses_abs15 :
    (Instr.jmpA 0xFFFF).wellFormed = false ∧ (Instr.jmpA 0xFFFE).wellFormed = true := by decide

theorem test_wf_refuses_disp4 :
    (Instr.ldm 0 1 32).wellFormed = false ∧ (Instr.ldm 0 1 3).wellFormed = false ∧ (Instr.ldm 0 1 30).wellFormed = true := by decide

theorem test_wf_refuses_disp11 :
    (Instr.ldw 0 1 (-1025)).wellFormed = false ∧ (Instr.ldw 0 1 1024).wellFormed = false ∧
    (Instr.ldw 0 1 (-1024)).wellFormed = true ∧ (Instr.ldw 0 1 1023).wellFormed = true := by decide

theorem test_wf_refuses_imm8 :
    (Instr.movI8 0 256).wellFormed = false ∧ (Instr.movI8 0 255).wellFormed = true ∧ (Instr.movI16 0 256).wellFormed = true := by decide

/-! ### The operand fields of every form (R52 to R61): the fields as the spec writes them, and what they decode to -/

theorem test_fields_plain :
    decodeFields (.plain .nop) = .ok .nop ∧
    decodeFields (.plain .clc) = .ok .clc ∧
    decodeFields (.plain .stc) = .ok .stc ∧
    decodeFields (.plain .clz) = .ok .clz ∧
    decodeFields (.plain .stz) = .ok .stz ∧
    decodeFields (.plain .cli) = .ok .cli ∧
    decodeFields (.plain .sti) = .ok .sti ∧
    decodeFields (.plain .ret) = .ok .ret ∧
    decodeFields (.plain .retCli) = .ok .retCli ∧
    decodeFields (.plain .retSti) = .ok .retSti ∧
    decodeFields (.plain .pushFlag) = .ok .pushFlag ∧
    decodeFields (.plain .popFlag) = .ok .popFlag := by decide

theorem test_fields_branch :
    decodeFields (.ccRel8 .cs 0xFD#8) = .ok (.bcs (-6)) ∧
    decodeFields (.ccRel8 .cc 0xFD#8) = .ok (.bcc (-6)) ∧
    decodeFields (.ccRel8 .eq 0xFD#8) = .ok (.beq (-6)) ∧
    decodeFields (.ccRel8 .ne 0xFD#8) = .ok (.bne (-6)) ∧
    decodeFields (.ccRel8 .vs 0xFD#8) = .ok (.bvs (-6)) ∧
    decodeFields (.ccRel8 .vc 0xFD#8) = .ok (.bvc (-6)) ∧
    decodeFields (.ccRel8 .mi 0xFD#8) = .ok (.bmi (-6)) ∧
    decodeFields (.ccRel8 .pl 0xFD#8) = .ok (.bpl (-6)) ∧
    decodeFields (.ccRel8 .ls 0xFD#8) = .ok (.bls (-6)) ∧
    decodeFields (.ccRel8 .hi 0xFD#8) = .ok (.bhi (-6)) ∧
    decodeFields (.ccRel8 .lt 0xFD#8) = .ok (.blt (-6)) ∧
    decodeFields (.ccRel8 .ge 0xFD#8) = .ok (.bge (-6)) ∧
    decodeFields (.ccRel8 .le 0xFD#8) = .ok (.ble (-6)) ∧
    decodeFields (.ccRel8 .gt 0xFD#8) = .ok (.bgt (-6)) ∧
    decodeFields (.ccRel8 .al 0xFD#8) = .ok (.bra (-6)) := by decide

theorem test_fields_jump_register :
    decodeFields (.ccRb .cs 3) = .ok (.jcsR 3) ∧
    decodeFields (.ccRb .cc 3) = .ok (.jccR 3) ∧
    decodeFields (.ccRb .eq 3) = .ok (.jeqR 3) ∧
    decodeFields (.ccRb .ne 3) = .ok (.jneR 3) ∧
    decodeFields (.ccRb .vs 3) = .ok (.jvsR 3) ∧
    decodeFields (.ccRb .vc 3) = .ok (.jvcR 3) ∧
    decodeFields (.ccRb .mi 3) = .ok (.jmiR 3) ∧
    decodeFields (.ccRb .pl 3) = .ok (.jplR 3) ∧
    decodeFields (.ccRb .ls 3) = .ok (.jlsR 3) ∧
    decodeFields (.ccRb .hi 3) = .ok (.jhiR 3) ∧
    decodeFields (.ccRb .lt 3) = .ok (.jltR 3) ∧
    decodeFields (.ccRb .ge 3) = .ok (.jgeR 3) ∧
    decodeFields (.ccRb .le 3) = .ok (.jleR 3) ∧
    decodeFields (.ccRb .gt 3) = .ok (.jgtR 3) ∧
    decodeFields (.ccRb .al 3) = .ok (.jmpR 3) := by decide

theorem test_fields_jump_address :
    decodeFields (.ccAbs15 .cs 0x1001#15) = .ok (.jcsA 0x2002#16) ∧
    decodeFields (.ccAbs15 .cc 0x1001#15) = .ok (.jccA 0x2002#16) ∧
    decodeFields (.ccAbs15 .eq 0x1001#15) = .ok (.jeqA 0x2002#16) ∧
    decodeFields (.ccAbs15 .ne 0x1001#15) = .ok (.jneA 0x2002#16) ∧
    decodeFields (.ccAbs15 .vs 0x1001#15) = .ok (.jvsA 0x2002#16) ∧
    decodeFields (.ccAbs15 .vc 0x1001#15) = .ok (.jvcA 0x2002#16) ∧
    decodeFields (.ccAbs15 .mi 0x1001#15) = .ok (.jmiA 0x2002#16) ∧
    decodeFields (.ccAbs15 .pl 0x1001#15) = .ok (.jplA 0x2002#16) ∧
    decodeFields (.ccAbs15 .ls 0x1001#15) = .ok (.jlsA 0x2002#16) ∧
    decodeFields (.ccAbs15 .hi 0x1001#15) = .ok (.jhiA 0x2002#16) ∧
    decodeFields (.ccAbs15 .lt 0x1001#15) = .ok (.jltA 0x2002#16) ∧
    decodeFields (.ccAbs15 .ge 0x1001#15) = .ok (.jgeA 0x2002#16) ∧
    decodeFields (.ccAbs15 .le 0x1001#15) = .ok (.jleA 0x2002#16) ∧
    decodeFields (.ccAbs15 .gt 0x1001#15) = .ok (.jgtA 0x2002#16) ∧
    decodeFields (.ccAbs15 .al 0x1001#15) = .ok (.jmpA 0x2002#16) := by decide

theorem test_fields_call_and_stack :
    decodeFields (.rb 4) = .ok (.jsrR 4) ∧
    decodeFields (.abs15 0x7FFF#15) = .ok (.jsrA 0xFFFE#16) ∧
    decodeFields (.rp .push 14) = .ok (.push 14) ∧
    decodeFields (.rp .pop 0) = .ok (.pop 0) := by decide

theorem test_fields_rp_r15_refused :
    decodeFields (.rp .push 15) = .error .rpIsR15 ∧ decodeFields (.raRpDisp4 .ldm 1 15 0) = .error .rpIsR15 ∧
    decodeFields (.raRpDisp11 .stb 1 15 0) = .error .rpIsR15 := by decide

theorem test_fields_memory :
    decodeFields (.raRpDisp4 .ldm 1 2 0x3#4) = .ok (.ldm 1 2 6) ∧
    decodeFields (.raRpDisp4 .stm 7 2 0xF#4) = .ok (.stm 2 30 7) ∧
    decodeFields (.raRpDisp11 .ldw 0 3 0x400#11) = .ok (.ldw 0 3 (-1024)) ∧
    decodeFields (.raRpDisp11 .stw 9 3 0x3FE#11) = .ok (.stw 3 1022 9) ∧
    decodeFields (.raRpDisp11 .ldb 1 2 0x7FF#11) = .ok (.ldb 1 2 (-1)) ∧
    decodeFields (.raRpDisp11 .stb 6 2 0x3FF#11) = .ok (.stb 2 1023 6) := by decide

theorem test_fields_alu_register :
    decodeFields (.raRb .mov 1 15) = .ok (.movR 1 15) ∧
    decodeFields (.raRb .and 1 15) = .ok (.andR 1 15) ∧
    decodeFields (.raRb .or 1 15) = .ok (.orR 1 15) ∧
    decodeFields (.raRb .xor 1 15) = .ok (.xorR 1 15) ∧
    decodeFields (.raRb .add 1 15) = .ok (.addR 1 15) ∧
    decodeFields (.raRb .adc 1 15) = .ok (.adcR 1 15) ∧
    decodeFields (.raRb .sub 1 15) = .ok (.subR 1 15) ∧
    decodeFields (.raRb .sbc 1 15) = .ok (.sbcR 1 15) ∧
    decodeFields (.raRb .mlt 1 15) = .ok (.mltR 1 15) ∧
    decodeFields (.raRb .mlh 1 15) = .ok (.mlhR 1 15) ∧
    decodeFields (.raRb .tst 1 15) = .ok (.tstR 1 15) ∧
    decodeFields (.raRb .cmp 1 15) = .ok (.cmpR 1 15) := by decide

theorem test_fields_alu_imm8 :
    decodeFields (.raImm8 .mov 2 0xFF#8) = .ok (.movI8 2 255) ∧
    decodeFields (.raImm8 .and 2 0xFF#8) = .ok (.andI8 2 255) ∧
    decodeFields (.raImm8 .or 2 0xFF#8) = .ok (.orI8 2 255) ∧
    decodeFields (.raImm8 .xor 2 0xFF#8) = .ok (.xorI8 2 255) ∧
    decodeFields (.raImm8 .add 2 0xFF#8) = .ok (.addI8 2 255) ∧
    decodeFields (.raImm8 .adc 2 0xFF#8) = .ok (.adcI8 2 255) ∧
    decodeFields (.raImm8 .sub 2 0xFF#8) = .ok (.subI8 2 255) ∧
    decodeFields (.raImm8 .sbc 2 0xFF#8) = .ok (.sbcI8 2 255) ∧
    decodeFields (.raImm8 .mlt 2 0xFF#8) = .ok (.mltI8 2 255) ∧
    decodeFields (.raImm8 .mlh 2 0xFF#8) = .ok (.mlhI8 2 255) ∧
    decodeFields (.raImm8 .tst 2 0xFF#8) = .ok (.tstI8 2 255) ∧
    decodeFields (.raImm8 .cmp 2 0xFF#8) = .ok (.cmpI8 2 255) := by decide

theorem test_fields_alu_imm16 :
    decodeFields (.raImm16 .mov 15 0x8001#16) = .ok (.movI16 15 0x8001#16) ∧
    decodeFields (.raImm16 .and 15 0x8001#16) = .ok (.andI16 15 0x8001#16) ∧
    decodeFields (.raImm16 .or 15 0x8001#16) = .ok (.orI16 15 0x8001#16) ∧
    decodeFields (.raImm16 .xor 15 0x8001#16) = .ok (.xorI16 15 0x8001#16) ∧
    decodeFields (.raImm16 .add 15 0x8001#16) = .ok (.addI16 15 0x8001#16) ∧
    decodeFields (.raImm16 .adc 15 0x8001#16) = .ok (.adcI16 15 0x8001#16) ∧
    decodeFields (.raImm16 .sub 15 0x8001#16) = .ok (.subI16 15 0x8001#16) ∧
    decodeFields (.raImm16 .sbc 15 0x8001#16) = .ok (.sbcI16 15 0x8001#16) ∧
    decodeFields (.raImm16 .mlt 15 0x8001#16) = .ok (.mltI16 15 0x8001#16) ∧
    decodeFields (.raImm16 .mlh 15 0x8001#16) = .ok (.mlhI16 15 0x8001#16) ∧
    decodeFields (.raImm16 .tst 15 0x8001#16) = .ok (.tstI16 15 0x8001#16) ∧
    decodeFields (.raImm16 .cmp 15 0x8001#16) = .ok (.cmpI16 15 0x8001#16) := by decide

theorem test_fields_of_bne :
    fieldsOf (.bne (-6)) = .ccRel8 .ne 0xFD#8 ∧ fieldsOf (.ldw 0 3 (-1024)) = .raRpDisp11 .ldw 0 3 0x400#11 ∧
    fieldsOf (.stm 2 30 7) = .raRpDisp4 .stm 7 2 0xF#4 ∧ fieldsOf (.jmpA 0xFFFE#16) = .ccAbs15 .al 0x7FFF#15 := by decide

/-! ### System control (L2.1) -/

theorem test_nop :
    sees .nop { ini with cf := true, vf := true, iflag := true } (fun t => (flags t, pcOf t)) = some ([true, false, true, false, true], 0x0102) := by decide

theorem test_clc :
    sees .clc { ini with cf := true, vf := true, iflag := true } (fun t => (flags t, pcOf t)) = some ([false, false, true, false, true], 0x0102) := by decide

theorem test_stz :
    sees .stz { ini with cf := true, vf := true, iflag := true } (fun t => (flags t, pcOf t)) = some ([true, true, true, false, true], 0x0102) := by decide

theorem test_cli :
    sees .cli { ini with cf := true, vf := true, iflag := true } (fun t => (flags t, pcOf t)) = some ([true, false, true, false, false], 0x0102) := by decide

theorem test_stc :
    sees .stc { ini with zf := true, nf := true } (fun t => (flags t, pcOf t)) = some ([true, true, false, true, false], 0x0102) := by decide

theorem test_clz :
    sees .clz { ini with zf := true, nf := true } (fun t => (flags t, pcOf t)) = some ([false, false, false, true, false], 0x0102) := by decide

theorem test_sti :
    sees .sti { ini with zf := true, nf := true } (fun t => (flags t, pcOf t)) = some ([false, true, false, true, true], 0x0102) := by decide

theorem test_nop_wraps : sees .nop (at_ ini 0xFFFE) pcOf = some 0 := by decide

/-! ### Condition codes (L2.2, default table): the codes in the order of R80 -/

/-- The truth of the fifteen codes under CF, ZF, VF, NF. -/
def codes (cf zf vf nf : Bool) : List Bool :=
  [Cond.cs, .cc, .eq, .ne, .vs, .vc, .mi, .pl, .ls, .hi, .lt, .ge, .le, .gt, .al].map fun c =>
    condHolds defaultCondTable c cf zf vf nf

theorem test_codes_0000 :
    codes false false false false =
      [false, true, false, true, false, true, false, true, true, false, false, true, false, true, true] := by decide

theorem test_codes_1000 :
    codes true false false false =
      [true, false, false, true, false, true, false, true, false, true, false, true, false, true, true] := by decide

theorem test_codes_0100 :
    codes false true false false =
      [false, true, true, false, false, true, false, true, true, false, false, true, true, false, true] := by decide

theorem test_codes_1100 :
    codes true true false false =
      [true, false, true, false, false, true, false, true, true, false, false, true, true, false, true] := by decide

theorem test_codes_0010 :
    codes false false true false =
      [false, true, false, true, true, false, false, true, true, false, true, false, true, false, true] := by decide

theorem test_codes_0001 :
    codes false false false true =
      [false, true, false, true, false, true, true, false, true, false, true, false, true, false, true] := by decide

theorem test_codes_0011 :
    codes false false true true =
      [false, true, false, true, true, false, true, false, true, false, false, true, false, true, true] := by decide

theorem test_codes_1011 :
    codes true false true true =
      [true, false, false, true, true, false, true, false, false, true, false, true, false, true, true] := by decide

theorem test_codes_1111 :
    codes true true true true =
      [true, false, true, false, true, false, true, false, true, false, false, true, true, false, true] := by decide

/-! ### Branches and jumps (L2.3) -/

theorem test_beq_taken : sees (.beq 254) (at_ { ini with zf := true } 0x1000) pcOf = some 0x1100 := by decide

theorem test_beq_not_taken : sees (.beq 254) (at_ ini 0x1000) pcOf = some 0x1002 := by decide

theorem test_bne_back : sees (.bne (-256)) (at_ ini 0x1000) pcOf = some 0x0F02 := by decide

theorem test_bra_self : sees (.bra (-2)) (at_ ini 0x1000) pcOf = some 0x1000 := by decide

theorem test_branch_target_wraps :
    (at_ ini 0xFFFE).branchTarget 4 = 0x0004 ∧ (at_ ini 0x0000).branchTarget (-256) = 0xFF02 := by decide

theorem test_bcs_taken : sees (.bcs 16) (at_ { ini with cf := true } 0x1000) pcOf = some 0x1012 := by decide

theorem test_bmi_not_taken : sees (.bmi (-4)) (at_ ini 0x1000) pcOf = some 0x1002 := by decide

theorem test_bra_rel_base_self :
    sees (.bra (-2)) (at_ (under ini fun c => { c with relBase := .self }) 0x1000) pcOf = some 0x0FFE := by decide

/-- A state with a jump target in R3. -/
def withR3 : State := ini.setReg 3 0x1235

/-- The same with all four ALU flags set. -/
def withR3On : State := { withR3 with cf := true, zf := true, vf := true, nf := true }

theorem test_all_branches_flags_0 :
    ([(.bcs 16, 0x1002), (.bcc 16, 0x1012), (.beq 16, 0x1002), (.bne 16, 0x1012), (.bvs 16, 0x1002), (.bvc 16, 0x1012), (.bmi 16, 0x1002), (.bpl 16, 0x1012), (.bls 16, 0x1012), (.bhi 16, 0x1002), (.blt 16, 0x1002), (.bge 16, 0x1012), (.ble 16, 0x1002), (.bgt 16, 0x1012), (.bra 16, 0x1012)] :
      List (Instr × Word)).all (fun q => sees q.1 (at_ withR3 0x1000) pcOf = some q.2) = true := by decide

theorem test_all_branches_flags_1 :
    ([(.bcs 16, 0x1012), (.bcc 16, 0x1002), (.beq 16, 0x1012), (.bne 16, 0x1002), (.bvs 16, 0x1012), (.bvc 16, 0x1002), (.bmi 16, 0x1012), (.bpl 16, 0x1002), (.bls 16, 0x1012), (.bhi 16, 0x1002), (.blt 16, 0x1002), (.bge 16, 0x1012), (.ble 16, 0x1012), (.bgt 16, 0x1002), (.bra 16, 0x1012)] :
      List (Instr × Word)).all (fun q => sees q.1 (at_ withR3On 0x1000) pcOf = some q.2) = true := by decide

theorem test_all_register_jumps_flags_0 :
    ([(.jcsR 3, 0x0102), (.jccR 3, 0x1234), (.jeqR 3, 0x0102), (.jneR 3, 0x1234), (.jvsR 3, 0x0102), (.jvcR 3, 0x1234), (.jmiR 3, 0x0102), (.jplR 3, 0x1234), (.jlsR 3, 0x1234), (.jhiR 3, 0x0102), (.jltR 3, 0x0102), (.jgeR 3, 0x1234), (.jleR 3, 0x0102), (.jgtR 3, 0x1234), (.jmpR 3, 0x1234)] :
      List (Instr × Word)).all (fun q => sees q.1 (at_ withR3 0x0100) pcOf = some q.2) = true := by decide

theorem test_all_register_jumps_flags_1 :
    ([(.jcsR 3, 0x1234), (.jccR 3, 0x0102), (.jeqR 3, 0x1234), (.jneR 3, 0x0102), (.jvsR 3, 0x1234), (.jvcR 3, 0x0102), (.jmiR 3, 0x1234), (.jplR 3, 0x0102), (.jlsR 3, 0x1234), (.jhiR 3, 0x0102), (.jltR 3, 0x0102), (.jgeR 3, 0x1234), (.jleR 3, 0x1234), (.jgtR 3, 0x0102), (.jmpR 3, 0x1234)] :
      List (Instr × Word)).all (fun q => sees q.1 (at_ withR3On 0x0100) pcOf = some q.2) = true := by decide

theorem test_all_address_jumps_flags_0 :
    ([(.jcsA 0x2000, 0x0000), (.jccA 0x2000, 0x2000), (.jeqA 0x2000, 0x0000), (.jneA 0x2000, 0x2000), (.jvsA 0x2000, 0x0000), (.jvcA 0x2000, 0x2000), (.jmiA 0x2000, 0x0000), (.jplA 0x2000, 0x2000), (.jlsA 0x2000, 0x2000), (.jhiA 0x2000, 0x0000), (.jltA 0x2000, 0x0000), (.jgeA 0x2000, 0x2000), (.jleA 0x2000, 0x0000), (.jgtA 0x2000, 0x2000), (.jmpA 0x2000, 0x2000)] :
      List (Instr × Word)).all (fun q => sees q.1 (at_ withR3 0xFFFC) pcOf = some q.2) = true := by decide

theorem test_all_address_jumps_flags_1 :
    ([(.jcsA 0x2000, 0x2000), (.jccA 0x2000, 0x0000), (.jeqA 0x2000, 0x2000), (.jneA 0x2000, 0x0000), (.jvsA 0x2000, 0x2000), (.jvcA 0x2000, 0x0000), (.jmiA 0x2000, 0x2000), (.jplA 0x2000, 0x0000), (.jlsA 0x2000, 0x2000), (.jhiA 0x2000, 0x0000), (.jltA 0x2000, 0x0000), (.jgeA 0x2000, 0x2000), (.jleA 0x2000, 0x2000), (.jgtA 0x2000, 0x0000), (.jmpA 0x2000, 0x2000)] :
      List (Instr × Word)).all (fun q => sees q.1 (at_ withR3On 0xFFFC) pcOf = some q.2) = true := by decide

theorem test_jmp_r15 :
    sees (.jmpR 15) (ini.setReg 15 0x8000) (fun t => (pcOf t, t.sp)) = some (0x8000, 0x8000) := by decide

theorem test_jmp_abs : sees (.jmpA 0xFFFE) ini pcOf = some 0xFFFE := by decide

/-! ### Calls and returns (L2.4) -/

theorem test_jsrR :
    sees (.jsrR 4) { (at_ ((ini.setReg 4 0x3001).setReg 15 0x8000) 0x0200) with iflag := true }
      (fun t => (t.sp, wordAt 0x7FFE t, pcOf t, t.iflag, t.reg 4)) = some (0x7FFE, some 0x0203, 0x3000, true, 0x3001) := by decide

theorem test_jsrR_npc_wraps :
    sees (.jsrR 4) (at_ ((ini.setReg 4 0x0100).setReg 15 0x8000) 0xFFFE)
      (fun t => (wordAt 0x7FFE t, pcOf t)) = some (some 0x0000, 0x0100) := by decide

theorem test_jsrA :
    sees (.jsrA 0x4000) (at_ (ini.setReg 15 0x8000) 0x0200)
      (fun t => (t.sp, wordAt 0x7FFE t, pcOf t)) = some (0x7FFE, some 0x0204, 0x4000) := by decide

theorem test_jsrA_sp_wraps :
    sees (.jsrA 0x4000) { (at_ ini 0x0200) with iflag := true }
      (fun t => (t.sp, wordAt 0xFFFE t, pcOf t)) = some (0xFFFE, some 0x0205, 0x4000) := by decide

/-- A return word at 7FFE. -/
def returning : State := word (ini.setReg 15 0x7FFE) 0x7FFE 0x0203

theorem test_ret :
    sees .ret { returning with iflag := false } (fun t => (pcOf t, t.sp, t.iflag)) = some (0x0202, 0x8000, false) := by decide

theorem test_retCli :
    sees .retCli { returning with iflag := true } (fun t => (pcOf t, t.sp, t.iflag)) = some (0x0202, 0x8000, false) := by decide

theorem test_retSti :
    sees .retSti { returning with iflag := false } (fun t => (pcOf t, t.sp, t.iflag)) = some (0x0202, 0x8000, true) := by decide

/-! ### Stack (L2.5) -/

theorem test_push :
    sees (.push 3) ((ini.setReg 15 0x8000).setReg 3 0xCAFE) (fun t => (t.sp, wordAt 0x7FFE t, pcOf t)) =
      some (0x7FFE, some 0xCAFE, 0x0102) := by decide

theorem test_push_wraps :
    sees (.push 3) (ini.setReg 3 1) (fun t => (t.sp, wordAt 0xFFFE t)) = some (0xFFFE, some 1) := by decide

theorem test_pop :
    sees (.pop 5) (word (ini.setReg 15 0x7FFE) 0x7FFE 0xCAFE) (fun t => (t.reg 5, t.sp, flags t)) =
      some (0xCAFE, 0x8000, flags ini) := by decide

theorem test_pop_wraps :
    sees (.pop 5) (word (ini.setReg 15 0xFFFE) 0xFFFE 1) (fun t => (t.reg 5, t.sp)) = some (1, 0) := by decide

theorem test_pushFlag :
    sees .pushFlag { ini.setReg 15 0x8000 with iflag := true, nf := true, cf := true }
      (fun t => (t.sp, wordAt 0x7FFE t)) = some (0x7FFE, some 0x0019) := by decide

theorem test_pushFlag_vzc :
    sees .pushFlag { ini.setReg 15 0x8000 with vf := true, zf := true, cf := true } (wordAt 0x7FFE) = some (some 0x0007) := by decide

theorem test_popFlag :
    sees .popFlag (word (ini.setReg 15 0x7FFE) 0x7FFE 0xFFFF) (fun t => (flags t, t.sp)) =
      some ([true, true, true, true, false], 0x8000) := by decide

theorem test_popFlag_bits :
    sees .popFlag (word (ini.setReg 15 0x7FFE) 0x7FFE 0x000A) flags = some [false, true, false, true, false] := by decide

/-! ### Memory operations (L2.6) -/

theorem test_ldm :
    sees (.ldm 1 2 6) (word (ini.setReg 2 0x4000) 0x4006 0x1234) (fun t => (t.reg 1, pcOf t)) = some (0x1234, 0x0102) := by decide

theorem test_ldm_ea_wraps :
    sees (.ldm 1 2 30) (word (ini.setReg 2 0xFFF0) 0x000E 0x5678) (·.reg 1) = some 0x5678 := by decide

theorem test_stm :
    sees (.stm 2 30 7) ((ini.setReg 2 0x4000).setReg 7 0xCAFE) (fun t => (wordAt 0x401E t, pcOf t)) = some (some 0xCAFE, 0x0102) := by decide

theorem test_stm_base : sees (.stm 2 0 2) (ini.setReg 2 0x4000) (wordAt 0x4000) = some (some 0x4000) := by decide

theorem test_ldw :
    sees (.ldw 0 3 (-1024)) (word (ini.setReg 3 0x5000) 0x4C00 0xA55A) (fun t => (t.reg 0, pcOf t)) = some (0xA55A, 0x0104) := by decide

theorem test_stw :
    sees (.stw 3 1022 9) ((ini.setReg 3 0x5000).setReg 9 1) (fun t => (wordAt 0x53FE t, pcOf t)) = some (some 1, 0x0104) := by decide

theorem test_ldb :
    sees (.ldb 1 2 1) { (ini.setReg 1 0xAB00).setReg 2 0x4000 with mem := [(0x4001, 0x7F)] } (·.reg 1) = some 0xAB7F := by decide

theorem test_ldb_no_sign :
    sees (.ldb 1 2 1023) { ini.setReg 2 1 with mem := [(0x0400, 0x80)] } (fun t => (t.reg 1, pcOf t)) = some (0x0080, 0x0104) := by decide

theorem test_stb :
    sees (.stb 2 (-1) 6) ((ini.setReg 2 0x4000).setReg 6 0x12EF) (fun t => (t.mem.read 0x3FFF, t.mem.read 0x3FFE)) =
      some (some 0xEF, none) := by decide

theorem test_stb_wraps :
    sees (.stb 2 (-1024) 6) (ini.setReg 6 0x55) (fun t => (t.mem.read 0xFC00, pcOf t)) = some (some 0x55, 0x0104) := by decide

theorem test_byte_orders :
    [joinBytes .little 0x34 0x12, joinBytes .big 0x12 0x34] = [0x1234, 0x1234] ∧
    [lowerByte .little 0x1234, upperByte .little 0x1234] = [0x34, 0x12] ∧
    [lowerByte .big 0x1234, upperByte .big 0x1234] = [0x12, 0x34] := by decide

theorem test_ignore_bit0 :
    (under (word ini 0x5000 0xBEEF) fun c => { c with misaligned16 := .ignoreBit0 }).read16 0x5001 = .ok 0xBEEF := rfl

theorem test_split :
    ((under ini fun c => { c with misaligned16 := .split }).write16 0xFFFF 0xABCD).toOption.map
      (fun t => (t.mem.read 0xFFFF, t.mem.read 0)) = some (some 0xCD, some 0xAB) := rfl

theorem test_odd_refused :
    ini.read16 0x5001 = .error (.refused .misaligned) ∧ ini.read16 0x5000 = .error (.fault .valuelessByte) := ⟨rfl, rfl⟩

theorem test_memmap :
    (under ini fun c => { c with memMap := [{ first := 1, last := 0xFFFF }] }).read8 0 = .error (.refused .outsideMemMap) := rfl

theorem test_text_not_data :
    (text ini .nop).read8 0x0101 = .error (.refused .programText) ∧
    (text ini .nop).read8 0x0102 = .error (.fault .valuelessByte) := ⟨rfl, rfl⟩

/-! ### ALU (L2.7 to L2.9): result, N V Z as a number, CF or the draw of it, pc -/

/-- R1 and R2 as given, CF as given. -/
def two (a b : Word) (c : Bool) : State := { (ini.setReg 1 a).setReg 2 b with cf := c }

/-- R1, N V Z, CF and pc after the instruction. -/
def res (t : State) : Word × Nat × Bool × Word := (t.reg 1, nvz t, t.cf, pcOf t)

/-- R1, N V Z, the number of draws and pc after an instruction that leaves CF undefined. -/
def resD (t : State) : Word × Nat × Nat × Word := (t.reg 1, nvz t, t.draws, pcOf t)

theorem test_movR : sees (.movR 1 2) (two 0x0000 0x8000 false) resD = some (0x8000, 6, 1, 0x0102) := by decide

theorem test_movR_old_sign :
    sees (.movR 1 2) (two 0x8000 0x0000 false) resD = some (0x0000, 3, 1, 0x0102) := by decide

theorem test_andR : sees (.andR 1 2) (two 0xF0F0 0x0FF0 false) resD = some (0x00F0, 2, 1, 0x0102) := by decide

theorem test_orR : sees (.orR 1 2) (two 0x00F0 0x8000 false) resD = some (0x80F0, 6, 1, 0x0102) := by decide

theorem test_xorR_same : sees (.xorR 1 2) (two 0xAAAA 0xAAAA false) resD = some (0x0000, 3, 1, 0x0102) := by decide

theorem test_addR_ignores_cf :
    sees (.addR 1 2) (two 0x7FFF 0x0001 true) res = some (0x8000, 6, false, 0x0102) := by decide

theorem test_adcR : sees (.adcR 1 2) (two 0xFFFF 0xFFFF true) res = some (0xFFFF, 4, true, 0x0102) := by decide

theorem test_adcR_no_carry :
    sees (.adcR 1 2) (two 0x1234 0x1234 false) res = some (0x2468, 0, false, 0x0102) := by decide

theorem test_subR : sees (.subR 1 2) (two 0x0003 0x0005 false) res = some (0xFFFE, 6, true, 0x0102) := by decide

theorem test_subR_ignores_cf :
    sees (.subR 1 2) (two 0x8000 0x0001 true) res = some (0x7FFF, 2, false, 0x0102) := by decide

theorem test_sbcR : sees (.sbcR 1 2) (two 0x0000 0xFFFF true) res = some (0x0000, 1, true, 0x0102) := by decide

theorem test_sbcR_no_borrow :
    sees (.sbcR 1 2) (two 0x0005 0x0003 false) res = some (0x0002, 0, false, 0x0102) := by decide

theorem test_tstR : sees (.tstR 1 2) (two 0x8000 0xFFFF false) resD = some (0x8000, 4, 1, 0x0102) := by decide

theorem test_cmpR : sees (.cmpR 1 2) (two 0x0003 0x0005 false) res = some (0x0003, 6, true, 0x0102) := by decide

theorem test_mltR_unsigned :
    sees (.mltR 1 2) (under (two 0xFFFF 0x0003 false) fun c => { c with mulSigned := false }) res = some (0xFFFD, 4, false, 0x0102) := by decide

theorem test_mltR_signed :
    sees (.mltR 1 2) (two 0xFFFF 0x0003 false) res = some (0xFFFD, 4, true, 0x0102) := by decide

theorem test_mlhR_unsigned :
    sees (.mlhR 1 2) (under (two 0xFFFF 0x0002 false) fun c => { c with mulSigned := false }) resD = some (0x0001, 2, 1, 0x0102) := by decide

theorem test_mlhR_signed : sees (.mlhR 1 2) (two 0xFFFF 0x0002 false) resD = some (0xFFFF, 4, 1, 0x0102) := by decide

theorem test_addR_same_register :
    sees (.addR 1 1) (two 0x4000 0 false) res = some (0x8000, 6, false, 0x0102) := by decide

theorem test_movI8 : sees (.movI8 1 255) (two 0x8000 0 false) resD = some (0x00FF, 2, 1, 0x0102) := by decide

theorem test_andI8 : sees (.andI8 1 255) (two 0xFFFF 0 false) resD = some (0x00FF, 2, 1, 0x0102) := by decide

theorem test_orI8 : sees (.orI8 1 128) (two 0x0001 0 false) resD = some (0x0081, 0, 1, 0x0102) := by decide

theorem test_xorI8 : sees (.xorI8 1 255) (two 0x00FF 0 false) resD = some (0x0000, 1, 1, 0x0102) := by decide

theorem test_addI8 : sees (.addI8 1 255) (two 0x0001 0 false) res = some (0x0100, 0, false, 0x0102) := by decide

theorem test_adcI8 : sees (.adcI8 1 0) (two 0xFFFF 0 true) res = some (0x0000, 3, true, 0x0102) := by decide

theorem test_subI8 : sees (.subI8 1 1) (two 0x0000 0 false) res = some (0xFFFF, 6, true, 0x0102) := by decide

theorem test_sbcI8 : sees (.sbcI8 1 0) (two 0x0001 0 true) res = some (0x0000, 1, false, 0x0102) := by decide

theorem test_mltI8 : sees (.mltI8 1 10) (two 0x199A 0 false) res = some (0x0004, 0, true, 0x0102) := by decide

theorem test_mlhI8_unsigned :
    sees (.mlhI8 1 255) (under (two 0xFFFF 0 false) fun c => { c with mulSigned := false }) resD = some (0x00FE, 2, 1, 0x0102) := by decide

theorem test_mlhI8_signed : sees (.mlhI8 1 255) (two 0xFFFF 0 false) resD = some (0xFFFF, 4, 1, 0x0102) := by decide

theorem test_tstI8 : sees (.tstI8 1 1) (two 0x0002 0 false) resD = some (0x0002, 1, 1, 0x0102) := by decide

theorem test_cmpI8 : sees (.cmpI8 1 255) (two 0x0010 0 false) res = some (0x0010, 6, true, 0x0102) := by decide

theorem test_movI16 : sees (.movI16 1 0xFFFF) (two 0x0000 0 false) resD = some (0xFFFF, 6, 1, 0x0104) := by decide

theorem test_andI16 : sees (.andI16 1 0xFF00) (two 0x1234 0 false) resD = some (0x1200, 0, 1, 0x0104) := by decide

theorem test_orI16 : sees (.orI16 1 0x8000) (two 0x0001 0 false) resD = some (0x8001, 6, 1, 0x0104) := by decide

theorem test_xorI16 : sees (.xorI16 1 0xFFFF) (two 0x0001 0 false) resD = some (0xFFFE, 6, 1, 0x0104) := by decide

theorem test_addI16 : sees (.addI16 1 0xFFFF) (two 0x0001 0 false) res = some (0x0000, 1, true, 0x0104) := by decide

theorem test_adcI16 : sees (.adcI16 1 0x8000) (two 0x8000 0 true) res = some (0x0001, 2, true, 0x0104) := by decide

theorem test_subI16 : sees (.subI16 1 0x1234) (two 0x1234 0 false) res = some (0x0000, 1, false, 0x0104) := by decide

theorem test_sbcI16 : sees (.sbcI16 1 0xFFFF) (two 0x0000 0 false) res = some (0x0001, 0, true, 0x0104) := by decide

theorem test_mltI16_unsigned :
    sees (.mltI16 1 0xFFFF) (under (two 0x8000 0 false) fun c => { c with mulSigned := false }) res = some (0x8000, 4, true, 0x0104) := by decide

theorem test_mltI16_signed :
    sees (.mltI16 1 0xFFFF) (two 0x8000 0 false) res = some (0x8000, 4, false, 0x0104) := by decide

theorem test_tstI16 : sees (.tstI16 1 0x8000) (two 0x8000 0 false) resD = some (0x8000, 4, 1, 0x0104) := by decide

theorem test_cmpI16 : sees (.cmpI16 1 0x8000) (two 0x7FFF 0 false) res = some (0x7FFF, 6, true, 0x0104) := by decide

theorem test_mlhI16_cf_product_bit16 :
    sees (.mlhI16 1 0x1000) (under (two 0x1234 0 false) fun c => { c with mlhCf := .productBit16 }) res =
      some (0x0123, 0, true, 0x0104) := by decide

theorem test_mlhI16_cf_zero :
    sees (.mlhI16 1 0x8000) (under (two 0x8000 0 true) fun c => { c with mlhCf := .zero }) res =
      some (0x4000, 2, false, 0x0104) := by decide

/-! ### Exceptions (L2.10, with the vector numbers that section assumes) -/

/-- A boundary that presents a reset and a request for vector 2. -/
def resetAndRequest : Boundary := { reset := true, irq := some 2 }

/-- A boundary that presents a request for vector 2. -/
def request : Boundary := { reset := false, irq := some 2 }

/-- The state before the RESET exception of L2.10. -/
def beforeReset : State :=
  { word (ini.setReg 15 0x1234) 0x0000 0x0101 with iflag := true, inputs := [resetAndRequest] }

/-- The state before the interrupt exception of L2.10, under one value of INT_PUSHED_IF. -/
def beforeInterrupt (p : IntPushedIf) : State :=
  { under (at_ (word (ini.setReg 15 0xA000) 0x0004 0x0700) 0x060C) (fun c => { c with intPushedIf := p }) with
    iflag := true, inputs := [request] }

theorem test_reset :
    stepSees beforeReset (fun t => (t.iflag, pcOf t, t.sp, t.inputs, t.cycles)) = some (false, 0x0100, 0x1234, [], 2) := by decide

theorem test_interrupt_zero :
    stepSees (beforeInterrupt .zero) (fun t => (t.iflag, pcOf t, t.sp, wordAt 0x9FFE t, t.cycles)) =
      some (false, 0x0700, 0x9FFE, some 0x060C, 3) := by decide

theorem test_interrupt_oldIf :
    stepSees (beforeInterrupt .oldIf) (fun t => (t.iflag, pcOf t, t.sp, wordAt 0x9FFE t, t.cycles)) =
      some (false, 0x0700, 0x9FFE, some 0x060D, 3) := by decide

theorem test_interrupt_draw :
    stepSees (beforeInterrupt .draw) (fun t => (t.iflag, pcOf t, t.sp, t.draws)) = some (false, 0x0700, 0x9FFE, 1) := by decide

theorem test_interrupt_masked :
    stepSees { text (beforeInterrupt .zero) .nop with iflag := false } (fun t => (pcOf t, t.sp, t.inputs)) =
      some (0x060E, 0xA000, []) := by decide

theorem test_step_counts_cycles :
    stepSees (text ini (.jmpA 0x2000)) (fun t => (pcOf t, t.cycles)) = some (0x2000, 2) := by decide

theorem test_halted : State.halted (text ini (.bra (-2))) = true := by decide

/-! ### Witnesses: the hypotheses of each obligation are met, each clause at a boundary of its range -/

theorem witness_FieldsDecodeBackToTheirInstruction :
    (Instr.push 14).wellFormed = true ∧ (Instr.bra (-256)).wellFormed = true ∧ (Instr.ldw 15 0 1023).wellFormed = true := by
  decide

theorem witness_DecodedFieldsAreExactlyTheInstructions :
    decodeFields (.raRpDisp11 .ldw 0 14 0x400#11) = .ok (.ldw 0 14 (-1024)) := by decide

/-- For O3 and O4. -/
theorem witness_a_lawful_encoding : Specimen.enc.Readable ∧ (Instr.jmpA 0xFFFE).wellFormed = true :=
  ⟨Specimen.lawful.1, by decide⟩

theorem witness_DecodeRefusesWhatIsNoEncoding :
    Specimen.enc.Readable ∧ decodeWords Specimen.enc [65038, 0x7FFF, 9] = .ok (.jmpA 0xFFFE, [9]) :=
  ⟨Specimen.lawful.1, by decide⟩

/-- A lawful encoding, a placing of its fields, and two forms of one selector: they differ in {DISP11} and agree in
{RP}; the field of {RA} has bits in both words. -/
theorem witness_OperandFieldsAreReadFromTheirOwnBits :
    Specimen.enc.Lawful ∧ Specimen.enc.PlacesFields Specimen.place ∧
      (Instr.ldw 15 14 1023).wellFormed = true ∧ (Instr.ldw 0 14 (-1024)).wellFormed = true ∧
      (fieldsOf (.ldw 15 14 1023)).selector = (fieldsOf (.ldw 0 14 (-1024))).selector ∧
      (Specimen.place (fieldsOf (.ldw 15 14 1023)).selector)[0]? = some [31, 0, 1, 2] ∧
      (fieldsOf (.ldw 15 14 1023)).operands[1]? = (fieldsOf (.ldw 0 14 (-1024))).operands[1]? ∧
      (fieldsOf (.ldw 15 14 1023)).operands[2]? ≠ (fieldsOf (.ldw 0 14 (-1024))).operands[2]? :=
  ⟨Specimen.lawful, Specimen.placesFields, by decide, by decide, rfl, rfl, rfl, by decide⟩

/-- The specimen's words are refused with R15 in an {RP} position, and where they are not used. -/
theorem test_specimen_refuses : decodeWords Specimen.enc [64799] = .error .notAnEncoding ∧
    decodeWords Specimen.enc [65500] = .error .notAnEncoding ∧
    decodeWords Specimen.enc [65038] = .error .notAnEncoding ∧ decodeWords Specimen.enc [] = .error .truncated := by decide

theorem witness_StepRunsTheFetchedInstruction_next :
    let s := text { ini with inputs := [request] } .nop
    s.boundary.reset = false ∧ s.iflag = false ∧ findEntry s.prog s.pc = some .nop ∧ Instr.nop.wellFormed = true ∧
      ∃ t, exec .nop { s with inputs := s.inputs.tail } = .next t :=
  ⟨rfl, rfl, by decide, rfl, _, rfl⟩

theorem witness_StepRunsTheFetchedInstruction_fault :
    let s := text { ini with iflag := true } (.ldb 1 2 0)
    s.boundary.reset = false ∧ s.boundary.irq = none ∧ findEntry s.prog s.pc = some (.ldb 1 2 0) ∧
      (Instr.ldb 1 2 0).wellFormed = true ∧ exec (.ldb 1 2 0) { s with inputs := s.inputs.tail } = .fault .valuelessByte :=
  ⟨rfl, rfl, by decide, rfl, rfl⟩

theorem witness_StepRunsTheFetchedInstruction_refused :
    let s := text ini (.jsrR 15)
    s.boundary.reset = false ∧ s.boundary.irq = none ∧ findEntry s.prog s.pc = some (.jsrR 15) ∧
      (Instr.jsrR 15).wellFormed = true ∧ exec (.jsrR 15) { s with inputs := s.inputs.tail } = .refused .jsrThroughSp :=
  ⟨rfl, rfl, by decide, rfl, rfl⟩

theorem witness_StepRunsTheDecodedTableWord :
    decodeTableWordBy Specimen.enc 16 64816 = some .nop ∧
      (∃ t, exec .nop { ini with prog := placeInstr ini.prog ini.pc .nop } = .next t) ∧
    decodeTableWordBy Specimen.enc 32 65056 = some (.ldb 0 0 0) ∧
      exec (.ldb 0 0 0) { ini with prog := placeInstr ini.prog ini.pc (.ldb 0 0 0) } = .fault .valuelessByte ∧
    decodeTableWordBy Specimen.enc 16 64783 = some (.jsrR 15) ∧
      exec (.jsrR 15) { ini with prog := placeInstr ini.prog ini.pc (.jsrR 15) } = .refused .jsrThroughSp :=
  ⟨by decide, ⟨_, rfl⟩, by decide, rfl, by decide, rfl⟩

theorem witness_StepWithoutInstructionIsRefused :
    ini.boundary.reset = false ∧ ini.iflag = false ∧ findEntry ini.prog ini.pc = none ∧
      findEntry (text ini (.push 15)).prog (text ini (.push 15)).pc = some (.push 15) ∧
      (Instr.push 15).wellFormed = false := by decide

theorem witness_ResetExceptionLoadsPcFromItsVector :
    beforeReset.boundary.reset = true ∧ Holds16 beforeReset (beforeReset.cfg.resetVector ++ 0#1) 0x0101 :=
  ⟨rfl, holds16_iff.mpr rfl⟩

theorem witness_InterruptEntrySavesPcAndGoesToItsVector (p : IntPushedIf) :
    (beforeInterrupt p).boundary = { reset := false, irq := some 2 } ∧ (beforeInterrupt p).iflag = true ∧
      Accessible16 (beforeInterrupt p) ((beforeInterrupt p).sp - 2) (0x9FFE, 0x9FFF) ∧
      (beforeInterrupt p).access (2#15 ++ 0#1) = .ok () ∧ (beforeInterrupt p).access ((2#15 ++ 0#1) + 1) = .ok () ∧
      (beforeInterrupt p).mem.read 4 = some 0x00 ∧ (beforeInterrupt p).mem.read 5 = some 0x07 := by
  cases p <;> exact ⟨rfl, rfl, ⟨rfl, rfl, rfl⟩, rfl, rfl, rfl, rfl⟩

theorem witness_InterruptIsMaskedByIfZero : ini.iflag = false := rfl

theorem witness_FromIfZeroOnlyStiAndRetStiLeadToIfOne :
    let s := text { ini with inputs := [request] } .nop
    s.iflag = false ∧ (∃ t, step s = .next t) ∧ findEntry s.prog s.pc ≠ some .sti ∧
      findEntry s.prog s.pc ≠ some .retSti :=
  ⟨rfl, ⟨_, rfl⟩, by decide, by decide⟩

theorem witness_RetStiResumesTheInterruptedProgram :
    (beforeInterrupt .draw).iflag = true ∧ ∃ t, (beforeInterrupt .draw).takeInterrupt 2 = .ok t :=
  ⟨rfl, _, rfl⟩

theorem witness_Branches : relOk (-256) = true ∧ relOk 254 = true := by decide

theorem witness_AddressJumps : absOk 0xFFFE = true ∧ absOk 0 = true := by decide

/-- For the calls, PUSH and PUSH FLAG; at R15 = 0 the word lies at the top of memory. -/
theorem witness_CallsPushTheReturnWordAndJump :
    (14 : Reg) ≠ spReg ∧ absOk 0xFFFE = true ∧ Accessible16 ini (ini.sp - 2) (0xFFFE, 0xFFFF) :=
  ⟨by decide, by decide, rfl, rfl, rfl⟩

theorem witness_PushStoresTheRegisterBelowTheStackPointer :
    (14 : Reg) ≠ spReg ∧ Accessible16 ini (ini.sp - 2) (0xFFFE, 0xFFFF) := ⟨by decide, rfl, rfl, rfl⟩

theorem witness_PushFlagStoresTheFlagWord : Accessible16 ini (ini.sp - 2) (0xFFFE, 0xFFFF) := ⟨rfl, rfl, rfl⟩

theorem witness_ReturnsPopTheReturnAddress : Holds16 returning returning.sp 0x0203 := holds16_iff.mpr rfl

theorem witness_ReturnAfterCallRestoresPcAndSp :
    (∃ t, exec (.jsrR 14) ini = .next t) ∧ ∃ t, exec (.jsrA 0xFFFE) ini = .next t := ⟨⟨_, rfl⟩, _, rfl⟩

theorem witness_PopLoadsTheRegisterFromTheStack :
    (14 : Reg) ≠ spReg ∧ Holds16 returning returning.sp 0x0203 := ⟨by decide, holds16_iff.mpr rfl⟩

theorem witness_PopAfterPushRestoresRegisterAndSp : (14 : Reg) ≠ spReg ∧ ∃ t, exec (.push 14) ini = .next t :=
  ⟨by decide, _, rfl⟩

theorem witness_PopFlagLoadsFourFlagsAndLeavesIf : Holds16 returning returning.sp 0x0203 := holds16_iff.mpr rfl

theorem witness_PopFlagAfterPushFlagRestoresTheFlags : ∃ t, exec .pushFlag ini = .next t := ⟨_, rfl⟩

/-- LDM at the displacement 30 and LDW at -1024 read one word, at 001E + 0000 and at FC00. -/
theorem witness_WordLoadsReadTheEffectiveAddress :
    (14 : Reg) ≠ spReg ∧ disp4Ok 30 = true ∧ disp11Ok (-1024) = true ∧
      Holds16 (word ini 0x001E 0x1234) ((word ini 0x001E 0x1234).reg 14 + BitVec.ofNat 16 30) 0x1234 ∧
      Holds16 (word ini 0xFC00 0x1234) ((word ini 0xFC00 0x1234).reg 14 + BitVec.ofInt 16 (-1024)) 0x1234 :=
  ⟨by decide, by decide, by decide, holds16_iff.mpr rfl, holds16_iff.mpr rfl⟩

theorem witness_WordStoresWriteTheEffectiveAddress :
    (14 : Reg) ≠ spReg ∧ disp4Ok 30 = true ∧ disp11Ok 1022 = true ∧
      Accessible16 ini (ini.reg 14 + BitVec.ofNat 16 30) (0x001E, 0x001F) ∧
      Accessible16 ini (ini.reg 14 + BitVec.ofInt 16 1022) (0x03FE, 0x03FF) :=
  ⟨by decide, by decide, by decide, ⟨rfl, rfl, rfl⟩, rfl, rfl, rfl⟩

theorem witness_LoadByteReplacesTheLowByteOnly :
    let s := { ini with mem := [(0x03FF, 0x80)] }
    (0 : Reg) ≠ spReg ∧ disp11Ok 1023 = true ∧ s.access (s.reg 0 + BitVec.ofInt 16 1023) = .ok () ∧
      s.mem.read (s.reg 0 + BitVec.ofInt 16 1023).toNat = some 0x80 :=
  ⟨by decide, by decide, rfl, rfl⟩

theorem witness_StoreByteWritesOneByteOnly :
    (0 : Reg) ≠ spReg ∧ disp11Ok (-1024) = true ∧ ini.access (ini.reg 0 + BitVec.ofInt 16 (-1024)) = .ok () :=
  ⟨by decide, by decide, rfl⟩

theorem witness_WordReadAfterWriteAtAnEvenAddress :
    (0xFFFE#16).toNat % 2 = 0 ∧ (word ini 0xFFFE 0x1234).read16 0xFFFE = .ok 0x1234 ∧
      ∃ t, ini.write16 0xFFFE 0x1234 = .ok t := ⟨rfl, rfl, _, rfl⟩

theorem witness_ByteOrderSaysWhichByteIsTheHighHalf (o : ByteOrder) :
    let s := { under ini (fun c => { c with byteOrder := o }) with mem := [(0xFFFE, 0x34), (0xFFFF, 0x12)] }
    (0xFFFE#16).toNat % 2 = 0 ∧ s.read16 0xFFFE = .ok (match o with | .little => 0x1234 | .big => 0x3412) ∧
      s.read8 0xFFFE = .ok 0x34 ∧ s.read8 (0xFFFE + 1) = .ok 0x12 ∧ s.cfg.byteOrder = o := by
  cases o <;> exact ⟨rfl, rfl, rfl, rfl, rfl⟩

theorem witness_MisalignedWordAccessIsRefusedUnderRefuse :
    let s := { (ini.setReg 2 0xFFFF).setReg 15 1 with iflag := true, inputs := [request] }
    s.cfg.misaligned16 = .refuse ∧ (0 : Reg) ≠ spReg ∧ (s.reg 2 + BitVec.ofNat 16 30).toNat % 2 = 1 ∧
      (s.reg 2 + BitVec.ofInt 16 (-1024)).toNat % 2 = 1 ∧ s.sp.toNat % 2 = 1 ∧
      s.boundary = { reset := false, irq := some 2 } ∧ s.iflag = true :=
  ⟨rfl, by decide, rfl, rfl, rfl, rfl, rfl⟩

theorem witness_MisalignedWordAccessUnderTheOtherParameters :
    (0xFFFF#16).toNat % 2 = 1 ∧
      (under ini fun c => { c with misaligned16 := .ignoreBit0 }).cfg.misaligned16 = .ignoreBit0 ∧
      (under ini fun c => { c with misaligned16 := .split }).cfg.misaligned16 = .split ∧
      ∃ t, (under ini fun c => { c with misaligned16 := .split }).write16 0xFFFF 0x1234 = .ok t :=
  ⟨rfl, rfl, rfl, _, rfl⟩

/-- A machine whose plain memory is 4001 to 8000, with R2 = 8000, R15 = `sp` and what is presented. -/
def narrow (sp : Word) (b : Boundary) : State :=
  { (under ini fun c => { c with memMap := [{ first := 0x4001, last := 0x8000 }] }) with
    regs := ((ini.setReg 2 0x8000).setReg 15 sp).regs, iflag := true, inputs := [b] }

/-- The first byte is blocked (4000, under a push too), the second is (8001, through R2 and under a push), both are
program text (0100), and the one byte of STB is blocked. -/
theorem witness_StoreOutsideMemMapOrInTextIsRefused :
    let s := narrow 0x8002 request
    let u := narrow 0x4002 request
    let x := text ini .nop
    (0 : Reg) ≠ spReg ∧
    (s.reg 0 + BitVec.ofInt 16 0 = 0 ∧ s.blocked 0 = some .outsideMemMap) ∧
    (x.reg 0 + BitVec.ofInt 16 0x0101 = 0x0101 ∧ x.blocked 0x0101 = some .programText) ∧
    (s.wordBytes 0x8000 = .ok (0x8000, 0x8001) ∧ s.blocked 0x8000 = none ∧ s.blocked 0x8001 = some .outsideMemMap ∧
      s.reg 2 + BitVec.ofNat 16 0 = 0x8000 ∧ s.reg 2 + BitVec.ofInt 16 0 = 0x8000 ∧ s.sp - 2 = 0x8000 ∧
      s.boundary = { reset := false, irq := some 2 } ∧ s.iflag = true) ∧
    (u.wordBytes 0x4000 = .ok (0x4000, 0x4001) ∧ u.blocked 0x4000 = some .outsideMemMap ∧ u.blocked 0x4001 = none ∧
      u.sp - 2 = 0x4000 ∧ u.boundary = { reset := false, irq := some 2 } ∧ u.iflag = true) ∧
    x.wordBytes 0x0100 = .ok (0x0100, 0x0101) ∧ x.blocked 0x0100 = some .programText ∧
      x.reg 0 + BitVec.ofInt 16 0x0100 = 0x0100 := by decide

/-- Loads at 8000, the second byte blocked, the first without and with a value; vector words at 0000 and 0004, the
first byte blocked, the push of the interrupt done; and a vector word whose first byte the push has written. -/
theorem witness_LoadOutsideMemMapOrInTextHasNoNextState :
    let s := narrow 0x8000 request
    let r := narrow 0x8000 resetAndRequest
    let o := under (narrow 0x8001 { reset := false, irq := some 0x4000 }) fun c => { c with misaligned16 := .split }
    (s.reg 0 + BitVec.ofInt 16 (-1024) = 0xFC00 ∧ s.blocked 0xFC00 = some .outsideMemMap) ∧
    (s.wordBytes 0x8000 = .ok (0x8000, 0x8001) ∧ s.blocked 0x8000 = none ∧ s.blocked 0x8001 = some .outsideMemMap ∧
      s.mem.read 0x8000 = none ∧ ({ s with mem := [(0x8000, 1)] } : State).mem.read 0x8000 = some 1 ∧
      s.reg 2 + BitVec.ofNat 16 0 = 0x8000 ∧ s.reg 2 + BitVec.ofInt 16 0 = 0x8000 ∧ s.sp = 0x8000) ∧
    (r.cfg.resetVector ++ 0#1 = 0x0000#16 ∧ r.wordBytes 0 = .ok (0, 1) ∧ r.blocked 0 = some .outsideMemMap ∧
      r.boundary.reset = true) ∧
    (2#15 ++ 0#1 = 0x0004#16 ∧ s.wordBytes 4 = .ok (4, 5) ∧ s.blocked 4 = some .outsideMemMap ∧
      s.boundary = { reset := false, irq := some 2 } ∧ s.iflag = true ∧
      (s.wordBytes (s.sp - 2) = .ok (0x7FFE, 0x7FFF) ∧ s.access 0x7FFE = .ok () ∧ s.access 0x7FFF = .ok ())) ∧
    0x4000#15 ++ 0#1 = 0x8000#16 ∧ o.boundary = { reset := false, irq := some 0x4000 } ∧ o.iflag = true ∧
      (o.wordBytes (o.sp - 2) = .ok (0x7FFF, 0x8000) ∧ o.access 0x7FFF = .ok () ∧ o.access 0x8000 = .ok ()) ∧
      o.wordBytes 0x8000 = .ok (0x8000, 0x8001) ∧ o.blocked 0x8000 = none ∧ o.blocked 0x8001 = some .outsideMemMap := by
  decide

/-- A byte at the top of memory, words at FFFE with the first or the second byte valueless, the reset vector word at
0000, and an interrupt whose vector word at 0004 has no second byte. -/
theorem witness_ReadOfAValuelessByteFaults :
    let s := ini.setReg 15 0xFFFE
    let t := { s with mem := [(0xFFFE, 1)] }
    let i := { ini with mem := [(4, 1)], iflag := true, inputs := [request] }
    (ini.access (ini.reg 2 + BitVec.ofInt 16 (-1)) = .ok () ∧
      ini.mem.read (ini.reg 2 + BitVec.ofInt 16 (-1)).toNat = none) ∧
    (Accessible16 s 0xFFFE (0xFFFE, 0xFFFF) ∧ s.mem.read 0xFFFE = none ∧ s.sp = 0xFFFE ∧
      s.reg 15 + BitVec.ofNat 16 0 = 0xFFFE ∧ s.reg 0 + BitVec.ofInt 16 (-2) = 0xFFFE) ∧
    (Accessible16 t 0xFFFE (0xFFFE, 0xFFFF) ∧ t.mem.read 0xFFFE = some 1 ∧ t.mem.read 0xFFFF = none) ∧
    (Accessible16 { ini with inputs := [resetAndRequest] } 0 (0, 1) ∧ ini.mem.read 0 = none ∧
      ini.cfg.resetVector ++ 0#1 = 0x0000#16 ∧ ({ ini with inputs := [resetAndRequest] } : State).boundary.reset = true) ∧
    i.boundary = { reset := false, irq := some 2 } ∧ i.iflag = true ∧
      Accessible16 i (i.sp - 2) (0xFFFE, 0xFFFF) ∧ Accessible16 i (2#15 ++ 0#1) (4, 5) ∧ i.mem.read 5 = none :=
  ⟨⟨rfl, rfl⟩, ⟨⟨rfl, rfl, rfl⟩, rfl, rfl, rfl, rfl⟩, ⟨⟨rfl, rfl, rfl⟩, rfl, rfl⟩,
    ⟨⟨rfl, rfl, rfl⟩, rfl, rfl, rfl⟩, rfl, rfl, ⟨rfl, rfl, rfl⟩, ⟨rfl, rfl, rfl⟩, rfl⟩

/-- For the statements of the ALU instructions (O42 to O48): the greatest IMM8. -/
theorem witness_alu_statements : (255 : Nat) ≤ 255 := by decide

theorem witness_NfXorVfIsTheOldSignAfterEveryAluInstruction :
    (∃ t, exec (aluRegInstr 1 2 .mlh) ini = .next t) ∧ (∃ t, exec (aluImm8Instr 1 255 .cmp) ini = .next t) ∧
      ∃ t, exec (aluImm16Instr 15 0xFFFF .mov) ini = .next t := ⟨⟨_, rfl⟩, ⟨_, rfl⟩, _, rfl⟩

/-- For the four frames (O50 to O53): an instruction that completes, and what a frame is about. -/
theorem witness_frames :
    (∃ t, exec (.push 3) ini = .next t) ∧ (0x4000#16) ∉ storedBytes ini (.push 3) ∧
      Instr.push 3 ∉ ([.cli, .sti, .retCli, .retSti] : List Instr) ∧ writesAluFlags (.push 3) = false ∧
      Instr.push 3 ∉ ([.clz, .stz] : List Instr) ∧ Instr.push 3 ∉ ([.clc, .stc] : List Instr) :=
  ⟨⟨_, rfl⟩, by decide, by decide, rfl, by decide, by decide⟩

/-- A state with a program, a byte of memory, and the invariant, from which a step goes on. -/
theorem witness_StepKeepsTheInvariant :
    let s := text { ini with mem := [(0x4000, 0x55)] } (.push 3)
    s.Inv ∧ ∃ t, step s = .next t := by
  refine ⟨⟨rfl, by decide, fun a ha => ?_⟩, _, rfl⟩
  by_cases h : a = 0x4000#16
  · subst h; revert ha; decide
  · have : (0x4000 : Nat) ≠ a.toNat := fun e => h (BitVec.eq_of_toNat_eq e.symm)
    simp [text, Memory.read, this]

theorem witness_StepKeepsProgramTextAndConfiguration : ∃ t, step (text ini .nop) = .next t := ⟨_, rfl⟩

end Sys2Proof.Tests
end

section
/-! PROOFS. What a completed instruction has done, said once (`Runs`), and from it which registers and flags an
instruction leaves alone (R10, R12, R16); the fault of a read of a valueless byte (R23); the state after reset (R22). -/

namespace Sys2Proof

/-- Every instruction is of a family the decoder names, a branch, a jump or an ALU instruction, or one of the others
(R61). -/
theorem Instr.byFamily {P : Instr → Prop} (nop : P .nop) (clc : P .clc) (stc : P .stc) (clz : P .clz) (stz : P .stz)
    (cli : P .cli) (sti : P .sti) (branch : ∀ rel c, P (branchInstr rel c)) (jumpReg : ∀ rb c, P (jumpRegInstr rb c))
    (jumpAbs : ∀ abs c, P (jumpAbsInstr abs c)) (jsrR : ∀ rb, P (.jsrR rb)) (jsrA : ∀ abs, P (.jsrA abs))
    (ret : P .ret) (retCli : P .retCli) (retSti : P .retSti) (push : ∀ rp, P (.push rp)) (pop : ∀ rp, P (.pop rp))
    (pushFlag : P .pushFlag) (popFlag : P .popFlag) (ldm : ∀ ra rp d, P (.ldm ra rp d))
    (stm : ∀ rp d ra, P (.stm rp d ra)) (ldw : ∀ ra rp d, P (.ldw ra rp d)) (stw : ∀ rp d ra, P (.stw rp d ra))
    (ldb : ∀ ra rp d, P (.ldb ra rp d)) (stb : ∀ rp d ra, P (.stb rp d ra))
    (aluReg : ∀ ra rb op, P (aluRegInstr ra rb op)) (aluImm8 : ∀ ra imm op, P (aluImm8Instr ra imm op))
    (aluImm16 : ∀ ra imm op, P (aluImm16Instr ra imm op)) : ∀ i, P i
  | .nop => nop | .clc => clc | .stc => stc | .clz => clz | .stz => stz | .cli => cli | .sti => sti
  | .bcs r => branch r .cs | .bcc r => branch r .cc | .beq r => branch r .eq | .bne r => branch r .ne
  | .bvs r => branch r .vs | .bvc r => branch r .vc | .bmi r => branch r .mi | .bpl r => branch r .pl
  | .bls r => branch r .ls | .bhi r => branch r .hi | .blt r => branch r .lt | .bge r => branch r .ge
  | .ble r => branch r .le | .bgt r => branch r .gt | .bra r => branch r .al
  | .jcsR r => jumpReg r .cs | .jccR r => jumpReg r .cc | .jeqR r => jumpReg r .eq | .jneR r => jumpReg r .ne
  | .jvsR r => jumpReg r .vs | .jvcR r => jumpReg r .vc | .jmiR r => jumpReg r .mi | .jplR r => jumpReg r .pl
  | .jlsR r => jumpReg r .ls | .jhiR r => jumpReg r .hi | .jltR r => jumpReg r .lt | .jgeR r => jumpReg r .ge
  | .jleR r => jumpReg r .le | .jgtR r => jumpReg r .gt | .jmpR r => jumpReg r .al
  | .jcsA a => jumpAbs a .cs | .jccA a => jumpAbs a .cc | .jeqA a => jumpAbs a .eq | .jneA a => jumpAbs a .ne
  | .jvsA a => jumpAbs a .vs | .jvcA a => jumpAbs a .vc | .jmiA a => jumpAbs a .mi | .jplA a => jumpAbs a .pl
  | .jlsA a => jumpAbs a .ls | .jhiA a => jumpAbs a .hi | .jltA a => jumpAbs a .lt | .jgeA a => jumpAbs a .ge
  | .jleA a => jumpAbs a .le | .jgtA a => jumpAbs a .gt | .jmpA a => jumpAbs a .al
  | .jsrR r => jsrR r | .jsrA a => jsrA a | .ret => ret | .retCli => retCli | .retSti => retSti
  | .push r => push r | .pop r => pop r | .pushFlag => pushFlag | .popFlag => popFlag
  | .ldm ra rp d => ldm ra rp d | .stm rp d ra => stm rp d ra | .ldw ra rp d => ldw ra rp d
  | .stw rp d ra => stw rp d ra | .ldb ra rp d => ldb ra rp d | .stb rp d ra => stb rp d ra
  | .movR a b => aluReg a b .mov | .andR a b => aluReg a b .and | .orR a b => aluReg a b .or
  | .xorR a b => aluReg a b .xor | .addR a b => aluReg a b .add | .adcR a b => aluReg a b .adc
  | .subR a b => aluReg a b .sub | .sbcR a b => aluReg a b .sbc | .mltR a b => aluReg a b .mlt
  | .mlhR a b => aluReg a b .mlh | .tstR a b => aluReg a b .tst | .cmpR a b => aluReg a b .cmp
  | .movI8 a n => aluImm8 a n .mov | .andI8 a n => aluImm8 a n .and | .orI8 a n => aluImm8 a n .or
  | .xorI8 a n => aluImm8 a n .xor | .addI8 a n => aluImm8 a n .add | .adcI8 a n => aluImm8 a n .adc
  | .subI8 a n => aluImm8 a n .sub | .sbcI8 a n => aluImm8 a n .sbc | .mltI8 a n => aluImm8 a n .mlt
  | .mlhI8 a n => aluImm8 a n .mlh | .tstI8 a n => aluImm8 a n .tst | .cmpI8 a n => aluImm8 a n .cmp
  | .movI16 a k => aluImm16 a k .mov | .andI16 a k => aluImm16 a k .and | .orI16 a k => aluImm16 a k .or
  | .xorI16 a k => aluImm16 a k .xor | .addI16 a k => aluImm16 a k .add | .adcI16 a k => aluImm16 a k .adc
  | .subI16 a k => aluImm16 a k .sub | .sbcI16 a k => aluImm16 a k .sbc | .mltI16 a k => aluImm16 a k .mlt
  | .mlhI16 a k => aluImm16 a k .mlh | .tstI16 a k => aluImm16 a k .tst | .cmpI16 a k => aluImm16 a k .cmp

end Sys2Proof

namespace Sys2Proof.Machine

/-! ### The families in `exec` -/

/-- Every branch is one conditional jump (R81). -/
theorem exec_branchInstr (rel : Int) (c : Cond) (s : State) :
    exec (branchInstr rel c) s = .next (s.jumpIf c (s.branchTarget rel) 1) := by
  cases c <;> rfl

/-- Every register jump is one conditional jump (R82). -/
theorem exec_jumpRegInstr (rb : Reg) (c : Cond) (s : State) :
    exec (jumpRegInstr rb c) s = .next (s.jumpIf c (s.reg rb) 1) := by
  cases c <;> rfl

/-- Every address jump is one conditional jump (R83). -/
theorem exec_jumpAbsInstr (abs : Word) (c : Cond) (s : State) :
    exec (jumpAbsInstr abs c) s = .next (s.jumpIf c abs 2) := by
  cases c <;> rfl

/-- Every ALU instruction with a register is the template (R122). -/
theorem exec_aluRegInstr (ra rb : Reg) (op : AluOp) (s : State) :
    exec (aluRegInstr ra rb op) s = .next (s.alu op ra (s.reg rb) 1) := by
  cases op <;> rfl

/-- Every ALU instruction with an 8-bit immediate is the template (R140). -/
theorem exec_aluImm8Instr (ra : Reg) (imm : Nat) (op : AluOp) (s : State) :
    exec (aluImm8Instr ra imm op) s = .next (s.alu op ra (imm8Operand imm) 1) := by
  cases op <;> rfl

/-- Every ALU instruction with a 16-bit immediate is the template (R160). -/
theorem exec_aluImm16Instr (ra : Reg) (imm : Word) (op : AluOp) (s : State) :
    exec (aluImm16Instr ra imm op) s = .next (s.alu op ra (imm16Operand imm) 2) := by
  cases op <;> rfl

/-! ### What a completed instruction has done -/

/-- `Runs s i t`: from `s` the instruction `i` completes in `t`. One rule per row of R61, in terms of the shared
operations; where such an operation can stop, the rule asks that it did not. -/
inductive Runs (s : State) : Instr → State → Prop
  | nop : Runs s .nop (s.advance 1)
  | clc : Runs s .clc ({ s with cf := false }.advance 1)
  | stc : Runs s .stc ({ s with cf := true }.advance 1)
  | clz : Runs s .clz ({ s with zf := false }.advance 1)
  | stz : Runs s .stz ({ s with zf := true }.advance 1)
  | cli : Runs s .cli ((s.setIF false).advance 1)
  | sti : Runs s .sti ((s.setIF true).advance 1)
  | branch {rel c} : Runs s (branchInstr rel c) (s.jumpIf c (s.branchTarget rel) 1)
  | jumpReg {rb c} : Runs s (jumpRegInstr rb c) (s.jumpIf c (s.reg rb) 1)
  | jumpAbs {abs c} : Runs s (jumpAbsInstr abs c) (s.jumpIf c abs 2)
  | jsrR {rb t} : rb ≠ spReg → s.call (s.reg rb) 1 = .ok t → Runs s (.jsrR rb) t
  | jsrA {abs t} : s.call abs 2 = .ok t → Runs s (.jsrA abs) t
  | ret {t} : s.popReturn = .ok t → Runs s .ret t
  | retCli {t} : s.popReturn = .ok t → Runs s .retCli (t.setIF false)
  | retSti {t} : s.popReturn = .ok t → Runs s .retSti (t.setIF true)
  | push {rp t} : s.pushWord (s.reg rp) = .ok t → Runs s (.push rp) (t.advance 1)
  | pop {rp v} : s.read16 s.sp = .ok v → Runs s (.pop rp) (((s.setReg rp v).setReg spReg (s.sp + 2)).advance 1)
  | pushFlag {t} : s.pushWord s.flagWord = .ok t → Runs s .pushFlag (t.advance 1)
  | popFlag {v} : s.read16 s.sp = .ok v → Runs s .popFlag (((s.loadFlags v).setReg spReg (s.sp + 2)).advance 1)
  | ldm {ra rp} {d : Nat} {v} : s.read16 (s.effAddr rp d) = .ok v → Runs s (.ldm ra rp d) ((s.setReg ra v).advance 1)
  | stm {rp} {d : Nat} {ra t} : s.write16 (s.effAddr rp d) (s.reg ra) = .ok t → Runs s (.stm rp d ra) (t.advance 1)
  | ldw {ra rp d v} : s.read16 (s.effAddr rp d) = .ok v → Runs s (.ldw ra rp d) ((s.setReg ra v).advance 2)
  | stw {rp d ra t} : s.write16 (s.effAddr rp d) (s.reg ra) = .ok t → Runs s (.stw rp d ra) (t.advance 2)
  | ldb {ra rp d b} : s.read8 (s.effAddr rp d) = .ok b →
      Runs s (.ldb ra rp d) ((s.setReg ra ((s.reg ra).extractLsb' 8 8 ++ b)).advance 2)
  | stb {rp d ra t} : s.write8 (s.effAddr rp d) ((s.reg ra).extractLsb' 0 8) = .ok t →
      Runs s (.stb rp d ra) (t.advance 2)
  | aluReg {ra rb op} : Runs s (aluRegInstr ra rb op) (s.alu op ra (s.reg rb) 1)
  | aluImm8 {ra imm op} : Runs s (aluImm8Instr ra imm op) (s.alu op ra (imm8Operand imm) 1)
  | aluImm16 {ra imm op} : Runs s (aluImm16Instr ra imm op) (s.alu op ra (imm16Operand imm) 2)

/-- What completes by `exec` completes by the rules. -/
theorem runs_of_exec {i : Instr} {s t : State} (h : exec i s = .next t) : Runs s i t := by
  cases i using Instr.byFamily with
  | nop => cases h; exact .nop
  | clc => cases h; exact .clc
  | stc => cases h; exact .stc
  | clz => cases h; exact .clz
  | stz => cases h; exact .stz
  | cli => cases h; exact .cli
  | sti => cases h; exact .sti
  | branch rel c => cases (exec_branchInstr rel c s).symm.trans h; exact .branch
  | jumpReg rb c => cases (exec_jumpRegInstr rb c s).symm.trans h; exact .jumpReg
  | jumpAbs abs c => cases (exec_jumpAbsInstr abs c s).symm.trans h; exact .jumpAbs
  | jsrR rb =>
    by_cases hrb : rb = spReg
    · subst hrb; cases h
    · obtain ⟨t, ht, rfl⟩ := finish_next.mp ((if_neg hrb).symm.trans h)
      exact .jsrR hrb ht
  | jsrA abs => obtain ⟨t, ht, rfl⟩ := finish_next.mp h; exact .jsrA ht
  | ret => obtain ⟨t, ht, rfl⟩ := finish_next.mp h; exact .ret ht
  | retCli => obtain ⟨t, ht, rfl⟩ := finish_next.mp h; exact .retCli ht
  | retSti => obtain ⟨t, ht, rfl⟩ := finish_next.mp h; exact .retSti ht
  | push rp => obtain ⟨t, ht, rfl⟩ := finish_next.mp h; exact .push ht
  | pop rp => obtain ⟨v, hv, rfl⟩ := finish_next.mp h; exact .pop hv
  | pushFlag => obtain ⟨t, ht, rfl⟩ := finish_next.mp h; exact .pushFlag ht
  | popFlag => obtain ⟨v, hv, rfl⟩ := finish_next.mp h; exact .popFlag hv
  | ldm ra rp d => obtain ⟨v, hv, rfl⟩ := finish_next.mp h; exact .ldm hv
  | stm rp d ra => obtain ⟨t, ht, rfl⟩ := finish_next.mp h; exact .stm ht
  | ldw ra rp d => obtain ⟨v, hv, rfl⟩ := finish_next.mp h; exact .ldw hv
  | stw rp d ra => obtain ⟨t, ht, rfl⟩ := finish_next.mp h; exact .stw ht
  | ldb ra rp d => obtain ⟨b, hb, rfl⟩ := finish_next.mp h; exact .ldb hb
  | stb rp d ra => obtain ⟨t, ht, rfl⟩ := finish_next.mp h; exact .stb ht
  | aluReg ra rb op => cases (exec_aluRegInstr ra rb op s).symm.trans h; exact .aluReg
  | aluImm8 ra imm op => cases (exec_aluImm8Instr ra imm op s).symm.trans h; exact .aluImm8
  | aluImm16 ra imm op => cases (exec_aluImm16Instr ra imm op s).symm.trans h; exact .aluImm16

/-- `exec` completes exactly as the rules say. -/
theorem exec_next_iff {i : Instr} {s t : State} : exec i s = .next t ↔ Runs s i t := by
  refine ⟨runs_of_exec, fun h => ?_⟩
  cases h with
  | nop | clc | stc | clz | stz | cli | sti => rfl
  | branch => exact exec_branchInstr ..
  | jumpReg => exact exec_jumpRegInstr ..
  | jumpAbs => exact exec_jumpAbsInstr ..
  | jsrR hrb ht => exact (if_neg hrb).trans (finish_next.mpr ⟨_, ht, rfl⟩)
  | jsrA h | ret h | retCli h | retSti h | push h | pop h | pushFlag h | popFlag h | ldm h | stm h | ldw h | stw h
  | ldb h | stb h => exact finish_next.mpr ⟨_, h, rfl⟩
  | aluReg => exact exec_aluRegInstr ..
  | aluImm8 => exact exec_aluImm8Instr ..
  | aluImm16 => exact exec_aluImm16Instr ..

/-! ### Registers and flags in the shared operations -/

theorem keepsRegsBut_setReg (s : State) (r : Reg) (v : Word) : KeepsRegsBut [r] s (s.setReg r v) :=
  fun _ hq => s.reg_setReg_ne v (List.ne_of_not_mem_cons hq)

/-- A byte store writes no register and no flag (R30). -/
theorem write8_frame {s t : State} {a : Word} {b : Byte} (h : s.write8 a b = .ok t) :
    KeepsRegsBut [] s t ∧ KeepsFlags s t := by
  obtain ⟨-, rfl⟩ := State.write8_ok.mp h
  exact ⟨fun _ _ => rfl, ⟨rfl, rfl, rfl, rfl, rfl⟩, rfl⟩

/-- A word store writes no register and no flag (R31). -/
theorem write16_frame {s t : State} {a v : Word} (h : s.write16 a v = .ok t) :
    KeepsRegsBut [] s t ∧ KeepsFlags s t := by
  obtain ⟨p, -, -, -, rfl⟩ := State.write16_iff.mp h
  exact ⟨fun _ _ => rfl, ⟨rfl, rfl, rfl, rfl, rfl⟩, rfl⟩

/-- A push writes R15 and no flag (R100). -/
theorem pushWord_frame {s t : State} {v : Word} (h : s.pushWord v = .ok t) :
    KeepsRegsBut [spReg] s t ∧ KeepsFlags s t := by
  obtain ⟨p, -, -, -, rfl⟩ := State.pushWord_ok.mp h
  exact ⟨keepsRegsBut_setReg s spReg _, ⟨rfl, rfl, rfl, rfl, rfl⟩, rfl⟩

/-- A call writes R15 and no flag (R84, R85). -/
theorem call_frame {s t : State} {target : Word} {w : Nat} (h : s.call target w = .ok t) :
    KeepsRegsBut [spReg] s t ∧ KeepsFlags s t := by
  obtain ⟨u, hu, rfl⟩ := State.call_ok.mp h
  show KeepsRegsBut [spReg] s u ∧ KeepsFlags s u
  exact pushWord_frame hu

/-- A return writes R15 and no flag (R86). -/
theorem popReturn_frame {s t : State} (h : s.popReturn = .ok t) : KeepsRegsBut [spReg] s t ∧ KeepsFlags s t := by
  obtain ⟨v, -, rfl⟩ := State.popReturn_ok.mp h
  exact ⟨keepsRegsBut_setReg s spReg _, ⟨rfl, rfl, rfl, rfl, rfl⟩, rfl⟩

/-- The template of an ALU instruction writes RA, if the operation has a destination, and no other register (R122). -/
theorem alu_keepsRegs (s : State) (op : AluOp) (ra : Reg) (b : Word) (w : Nat) :
    KeepsRegsBut (if aluWrites op = true then [ra] else []) s (s.alu op ra b w) := by
  intro r hr
  obtain ⟨hreg, -⟩ := s.alu_effect op ra b w
  rw [hreg, if_neg]
  rintro ⟨hw, rfl⟩
  simp [hw] at hr

/-- The template of an ALU instruction leaves IF alone (R120, R122). -/
theorem State.iflag_alu (s : State) (op : AluOp) (ra : Reg) (b : Word) (w : Nat) :
    (s.alu op ra b w).iflag = s.iflag := by
  obtain ⟨-, -, -, -, -, -, hif, -⟩ := s.alu_effect op ra b w
  exact hif

/-- Where every flag is kept, none is written by an instruction that R16 does not list for it. -/
theorem flagsAsListed_of_keepsFlags {i : Instr} {s t : State} (h : KeepsFlags s t) :
    (i ∉ ([.cli, .sti, .retCli, .retSti] : List Instr) → t.iflag = s.iflag) ∧
    (writesAluFlags i = false → t.vf = s.vf ∧ t.nf = s.nf ∧
      (i ∉ ([.clz, .stz] : List Instr) → t.zf = s.zf) ∧ (i ∉ ([.clc, .stc] : List Instr) → t.cf = s.cf)) := by
  obtain ⟨⟨hcf, hzf, hvf, hnf, -⟩, hif⟩ := h
  exact ⟨fun _ => hif, fun _ => ⟨hvf, hnf, fun _ => hzf, fun _ => hcf⟩⟩

/-! ### The ALU instructions in the tables of R12 and R16 -/

@[simp] theorem destRegs_aluRegInstr (ra rb : Reg) (op : AluOp) :
    destRegs (aluRegInstr ra rb op) = if aluWrites op = true then [ra] else [] := by
  cases op <;> rfl

@[simp] theorem destRegs_aluImm8Instr (ra : Reg) (imm : Nat) (op : AluOp) :
    destRegs (aluImm8Instr ra imm op) = if aluWrites op = true then [ra] else [] := by
  cases op <;> rfl

@[simp] theorem destRegs_aluImm16Instr (ra : Reg) (imm : Word) (op : AluOp) :
    destRegs (aluImm16Instr ra imm op) = if aluWrites op = true then [ra] else [] := by
  cases op <;> rfl

@[simp] theorem writesAluFlags_aluRegInstr (ra rb : Reg) (op : AluOp) :
    writesAluFlags (aluRegInstr ra rb op) = true := by
  cases op <;> rfl

@[simp] theorem writesAluFlags_aluImm8Instr (ra : Reg) (imm : Nat) (op : AluOp) :
    writesAluFlags (aluImm8Instr ra imm op) = true := by
  cases op <;> rfl

@[simp] theorem writesAluFlags_aluImm16Instr (ra : Reg) (imm : Word) (op : AluOp) :
    writesAluFlags (aluImm16Instr ra imm op) = true := by
  cases op <;> rfl

/-! ### Reads of a valueless byte -/

/-- An unsigned displacement is added as it is (R36, R110). -/
theorem State.effAddr_natCast (s : State) (rp : Reg) (d : Nat) :
    s.effAddr rp d = s.reg rp + BitVec.ofNat 16 d := by
  simp [State.effAddr]

/-- A read of an accessible byte that holds no value is the fault of R23. -/
theorem State.readByte_valueless {s : State} {a : Word} (ha : s.access a = .ok ()) (hm : s.mem.read a.toNat = none) :
    s.readByte a = .error (.fault .valuelessByte) := by
  simp [State.readByte, ha, hm]

/-- A MEM16 read of two accessible bytes, one of which holds no value, is the fault of R23: the byte at the lower
address is read first, and whatever value it holds, the other byte is read next. -/
theorem State.read16_valueless {s : State} {a : Word} {p : Word × Word} (ha : Accessible16 s a p)
    (hm : s.mem.read p.1.toNat = none ∨ s.mem.read p.2.toNat = none) :
    s.read16 a = .error (.fault .valuelessByte) := by
  obtain ⟨hp, h1, h2⟩ := ha
  cases hx : s.mem.read p.1.toNat with
  | none => simp [State.read16, hp, State.readByte_valueless h1 hx]
  | some x =>
    have hread : s.readByte p.1 = .ok x := State.readByte_ok.mpr ⟨h1, hx⟩
    have hm2 : s.mem.read p.2.toNat = none := by simpa [hx] using hm
    simp [State.read16, hp, hread, State.readByte_valueless h2 hm2]

/-- Which bytes an access goes to and whether they may be accessed depends on the configuration and the program text
alone. -/
theorem Accessible16.congr {s t : State} {a : Word} {p : Word × Word} (h : Accessible16 s a p) (hcfg : t.cfg = s.cfg)
    (hprog : t.prog = s.prog) : Accessible16 t a p := by
  have hword : t.wordBytes a = s.wordBytes a := by simp [State.wordBytes, hcfg]
  have hacc : ∀ b, t.access b = s.access b := by
    intro b; simp [State.access, State.mapped, State.inText, hcfg, hprog]
  simpa only [Accessible16, hword, hacc] using h

/-! ### Operations that stop -/

/-- An instruction stops where the operation it rests on stops. -/
theorem finish_of_error {α : Type} {r : Except Stop α} {k : α → State} {e : Stop} (h : r = .error e) :
    finish r k = e.outcome := by
  rw [h, finish_error]

/-- A return stops where its read stops (R86). -/
theorem State.popReturn_error {s : State} {e : Stop} (h : s.read16 s.sp = .error e) : s.popReturn = .error e := by
  simp [State.popReturn, h]

/-- RESET stops where its vector read stops (R190). -/
theorem State.takeReset_error {s : State} {e : Stop} (h : s.read16 (vectorAddr s.cfg.resetVector) = .error e) :
    s.takeReset = .error e := by
  simp [State.takeReset, h]

/-- The state after the push of the interrupt exception, `q` being the two bytes pushed (R191). -/
def State.afterIntPush (s : State) (q : Word × Word) : State :=
  ((s.setIF false).afterPushedIF.setReg spReg (s.sp - 2)).pokeWord q (returnWord s.pcAddr (s.pushedIF s.iflag))

@[simp] theorem State.cfg_afterIntPush (s : State) (q : Word × Word) : (s.afterIntPush q).cfg = s.cfg := by
  simp [State.afterIntPush, State.afterPushedIF_eq]

@[simp] theorem State.prog_afterIntPush (s : State) (q : Word × Word) : (s.afterIntPush q).prog = s.prog := by
  simp [State.afterIntPush, State.afterPushedIF_eq]

/-- The push changes no byte but the two it writes. -/
theorem State.mem_read_afterIntPush {s : State} {q : Word × Word} {b : Word} (h1 : b ≠ q.1) (h2 : b ≠ q.2) :
    (s.afterIntPush q).mem.read b.toNat = s.mem.read b.toNat := by
  simp [State.afterIntPush, State.mem_read_pokeWord, State.afterPushedIF_eq, ← BitVec.toNat_eq, h1, h2]

/-- If its two bytes are accessible, the push of the interrupt exception is done (R191). -/
theorem State.pushWord_afterIntPush {s : State} {q : Word × Word} (hq : Accessible16 s (s.sp - 2) q) :
    (s.setIF false).afterPushedIF.pushWord (returnWord s.pcAddr (s.pushedIF s.iflag)) = .ok (s.afterIntPush q) := by
  have hs : (s.setIF false).afterPushedIF.sp = s.sp := by rw [State.afterPushedIF_eq]; rfl
  rw [State.afterIntPush, ← hs]
  rw [← hs] at hq
  exact State.pushWord_accessible (hq.congr (by simp [State.afterPushedIF_eq]) (by simp [State.afterPushedIF_eq]))

/-- A byte that holds no value and that the push did not write is valueless for a MEM16 read after the push (R23). -/
theorem State.read16_afterIntPush_valueless {s : State} {a b : Word} {p q : Word × Word} (hp : Accessible16 s a p)
    (hb : b = p.1 ∨ b = p.2) (hm : s.mem.read b.toNat = none) (h1 : b ≠ q.1) (h2 : b ≠ q.2) :
    (s.afterIntPush q).read16 a = .error (.fault .valuelessByte) := by
  have hpushed : (s.afterIntPush q).mem.read b.toNat = none := (State.mem_read_afterIntPush h1 h2).trans hm
  refine State.read16_valueless (hp.congr (s.cfg_afterIntPush q) (s.prog_afterIntPush q)) ?_
  rcases hb with rfl | rfl
  · exact .inl hpushed
  · exact .inr hpushed

/-- An interrupt whose push is done stops where its vector read stops (R191). -/
theorem State.takeInterrupt_error {s : State} {v : BitVec 15} {q : Word × Word} {e : Stop}
    (hq : Accessible16 s (s.sp - 2) q) (h : (s.afterIntPush q).read16 (vectorAddr v) = .error e) :
    s.takeInterrupt v = .error e := by
  simp [State.takeInterrupt, State.pushWord_afterIntPush hq, h]

/-! ### Steps into an exception -/

/-- With a reset at the coming boundary, the step is the RESET exception (R196). -/
theorem step_of_reset {s : State} (h : s.boundary.reset = true) : step s = finish s.passBoundary.takeReset id :=
  if_pos h

/-- With a request alone at the coming boundary and IF = 1, the step is the interrupt exception (R194). -/
theorem step_of_request {s : State} {v : BitVec 15} (hb : s.boundary = { reset := false, irq := some v })
    (hif : s.iflag = true) : step s = finish (s.passBoundary.takeInterrupt v) id := by
  simp [step, State.accepted, hb, hif]

end Sys2Proof.Machine

open Sys2Proof Sys2Proof.Machine

/-! ### The obligations -/

/-- Settles O55: nothing is in memory, and no program text is placed (R22). -/
theorem resetStateHasTheInvariant : Obligations.ResetStateHasTheInvariant :=
  ⟨⟨State.reset_mem_wf, rfl, fun _ _ => rfl⟩, rfl⟩

/-- Settles O50, rule by rule of `Runs`. -/
theorem instructionsWriteOnlyTheirRegisters : Obligations.InstructionsWriteOnlyTheirRegisters := by
  intro i s t h
  cases exec_next_iff.mp h with
  | nop | clc | stc | clz | stz | cli | sti | branch | jumpReg | jumpAbs => exact fun _ _ => rfl
  | jsrR _ hc | jsrA hc => exact (call_frame hc).1
  | ret hp | retCli hp | retSti hp => exact (popReturn_frame hp).1
  | push hp | pushFlag hp => exact (pushWord_frame hp).1
  | pop =>
    intro r hr
    obtain ⟨hrp, hsp⟩ : r ≠ _ ∧ r ≠ spReg := by simpa [destRegs] using hr
    simp [hrp, hsp]
  | popFlag | ldm | ldw | ldb => exact keepsRegsBut_setReg s _ _
  | stm hw | stw hw => exact (write16_frame hw).1
  | stb hw => exact (write8_frame hw).1
  | aluReg | aluImm8 | aluImm16 => simpa using alu_keepsRegs s _ _ _ _

/-- Settles O52, rule by rule of `Runs`. -/
theorem onlyListedInstructionsWriteFlags : Obligations.OnlyListedInstructionsWriteFlags := by
  intro i s t h
  cases exec_next_iff.mp h with
  | nop | branch | jumpReg | jumpAbs | pop | ldm | ldw | ldb =>
    exact flagsAsListed_of_keepsFlags ⟨⟨rfl, rfl, rfl, rfl, rfl⟩, rfl⟩
  | jsrR _ hc | jsrA hc => exact flagsAsListed_of_keepsFlags (call_frame hc).2
  | ret hp => exact flagsAsListed_of_keepsFlags (popReturn_frame hp).2
  | push hp | pushFlag hp => exact flagsAsListed_of_keepsFlags (pushWord_frame hp).2
  | stm hw | stw hw => exact flagsAsListed_of_keepsFlags (write16_frame hw).2
  | stb hw => exact flagsAsListed_of_keepsFlags (write8_frame hw).2
  | clc | stc | clz | stz | cli | sti | popFlag => simp [writesAluFlags]
  | retCli hp | retSti hp =>
    obtain ⟨⟨hcf, hzf, hvf, hnf, -⟩, -⟩ := (popReturn_frame hp).2
    simp [hcf, hzf, hvf, hnf]
  | aluReg | aluImm8 | aluImm16 => simp [State.iflag_alu]

/-- Settles O41: each access is the read of `State.readByte_valueless` or `State.read16_valueless`, and what rests on it
stops with it; a vector byte the push of the interrupt did not write is valueless after it too. -/
theorem readOfAValuelessByteFaults : Obligations.ReadOfAValuelessByteFaults := by
  intro s ra rp d4 d11
  refine ⟨fun ha hm => ?ldb, fun a p ha hm => ?word, fun v p q hb hif hq hp hm => ?interrupt⟩
  case ldb => exact finish_of_error (State.readByte_valueless ha hm)
  case word =>
    have hread := State.read16_valueless ha hm
    refine ⟨hread, ?ldm, ?ldw, ?stack, ?reset⟩
    case ldm =>
      rintro rfl
      rw [← State.effAddr_natCast] at hread
      exact finish_of_error hread
    case ldw => rintro rfl; exact finish_of_error hread
    case stack =>
      rintro rfl i hi
      have hret : s.popReturn = .error (.fault .valuelessByte) := State.popReturn_error hread
      simp only [List.mem_cons, List.not_mem_nil, or_false] at hi
      rcases hi with rfl | rfl | rfl | rfl | rfl
      exacts [finish_of_error hread, finish_of_error hread, finish_of_error hret, finish_of_error hret,
        finish_of_error hret]
    case reset =>
      rintro rfl hr
      rw [step_of_reset hr]
      exact finish_of_error (State.takeReset_error (s := s.passBoundary) hread)
  case interrupt =>
    rw [step_of_request hb hif]
    obtain ⟨b, hbp, hmem, hb1, hb2⟩ := hm
    have hread : (s.passBoundary.afterIntPush q).read16 (vectorAddr v) = .error (.fault .valuelessByte) :=
      State.read16_afterIntPush_valueless hp hbp hmem hb1 hb2
    exact finish_of_error (State.takeInterrupt_error (s := s.passBoundary) hq hread)

end

section
/-! PROOFS. What every instruction leaves alone besides registers and flags (R20, R35, R44) and the invariant it keeps;
the step as the instruction at PC (R44, R194); words and their two bytes (R31 to R33); the accesses that have no
meaning, and the instructions and exceptions that stop with them (R33, R37, R44). -/

namespace Sys2Proof.Machine

/-! ### The frame of an instruction -/

/-- What an instruction that may store to the bytes `bs` leaves alone: the environment, the canonical form of memory,
and every byte but those of `bs`, which it stores to only where a data access has a meaning (R35, R37, R44). -/
structure StoresWithin (bs : List Word) (s t : State) : Prop where
  env : KeepsEnv s t
  canonical : s.mem.wf = true → t.mem.wf = true
  stored : ∀ a : Word, t.mem.read a.toNat = s.mem.read a.toNat ∨ a ∈ bs ∧ s.access a = .ok ()

/-- What follows a store and touches neither memory nor the environment stays within the same bytes. -/
theorem StoresWithin.andThen {bs : List Word} {s t u : State} (h : StoresWithin bs s t) (hmem : u.mem = t.mem)
    (henv : KeepsEnv t u) : StoresWithin bs s u := by
  obtain ⟨⟨hinputs, hprog, hcfg, hcycles⟩, hwf, hstored⟩ := h
  obtain ⟨hinputs', hprog', hcfg', hcycles'⟩ := henv
  exact ⟨⟨hinputs'.trans hinputs, hprog'.trans hprog, hcfg'.trans hcfg, hcycles'.trans hcycles⟩,
    by rwa [hmem], by rwa [hmem]⟩

/-- Where memory and the environment are as before, nothing was stored. -/
theorem StoresWithin.of_mem_eq {bs : List Word} {s t : State} (hmem : t.mem = s.mem) (henv : KeepsEnv s t) :
    StoresWithin bs s t :=
  StoresWithin.andThen ⟨⟨rfl, rfl, rfl, rfl⟩, id, fun _ => .inl rfl⟩ hmem henv

/-- The end of an instruction, `pc <- npc`, stores nothing (R14). -/
theorem StoresWithin.advance {bs : List Word} {s t : State} (h : StoresWithin bs s t) (w : Nat) :
    StoresWithin bs s (t.advance w) :=
  h.andThen rfl ⟨rfl, rfl, rfl, rfl⟩

/-- A byte store stays within its byte (R30). -/
theorem write8_storesWithin {s t : State} {a : Word} {b : Byte} (h : s.write8 a b = .ok t) :
    StoresWithin [a] s t := by
  refine ⟨?_, fun hwf => State.wf_write8 hwf h, fun n => ?_⟩
  · obtain ⟨-, rfl⟩ := State.write8_ok.mp h
    exact ⟨rfl, rfl, rfl, rfl⟩
  · obtain ⟨hacc, rfl⟩ := State.write8_ok.mp h
    by_cases hn : n = a
    · subst hn; exact .inr ⟨by simp, hacc⟩
    · exact .inl ((s.mem_read_pokeByte a b _).trans (if_neg (mt BitVec.eq_of_toNat_eq hn)))

/-- A word store stays within the two bytes of the word (R31). -/
theorem write16_storesWithin {s t : State} {a v : Word} (h : s.write16 a v = .ok t) :
    StoresWithin (storedBytes.wordList s a) s t := by
  refine ⟨?_, fun hwf => State.wf_write16 hwf h, fun n => ?_⟩
  · obtain ⟨p, -, -, -, rfl⟩ := State.write16_iff.mp h
    exact ⟨rfl, rfl, rfl, rfl⟩
  · obtain ⟨p, hp, hacc1, hacc2, rfl⟩ := State.write16_iff.mp h
    have hlist : storedBytes.wordList s a = [p.1, p.2] := by simp [storedBytes.wordList, hp]
    rw [hlist]
    by_cases h1 : n = p.1
    · subst h1; exact .inr ⟨by simp, hacc1⟩
    · by_cases h2 : n = p.2
      · subst h2; exact .inr ⟨by simp, hacc2⟩
      · exact .inl (by simp [State.mem_read_pokeWord, ← BitVec.toNat_eq, h1, h2])

/-- A push stays within the word at the new R15 (R100). -/
theorem pushWord_storesWithin {s t : State} {v : Word} (h : s.pushWord v = .ok t) :
    StoresWithin (storedBytes.wordList s (s.sp - 2)) s t := by
  obtain ⟨henv, hwf, hstored⟩ := write16_storesWithin h
  exact ⟨henv, hwf, hstored⟩

/-- A call stays within the word at the new R15 (R84, R85). -/
theorem call_storesWithin {s t : State} {target : Word} {w : Nat} (h : s.call target w = .ok t) :
    StoresWithin (storedBytes.wordList s (s.sp - 2)) s t := by
  obtain ⟨u, hu, rfl⟩ := State.call_ok.mp h
  exact (pushWord_storesWithin hu).andThen rfl ⟨rfl, rfl, rfl, rfl⟩

/-- A return stores nothing (R86). -/
theorem popReturn_storesWithin {bs : List Word} {s t : State} (h : s.popReturn = .ok t) : StoresWithin bs s t := by
  obtain ⟨v, -, rfl⟩ := State.popReturn_ok.mp h
  exact .of_mem_eq rfl ⟨rfl, rfl, rfl, rfl⟩

/-- The template of an ALU instruction stores nothing (R122). -/
theorem alu_storesWithin {bs : List Word} (s : State) (op : AluOp) (ra : Reg) (b : Word) (w : Nat) :
    StoresWithin bs s (s.alu op ra b w) := by
  rw [s.alu_eq op ra b w]
  exact .of_mem_eq rfl ⟨rfl, rfl, rfl, rfl⟩

/-- Every instruction stays within the bytes R35 has it store to. -/
theorem exec_storesWithin {i : Instr} {s t : State} (h : exec i s = .next t) :
    StoresWithin (storedBytes s i) s t := by
  cases exec_next_iff.mp h with
  | nop | clc | stc | clz | stz | cli | sti | branch | jumpReg | jumpAbs | pop | popFlag | ldm | ldw | ldb =>
    exact .of_mem_eq rfl ⟨rfl, rfl, rfl, rfl⟩
  | jsrR _ hc | jsrA hc => exact call_storesWithin hc
  | ret hp => exact popReturn_storesWithin hp
  | retCli hp | retSti hp => exact (popReturn_storesWithin hp).andThen rfl ⟨rfl, rfl, rfl, rfl⟩
  | push hp | pushFlag hp => exact (pushWord_storesWithin hp).advance 1
  | stm hw => exact (write16_storesWithin hw).advance 1
  | stw hw => exact (write16_storesWithin hw).advance 2
  | stb hw => exact (write8_storesWithin hw).advance 2
  | aluReg | aluImm8 | aluImm16 => exact alu_storesWithin ..

/-! ### The invariant -/

/-- The invariant is about memory, the program text and the configuration alone. -/
theorem State.Inv.congr {s t : State} (h : s.Inv) (hmem : t.mem = s.mem) (hprog : t.prog = s.prog)
    (hcfg : t.cfg = s.cfg) : t.Inv := by
  simpa [State.Inv, State.dataOnly, State.inText, State.mapped, hmem, hprog, hcfg] using h

/-- A byte that belongs to the program text or lies outside `MEMMAP` has no meaningful access (R37, R44). -/
theorem State.access_ne_ok {s : State} {a : Word} (h : s.inText a = true ∨ s.mapped a = false) :
    s.access a ≠ .ok () := by
  rw [Ne, State.access_ok]
  rintro ⟨hmapped, htext⟩
  rcases h with h | h
  · simp [h] at htext
  · simp [h] at hmapped

/-- A store keeps the invariant: the bytes it changes may be accessed, so none of them is a byte that must stay
without a value (R37, R44). -/
theorem StoresWithin.inv {bs : List Word} {s t : State} (h : StoresWithin bs s t) (hs : s.Inv) : t.Inv := by
  obtain ⟨⟨-, hprog, hcfg, -⟩, hwf, hstored⟩ := h
  obtain ⟨hmem, htext, hdata⟩ := hs
  refine ⟨hwf hmem, by rwa [hprog], fun a ha => ?_⟩
  have ha : s.inText a = true ∨ s.mapped a = false := by
    simpa [State.inText, State.mapped, hprog, hcfg] using ha
  rcases hstored a with hsame | ⟨-, hacc⟩
  · rw [hsame, hdata a ha]
  · exact absurd hacc (State.access_ne_ok ha)

/-- The RESET exception keeps the invariant (R190). -/
theorem State.Inv.takeReset {s t : State} (hs : s.Inv) (h : s.takeReset = .ok t) : t.Inv := by
  obtain ⟨v, -, rfl⟩ := State.takeReset_ok.mp h
  exact hs.congr rfl rfl rfl

/-- The interrupt exception keeps the invariant: its one store is a push (R191). -/
theorem State.Inv.takeInterrupt {s t : State} {v : BitVec 15} (hs : s.Inv) (h : s.takeInterrupt v = .ok t) :
    t.Inv := by
  obtain ⟨u, x, hu, -, rfl⟩ := State.takeInterrupt_ok.mp h
  rw [State.afterPushedIF_eq] at hu
  have hpush : u.Inv := (pushWord_storesWithin hu).inv (hs.congr rfl rfl rfl)
  exact hpush.congr rfl rfl rfl

/-! ### What a step leaves alone -/

/-- The counts of R232 are 1, 2 and 3. -/
theorem instrCycles_bounds (i : Instr) : 1 ≤ instrCycles i ∧ instrCycles i ≤ 3 := by
  unfold instrCycles
  split <;> decide

/-- The program text, the configuration and the inputs stay as they are, and `n` cycles are counted. -/
def KeepsEnvBut (n : Nat) (s t : State) : Prop :=
  t.prog = s.prog ∧ t.cfg = s.cfg ∧ t.inputs = s.inputs ∧ t.cycles = s.cycles + n

/-- RESET takes 2 cycles (R190). -/
theorem takeReset_keepsEnvBut {s t : State} (h : s.takeReset = .ok t) : KeepsEnvBut 2 s t := by
  obtain ⟨v, -, rfl⟩ := State.takeReset_ok.mp h
  exact ⟨rfl, rfl, rfl, rfl⟩

/-- An interrupt takes 3 cycles (R191). -/
theorem takeInterrupt_keepsEnvBut {s t : State} {v : BitVec 15} (h : s.takeInterrupt v = .ok t) :
    KeepsEnvBut 3 s t := by
  obtain ⟨u, x, hu, -, rfl⟩ := State.takeInterrupt_ok.mp h
  rw [State.afterPushedIF_eq] at hu
  obtain ⟨hinputs, hprog, hcfg, hcycles⟩ := (pushWord_storesWithin hu).env
  exact ⟨hprog, hcfg, hinputs, congrArg (· + 3) hcycles⟩

/-- An instruction takes the cycles R232 counts for it. -/
theorem tick_keepsEnvBut {i : Instr} {s t : State} (h : exec i s = .next t) :
    KeepsEnvBut (instrCycles i) s (t.tick (instrCycles i)) := by
  obtain ⟨hinputs, hprog, hcfg, hcycles⟩ := (exec_storesWithin h).env
  exact ⟨hprog, hcfg, hinputs, congrArg (· + instrCycles i) hcycles⟩

/-- Every step passes one boundary and counts 1 to 3 cycles, and so much alone of the environment changes (R44, R232). -/
theorem step_keepsEnvBut {s t : State} (h : step s = .next t) :
    ∃ n, 1 ≤ n ∧ n ≤ 3 ∧ KeepsEnvBut n s.passBoundary t := by
  rcases step_next h with ⟨-, hreset⟩ | ⟨v, -, -, hint⟩ | ⟨i, u, -, -, -, -, hexec, rfl⟩
  · exact ⟨2, by decide, by decide, takeReset_keepsEnvBut hreset⟩
  · exact ⟨3, by decide, by decide, takeInterrupt_keepsEnvBut hint⟩
  · obtain ⟨hlow, hhigh⟩ := instrCycles_bounds i
    exact ⟨instrCycles i, hlow, hhigh, tick_keepsEnvBut hexec⟩

/-! ### The step as the instruction at PC -/

/-- Each outcome of the fetched instruction is the outcome of the run, its cycles counted (R44, R233). -/
theorem State.runInstr_of_fetch {s : State} {i : Instr} (hf : s.fetch = .ok i) :
    (∀ t, exec i s = .next t → s.runInstr = .next (t.tick (instrCycles i))) ∧
    (∀ r, exec i s = .fault r → s.runInstr = .fault r) ∧
    (∀ r, exec i s = .refused r → s.runInstr = .refused r) := by
  refine ⟨fun t h => ?_, fun r h => ?_, fun r h => ?_⟩ <;> simp only [State.runInstr, hf, h]

/-- A fetch that stops stops the run (R44). -/
theorem State.runInstr_of_fetch_error {s : State} {e : Stop} (hf : s.fetch = .error e) : s.runInstr = e.outcome := by
  simp only [State.runInstr, hf]

/-- Where the program text has nothing at PC, the fetch is refused (R44). -/
theorem State.fetch_none {s : State} (h : findEntry s.prog s.pc = none) :
    s.fetch = .error (.refused .noInstruction) := by
  simp only [State.fetch, h]

/-- Operands out of range are refused at the fetch (R62). -/
theorem State.fetch_illFormed {s : State} {i : Instr} (h : findEntry s.prog s.pc = some i)
    (hwf : i.wellFormed = false) : s.fetch = .error (.refused .illFormed) := by
  simp [State.fetch, h, hwf]

/-- The instruction placed at an address is the one found there. -/
@[simp] theorem findEntry_placeInstr (prog : List ProgEntry) (pc : Pc) (i : Instr) :
    findEntry (placeInstr prog pc i) pc = some i :=
  if_pos rfl

/-- What the bits of a table word decode to is well-formed (R62). -/
theorem decodeTableWordBy_wf {e : Encoding} {nbits w : Nat} {i : Instr} (h : decodeTableWordBy e nbits w = some i) :
    i.wellFormed = true := by
  unfold decodeTableWordBy at h
  split at h
  · next j rest hj =>
    cases h
    obtain ⟨-, -, -, f, -, hf⟩ := decodeWords_ok.mp hj
    exact decodeFields_wf hf
  · cases h

/-- The bits of an instruction are placed for the fetch as that instruction, with a quiet boundary before it. -/
theorem State.withFetchWordBy_eq {e : Encoding} {nbits w : Nat} {i : Instr} (s : State)
    (h : decodeTableWordBy e nbits w = some i) :
    s.withFetchWordBy e nbits w =
      { s with prog := placeInstr s.prog s.pc i, inputs := Boundary.quiet :: s.inputs } := by
  simp only [State.withFetchWordBy, h]

/-! ### Words and their two bytes -/

/-- At an even address a word is read from its two bytes, each of which may be read alone (R31). -/
theorem State.read16_even_ok {s : State} {a v : Word} (h : a.toNat % 2 = 0) :
    s.read16 a = .ok v ↔ ∃ x y, s.read8 a = .ok x ∧ s.read8 (a + 1) = .ok y ∧ v = joinBytes s.cfg.byteOrder x y := by
  simp [State.read16_ok, State.wordBytes_even s h, State.read8]

/-- A word that was stored is read back at the address of the store (R31, R33). -/
theorem State.read16_of_write16 {s t : State} {a v : Word} (h : s.write16 a v = .ok t) : t.read16 a = .ok v := by
  obtain ⟨p, hp, hacc1, hacc2, rfl⟩ := State.write16_iff.mp h
  exact State.read16_of_stored hp hacc1 hacc2 rfl rfl rfl

/-- What a word store does to the bytes of memory (R31, R33). -/
theorem State.storesWord_of_write16 {s t : State} {a v : Word} {p : Word × Word} (hp : s.wordBytes a = .ok p)
    (h : s.write16 a v = .ok t) : StoresWord p v s t := by
  obtain ⟨q, hq, -, -, rfl⟩ := State.write16_iff.mp h
  cases hp.symm.trans hq
  exact s.mem_read_pokeWord p v

theorem toNat_add_one_of_even {a : Word} (h : a.toNat % 2 = 0) : (a + 1).toNat = a.toNat + 1 := by
  have hadd : (a + 1).toNat = (a.toNat + 1) % 65536 := BitVec.toNat_add a 1
  have hlt := a.isLt
  omega

/-- The value of two bytes written one after the other, the high half first (R32). -/
theorem toNat_append_bytes (hi lo : Byte) : (hi ++ lo : Word).toNat = 256 * hi.toNat + lo.toNat := by
  have happ : (hi ++ lo : Word).toNat = hi.toNat <<< 8 ||| lo.toNat := BitVec.toNat_append hi lo
  rw [happ, ← Nat.shiftLeft_add_eq_or_of_lt lo.isLt, Nat.shiftLeft_eq, Nat.mul_comm]

theorem toNat_sub_one_of_odd {a : Word} (h : a.toNat % 2 = 1) : (a - 1).toNat = a.toNat - 1 := by
  bv_omega

/-- The address `ignore_bit0` puts in the place of an odd one is the even address below it (R33). -/
theorem and_fffe_of_odd {a : Word} (h : a.toNat % 2 = 1) : a &&& 0xFFFE#16 = a - 1 := by
  have hsub := toNat_sub_one_of_odd h
  have hpc : toPc a = toPc (a - 1) := by
    apply BitVec.eq_of_toNat_eq
    simp only [toPc, BitVec.extractLsb'_toNat, Nat.shiftRight_eq_div_pow, hsub]
    omega
  calc a &&& 0xFFFE#16 = toPc a ++ 0#1 := (toPc_append a).symm
    _ = toPc (a - 1) ++ 0#1 := by rw [hpc]
    _ = (a - 1) &&& 0xFFFE#16 := toPc_append _
    _ = a - 1 := and_fffe_of_even (by omega)

/-- Under `ignore_bit0` the bytes of a word at an odd address are those at the even address below it (R33). -/
theorem State.wordBytes_ignoreBit0 {s : State} {a : Word} (hm : s.cfg.misaligned16 = .ignoreBit0)
    (h : a.toNat % 2 = 1) : s.wordBytes a = s.wordBytes (a - 1) := by
  have hsub := toNat_sub_one_of_odd h
  rw [State.wordBytes_even s (a := a - 1) (by omega), State.wordBytes, if_neg (by omega), hm, and_fffe_of_odd h]

/-- Under `split` the bytes of a word at an odd address are that byte and the one after it (R33). -/
theorem State.wordBytes_split {s : State} {a : Word} (hm : s.cfg.misaligned16 = .split) (h : a.toNat % 2 = 1) :
    s.wordBytes a = .ok (a, a + 1) := by
  rw [State.wordBytes, if_neg (by omega), hm]

/-- Under `refuse` there is no word access at an odd address (R33). -/
theorem State.wordBytes_refuse {s : State} {a : Word} (hm : s.cfg.misaligned16 = .refuse) (h : a.toNat % 2 = 1) :
    s.wordBytes a = .error (.refused .misaligned) := by
  rw [State.wordBytes, if_neg (by omega), hm]

/-- A word read depends on its address by the bytes it goes to alone. -/
theorem State.read16_of_wordBytes_eq {s : State} {a b : Word} (h : s.wordBytes a = s.wordBytes b) :
    s.read16 a = s.read16 b := by
  simp only [State.read16, h]

/-- A word store depends on its address by the bytes it goes to alone. -/
theorem State.write16_of_wordBytes_eq {s : State} {a b : Word} (h : s.wordBytes a = s.wordBytes b) (v : Word) :
    s.write16 a v = s.write16 b v := by
  simp only [State.write16, h]

/-- Where there is no word access, there is no word read. -/
theorem State.read16_of_wordBytes_error {s : State} {a : Word} {e : Stop} (h : s.wordBytes a = .error e) :
    s.read16 a = .error e := by
  simp only [State.read16, h]

/-! ### Stores that have no meaning -/

/-- The two bytes a MEM16 store at `a` goes to, or why there is no such store (R33, R37, R44). -/
def State.storeTarget (s : State) (a : Word) : Except Stop (Word × Word) :=
  match s.wordBytes a with
  | .error e => .error e
  | .ok p =>
    match s.access p.1, s.access p.2 with
    | .error e, _ => .error e
    | .ok _, .error e => .error e
    | .ok _, .ok _ => .ok p

/-- A word store is the store to its target: the value has no part in whether it goes through. -/
theorem State.write16_eq (s : State) (a v : Word) : s.write16 a v = (s.storeTarget a).map fun p => s.pokeWord p v := by
  unfold State.write16 State.storeTarget
  cases s.wordBytes a with
  | error e => rfl
  | ok p => dsimp only; cases s.access p.1 <;> cases s.access p.2 <;> rfl

theorem State.write16_error {s : State} {a : Word} {e : Stop} (h : s.storeTarget a = .error e) (v : Word) :
    s.write16 a v = .error e := by
  rw [State.write16_eq, h]; rfl

/-- Where there is no word access, there is no word store. -/
theorem State.storeTarget_of_wordBytes_error {s : State} {a : Word} {e : Stop} (h : s.wordBytes a = .error e) :
    s.storeTarget a = .error e := by
  simp only [State.storeTarget, h]

/-- Why a byte may not be accessed depends on the configuration and the program text alone. -/
theorem State.blocked_congr {s t : State} (hcfg : t.cfg = s.cfg) (hprog : t.prog = s.prog) (a : Word) :
    t.blocked a = s.blocked a := by
  simp [State.blocked, State.mapped, State.inText, hcfg, hprog]

/-- Which bytes a word access goes to depends on the configuration alone. -/
theorem State.wordBytes_congr {s t : State} (hcfg : t.cfg = s.cfg) (a : Word) : t.wordBytes a = s.wordBytes a := by
  simp [State.wordBytes, hcfg]

theorem State.storeTarget_congr {s t : State} (hcfg : t.cfg = s.cfg) (hprog : t.prog = s.prog) (a : Word) :
    t.storeTarget a = s.storeTarget a := by
  simp only [State.storeTarget, State.access_eq, State.wordBytes_congr hcfg, State.blocked_congr hcfg hprog]

/-- A word store is refused under the name of its first blocked byte (R37, R44). -/
theorem State.storeTarget_blocked {s : State} {a : Word} {p : Word × Word} {r : Refusal} (hp : s.wordBytes a = .ok p)
    (h : s.blocked p.1 = some r ∨ s.blocked p.1 = none ∧ s.blocked p.2 = some r) :
    s.storeTarget a = .error (.refused r) := by
  rcases h with h1 | ⟨h1, h2⟩
  · simp only [State.storeTarget, hp, State.access_eq, h1]
  · simp only [State.storeTarget, hp, State.access_eq, h1, h2]

/-- A byte store is refused where its byte is blocked (R37, R44). -/
theorem State.write8_blocked {s : State} {a : Word} {r : Refusal} (h : s.blocked a = some r) (b : Byte) :
    s.write8 a b = .error (.refused r) := by
  simp only [State.write8, State.access_eq, h]

/-- A push stops where the store at the new R15 does (R100). -/
theorem State.pushWord_error {s : State} {e : Stop} (h : s.storeTarget (s.sp - 2) = .error e) (v : Word) :
    s.pushWord v = .error e :=
  State.write16_error ((State.storeTarget_congr (State.cfg_setReg ..) (State.prog_setReg ..) _).trans h) v

/-- A call stops where its push does (R84, R85). -/
theorem State.call_error {s : State} {e : Stop} (h : s.storeTarget (s.sp - 2) = .error e) (target : Word) (w : Nat) :
    s.call target w = .error e := by
  simp only [State.call, State.pushWord_error h]

/-- An interrupt stops where its push does (R191). -/
theorem State.takeInterrupt_push_error {s : State} {e : Stop} (h : s.storeTarget (s.sp - 2) = .error e)
    (v : BitVec 15) : s.takeInterrupt v = .error e := by
  have hpush : (s.setIF false).afterPushedIF.storeTarget ((s.setIF false).afterPushedIF.sp - 2) = .error e := by
    rw [State.afterPushedIF_eq]
    exact (State.storeTarget_congr rfl rfl _).trans h
  simp only [State.takeInterrupt, State.pushWord_error hpush]

/-- Every instruction that pushes stops where the store at the new R15 does (R84, R85, R100, R102). -/
theorem exec_pushing_error {s : State} {rq : Reg} {abs : Word} {e : Stop} (hrq : rq ≠ spReg)
    (h : s.storeTarget (s.sp - 2) = .error e) :
    ∀ i ∈ ([.push rq, .pushFlag, .jsrR rq, .jsrA abs] : List Instr), exec i s = e.outcome := by
  intro i hi
  simp only [List.mem_cons, List.not_mem_nil, or_false] at hi
  rcases hi with rfl | rfl | rfl | rfl
  · exact finish_of_error (State.pushWord_error h _)
  · exact finish_of_error (State.pushWord_error h _)
  · exact (if_neg hrq).trans (finish_of_error (State.call_error h _ _))
  · exact finish_of_error (State.call_error h _ _)

/-- A boundary with a request and IF = 1 stops where the store at the new R15 does (R191). -/
theorem step_request_push_error {s : State} {v : BitVec 15} {e : Stop} (h : s.storeTarget (s.sp - 2) = .error e)
    (hb : s.boundary = { reset := false, irq := some v }) (hif : s.iflag = true) : step s = e.outcome := by
  rw [step_of_request hb hif]
  exact finish_of_error (State.takeInterrupt_push_error (s := s.passBoundary) h v)

/-- STM and STW stop where the store at their effective address does (R111, R113). -/
theorem exec_stm_error {s : State} {rp ra : Reg} {d : Nat} {e : Stop}
    (h : s.storeTarget (s.reg rp + BitVec.ofNat 16 d) = .error e) : exec (.stm rp d ra) s = e.outcome := by
  rw [← State.effAddr_natCast] at h
  exact finish_of_error (State.write16_error h _)

theorem exec_stw_error {s : State} {rp ra : Reg} {d : Int} {e : Stop}
    (h : s.storeTarget (s.reg rp + BitVec.ofInt 16 d) = .error e) : exec (.stw rp d ra) s = e.outcome :=
  finish_of_error (State.write16_error h _)

/-! ### Loads that have no meaning -/

/-- Every instruction that pops stops where the read at R15 does (R86 to R88, R101, R103). -/
theorem exec_popping_error {s : State} {rq : Reg} {e : Stop} (h : s.read16 s.sp = .error e) :
    ∀ i ∈ ([.pop rq, .popFlag, .ret, .retCli, .retSti] : List Instr), exec i s = e.outcome := by
  have hret : s.popReturn = .error e := State.popReturn_error h
  intro i hi
  simp only [List.mem_cons, List.not_mem_nil, or_false] at hi
  rcases hi with rfl | rfl | rfl | rfl | rfl
  exacts [finish_of_error h, finish_of_error h, finish_of_error hret, finish_of_error hret, finish_of_error hret]

/-- LDM and LDW stop where the read at their effective address does (R110, R112). -/
theorem exec_ldm_error {s : State} {ra rp : Reg} {d : Nat} {e : Stop}
    (h : s.read16 (s.reg rp + BitVec.ofNat 16 d) = .error e) : exec (.ldm ra rp d) s = e.outcome := by
  rw [← State.effAddr_natCast] at h
  exact finish_of_error h

theorem exec_ldw_error {s : State} {ra rp : Reg} {d : Int} {e : Stop}
    (h : s.read16 (s.reg rp + BitVec.ofInt 16 d) = .error e) : exec (.ldw ra rp d) s = e.outcome :=
  finish_of_error h

/-- A byte read is refused where its byte is blocked (R37, R44). -/
theorem State.read8_blocked {s : State} {a : Word} {r : Refusal} (h : s.blocked a = some r) :
    s.read8 a = .error (.refused r) := by
  simp only [State.read8, State.readByte_eq, h]

/-- `x` is how a load of the bytes `p` ends, one of them being blocked: in the refusal of the first byte if that is
blocked, else in the fault of R23 if it is not `valued`, else in the refusal of the second byte. -/
def LoadStops (s : State) (p : Word × Word) (valued : Prop) (x : Host.Outcome State Fault Refusal) : Prop :=
  (∀ r, s.blocked p.1 = some r → x = .refused r) ∧
  (s.blocked p.1 = none → ¬valued → x = .fault .valuelessByte) ∧
  (s.blocked p.1 = none → valued → ∀ r, s.blocked p.2 = some r → x = .refused r)

/-- A word read one of whose bytes is blocked stops, the first byte being read before the second (R23, R37, R44). -/
theorem State.read16_blocked {s : State} {a : Word} {p : Word × Word} (hp : s.wordBytes a = .ok p)
    (h : s.blocked p.1 ≠ none ∨ s.blocked p.2 ≠ none) :
    ∃ e, s.read16 a = .error e ∧ LoadStops s p (s.mem.read p.1.toNat ≠ none) e.outcome := by
  cases h1 : s.blocked p.1 with
  | some r =>
    refine ⟨.refused r, by simp only [State.read16, hp, State.readByte_eq, h1], ?_⟩
    simp [LoadStops, h1, Stop.outcome]
  | none =>
    cases hx : s.mem.read p.1.toNat with
    | none =>
      refine ⟨.fault .valuelessByte, by simp only [State.read16, hp, State.readByte_eq, h1, hx], ?_⟩
      simp [LoadStops, h1, Stop.outcome]
    | some x =>
      obtain ⟨r, h2⟩ : ∃ r, s.blocked p.2 = some r := by simpa [h1, Option.ne_none_iff_exists'] using h
      refine ⟨.refused r, by simp only [State.read16, hp, State.readByte_eq, h1, hx, h2], ?_⟩
      simp [LoadStops, h1, h2, Stop.outcome]

/-- After the push of an interrupt a byte holds a value exactly if it did before or the push wrote it (R191). -/
theorem State.mem_read_afterIntPush_ne_none {s : State} {q : Word × Word} {b : Word} :
    (s.afterIntPush q).mem.read b.toNat ≠ none ↔ s.mem.read b.toNat ≠ none ∨ b = q.1 ∨ b = q.2 := by
  rw [State.afterIntPush, State.mem_read_pokeWord]
  split
  · next h2 => simp [BitVec.eq_of_toNat_eq h2]
  · next h2 =>
    split
    · next h1 => simp [BitVec.eq_of_toNat_eq h1]
    · next h1 => simp [State.afterPushedIF_eq, mt (congrArg BitVec.toNat) h1, mt (congrArg BitVec.toNat) h2]

/-- A vector read one of whose bytes is blocked stops the interrupt, whose push may have written the first (R191). -/
theorem State.takeInterrupt_blocked {s : State} {v : BitVec 15} {p q : Word × Word}
    (hq : Accessible16 s (s.sp - 2) q) (hp : s.wordBytes (vectorAddr v) = .ok p)
    (h : s.blocked p.1 ≠ none ∨ s.blocked p.2 ≠ none) :
    ∃ e, s.takeInterrupt v = .error e ∧
      LoadStops s p (s.mem.read p.1.toNat ≠ none ∨ p.1 = q.1 ∨ p.1 = q.2) e.outcome := by
  have hblocked := State.blocked_congr (s.cfg_afterIntPush q) (s.prog_afterIntPush q)
  obtain ⟨e, hread, hstops⟩ := State.read16_blocked (s := s.afterIntPush q)
    ((State.wordBytes_congr (s.cfg_afterIntPush q) _).trans hp) (by rwa [hblocked, hblocked])
  refine ⟨e, State.takeInterrupt_error hq hread, ?_⟩
  simpa only [LoadStops, hblocked, State.mem_read_afterIntPush_ne_none] using hstops

end Sys2Proof.Machine

open Sys2Proof Sys2Proof.Machine

/-! ### The obligations -/

/-- Settles O54: an exception stores at most by its push, an instruction within its own bytes, and a store keeps the
invariant. -/
theorem stepKeepsTheInvariant : Obligations.StepKeepsTheInvariant := by
  intro s t hs h
  have hpass : s.passBoundary.Inv := hs.congr rfl rfl rfl
  rcases step_next h with ⟨-, hreset⟩ | ⟨v, -, -, hint⟩ | ⟨i, u, -, -, -, -, hexec, rfl⟩
  · exact hpass.takeReset hreset
  · exact hpass.takeInterrupt hint
  · have hu : u.Inv := (exec_storesWithin hexec).inv hpass
    exact hu.congr rfl rfl rfl

/-- Settles O51: the byte part of the frame of an instruction. -/
theorem instructionsStoreOnlyTheirBytes : Obligations.InstructionsStoreOnlyTheirBytes :=
  fun _ _ _ h a ha => ((exec_storesWithin h).stored a).resolve_right fun hstored => ha hstored.1

/-- Settles O53: the environment part of the frame of an instruction. -/
theorem instructionsLeaveTextConfigurationAndInputsAlone :
    Obligations.InstructionsLeaveTextConfigurationAndInputsAlone :=
  fun _ _ _ h => (exec_storesWithin h).env

/-- Settles O56, from the environment part of the frame of a step. -/
theorem stepKeepsProgramTextAndConfiguration : Obligations.StepKeepsProgramTextAndConfiguration := by
  intro s t h
  obtain ⟨n, hlow, hhigh, hprog, hcfg, hinputs, hcycles⟩ := step_keepsEnvBut h
  have hcycles : t.cycles = s.cycles + n := hcycles
  exact ⟨hprog, hcfg, hinputs, by omega, by omega⟩

/-- Settles O7: with no exception taken the step is the run of the fetched instruction. -/
theorem stepRunsTheFetchedInstruction : Obligations.StepRunsTheFetchedInstruction := by
  intro s i hreset hmask hentry hwf
  rw [step_of_no_exception hreset hmask]
  exact State.runInstr_of_fetch (s := s.passBoundary) (State.fetch_ok.mpr ⟨hentry, hwf⟩)

/-- Settles O9: with no exception taken the step stops where the fetch does. -/
theorem stepWithoutInstructionIsRefused : Obligations.StepWithoutInstructionIsRefused := by
  intro s hreset hmask
  rw [step_of_no_exception hreset hmask]
  exact ⟨fun hnone => State.runInstr_of_fetch_error (s := s.passBoundary) (State.fetch_none hnone),
    fun i hentry hwf => State.runInstr_of_fetch_error (s := s.passBoundary) (State.fetch_illFormed hentry hwf)⟩

/-- Settles O8: the placed instruction is well-formed and found at PC, and the boundary before it is quiet. -/
theorem stepRunsTheDecodedTableWord : Obligations.StepRunsTheDecodedTableWord := by
  intro e s nbits w i hdec
  rw [State.withFetchWordBy_eq s hdec, step_of_no_exception rfl (.inr rfl)]
  have hentry : findEntry (placeInstr s.prog s.pc i) s.pc = some i := findEntry_placeInstr ..
  exact State.runInstr_of_fetch (s := { s with prog := placeInstr s.prog s.pc i })
    (State.fetch_ok.mpr ⟨hentry, decodeTableWordBy_wf hdec⟩)

/-- Settles O36: the store is read back, and changes its two bytes alone. -/
theorem wordReadAfterWriteAtAnEvenAddress : Obligations.WordReadAfterWriteAtAnEvenAddress := by
  intro s a v heven
  refine ⟨State.read16_even_ok heven, fun t ht => ⟨State.read16_of_write16 ht, fun n hlow hhigh => ?_⟩⟩
  have hmem := State.storesWord_of_write16 (State.wordBytes_even s heven) ht n
  rwa [toNat_add_one_of_even heven, if_neg hhigh, if_neg hlow] at hmem

/-- Settles O37: the word joins the two bytes read, of which the byte order says which is written first. -/
theorem byteOrderSaysWhichByteIsTheHighHalf : Obligations.ByteOrderSaysWhichByteIsTheHighHalf := by
  intro s a v x y heven hv hx hy
  obtain ⟨x', y', hx', hy', rfl⟩ := (State.read16_even_ok heven).mp hv
  cases hx.symm.trans hx'
  cases hy.symm.trans hy'
  refine ⟨fun ho => ?_, fun ho => ?_⟩
  · rw [ho]; exact toNat_append_bytes y x
  · rw [ho]; exact toNat_append_bytes x y

/-- Settles O38: no word access has bytes there, so that neither the read nor the store at the address goes through;
R15 - 2 is odd where R15 is. -/
theorem misalignedWordAccessIsRefusedUnderRefuse : Obligations.MisalignedWordAccessIsRefusedUnderRefuse := by
  intro s hm ra rp rq d4 d11 abs hrq
  have hread : ∀ {a : Word}, a.toNat % 2 = 1 → s.read16 a = .error (.refused .misaligned) :=
    fun h => State.read16_of_wordBytes_error (State.wordBytes_refuse hm h)
  have hstore : ∀ {a : Word}, a.toNat % 2 = 1 → s.storeTarget a = .error (.refused .misaligned) :=
    fun h => State.storeTarget_of_wordBytes_error (State.wordBytes_refuse hm h)
  have hnew : s.sp.toNat % 2 = 1 → (s.sp - 2).toNat % 2 = 1 := by bv_omega
  refine ⟨fun h => ⟨exec_ldm_error (hread h), exec_stm_error (hstore h)⟩,
    fun h => ⟨exec_ldw_error (hread h), exec_stw_error (hstore h)⟩, fun h i hi => ?_,
    fun h v hb hif => step_request_push_error (hstore (hnew h)) hb hif⟩
  have hkind : i ∈ ([.push rq, .pushFlag, .jsrR rq, .jsrA abs] : List Instr) ∨
      i ∈ ([.pop rq, .popFlag, .ret, .retCli, .retSti] : List Instr) := by
    simp only [List.mem_cons, List.not_mem_nil, or_false] at hi ⊢
    tauto
  rcases hkind with hpush | hpop
  · exact exec_pushing_error hrq (hstore (hnew h)) i hpush
  · exact exec_popping_error (hread h) i hpop

/-- Settles O39: `ignore_bit0` has the bytes of the even address below, `split` those of the address itself. -/
theorem misalignedWordAccessUnderTheOtherParameters : Obligations.MisalignedWordAccessUnderTheOtherParameters := by
  intro s a hodd
  refine ⟨fun hm => ?_, fun hm v t ht => ?_⟩
  · have hbytes := State.wordBytes_ignoreBit0 hm hodd
    exact ⟨State.read16_of_wordBytes_eq hbytes, State.write16_of_wordBytes_eq hbytes⟩
  · exact ⟨State.read16_of_write16 ht, State.storesWord_of_write16 (State.wordBytes_split hm hodd) ht⟩

/-- Settles O40: the store has no target, and what rests on it stops with it. -/
theorem storeOutsideMemMapOrInTextIsRefused : Obligations.StoreOutsideMemMapOrInTextIsRefused := by
  intro s a ra rp rq d4 d11 abs r hrq
  refine ⟨?stb, fun p hp hblocked => ?word⟩
  case stb => rintro rfl hblocked; exact finish_of_error (State.write8_blocked hblocked _)
  case word =>
    have hstore := State.storeTarget_blocked hp hblocked
    refine ⟨State.write16_error hstore, ?stm, ?stw, ?stack⟩
    case stm => rintro rfl; exact exec_stm_error hstore
    case stw => rintro rfl; exact exec_stw_error hstore
    case stack =>
      rintro rfl
      exact ⟨exec_pushing_error hrq hstore, fun v hb hif => step_request_push_error hstore hb hif⟩

/-- Settles O58: the read stops as `LoadStops` says, and what rests on it stops with it; for the interrupt it is the read
after the push. -/
theorem loadOutsideMemMapOrInTextHasNoNextState : Obligations.LoadOutsideMemMapOrInTextHasNoNextState := by
  intro s a ra rp d4 d11
  refine ⟨?ldb, fun p hp hblocked => ?word⟩
  case ldb => rintro r rfl hblocked; exact finish_of_error (State.read8_blocked hblocked)
  case word =>
    obtain ⟨e, hread, hstops⟩ := State.read16_blocked hp hblocked
    refine ⟨by simp [hread], ?ldm, ?ldw, ?stack, ?reset, ?interrupt⟩
    case ldm => rintro rfl; rw [exec_ldm_error hread]; exact hstops
    case ldw => rintro rfl; rw [exec_ldw_error hread]; exact hstops
    case stack => rintro rfl i hi; rw [exec_popping_error hread i hi]; exact hstops
    case reset =>
      rintro rfl hr
      rw [step_of_reset hr, finish_of_error (State.takeReset_error (s := s.passBoundary) hread)]
      exact hstops
    case interrupt =>
      rintro v q rfl hb hif hq
      obtain ⟨e, hint, hstops⟩ := State.takeInterrupt_blocked (s := s.passBoundary) hq hp hblocked
      rw [step_of_request hb hif, finish_of_error hint]
      exact hstops

end

section
/-! PROOFS. The codec: operand fields and forms determine each other (R52 to R60); under every encoding that meets R67
the decoder inverts the encoder, on words and on bytes, and answers nothing else (R62, R32); each operand is told by
the bits of its own field (R67 (4)). -/

namespace Sys2Proof

/-! ### The families in `fieldsOf` and `wellFormed` -/

@[simp] theorem fieldsOf_plainInstr (op : PlainOp) : fieldsOf (plainInstr op) = .plain op := by
  cases op <;> rfl

@[simp] theorem fieldsOf_branchInstr (rel : Int) (c : Cond) :
    fieldsOf (branchInstr rel c) = .ccRel8 c (relField rel) := by
  cases c <;> rfl

@[simp] theorem fieldsOf_jumpRegInstr (rb : Reg) (c : Cond) : fieldsOf (jumpRegInstr rb c) = .ccRb c rb := by
  cases c <;> rfl

@[simp] theorem fieldsOf_jumpAbsInstr (abs : Word) (c : Cond) :
    fieldsOf (jumpAbsInstr abs c) = .ccAbs15 c (absField abs) := by
  cases c <;> rfl

@[simp] theorem fieldsOf_stackInstr (rp : Reg) (op : StackOp) : fieldsOf (stackInstr rp op) = .rp op rp := by
  cases op <;> rfl

@[simp] theorem fieldsOf_shortMemInstr (ra rp : Reg) (disp : Nat) (op : ShortMemOp) :
    fieldsOf (shortMemInstr ra rp disp op) = .raRpDisp4 op ra rp (disp4Field disp) := by
  cases op <;> rfl

@[simp] theorem fieldsOf_longMemInstr (ra rp : Reg) (disp : Int) (op : LongMemOp) :
    fieldsOf (longMemInstr ra rp disp op) = .raRpDisp11 op ra rp (disp11Field disp) := by
  cases op <;> rfl

@[simp] theorem fieldsOf_aluRegInstr (ra rb : Reg) (op : AluOp) : fieldsOf (aluRegInstr ra rb op) = .raRb op ra rb := by
  cases op <;> rfl

@[simp] theorem fieldsOf_aluImm8Instr (ra : Reg) (imm : Nat) (op : AluOp) :
    fieldsOf (aluImm8Instr ra imm op) = .raImm8 op ra (imm8Field imm) := by
  cases op <;> rfl

@[simp] theorem fieldsOf_aluImm16Instr (ra : Reg) (imm : Word) (op : AluOp) :
    fieldsOf (aluImm16Instr ra imm op) = .raImm16 op ra imm := by
  cases op <;> rfl

@[simp] theorem wellFormed_branchInstr (rel : Int) (c : Cond) : (branchInstr rel c).wellFormed = relOk rel := by
  cases c <;> rfl

@[simp] theorem wellFormed_jumpAbsInstr (abs : Word) (c : Cond) : (jumpAbsInstr abs c).wellFormed = absOk abs := by
  cases c <;> rfl

@[simp] theorem wellFormed_aluImm8Instr (ra : Reg) (imm : Nat) (op : AluOp) :
    (aluImm8Instr ra imm op).wellFormed = imm8Ok imm := by
  cases op <;> rfl

/-! ### Fields and forms -/

open Laws in
/-- The fields of a well-formed form decode to it, family by family (R52 to R60). -/
theorem decodeFields_fieldsOf {i : Instr} : i.wellFormed = true → decodeFields (fieldsOf i) = .ok i := by
  induction i using Instr.byFamily with
  | nop | clc | stc | clz | stz | cli | sti | jsrR | ret | retCli | retSti | pushFlag | popFlag => exact fun _ => rfl
  | branch rel c =>
    intro h
    rw [wellFormed_branchInstr] at h
    rw [fieldsOf_branchInstr, decodeFields, relValue_relField h]
  | jumpAbs abs c =>
    intro h
    rw [wellFormed_jumpAbsInstr] at h
    rw [fieldsOf_jumpAbsInstr, decodeFields, absValue_absField h]
  | aluImm8 ra imm op =>
    intro h
    rw [wellFormed_aluImm8Instr] at h
    rw [fieldsOf_aluImm8Instr, decodeFields, imm8Value_imm8Field h]
  | jumpReg rb c => rw [fieldsOf_jumpRegInstr]; exact fun _ => rfl
  | aluReg ra rb op => rw [fieldsOf_aluRegInstr]; exact fun _ => rfl
  | aluImm16 ra imm op => rw [fieldsOf_aluImm16Instr]; exact fun _ => rfl
  | jsrA abs => exact FieldsRoundTrip.jsrA abs
  | push rp => exact FieldsRoundTrip.push rp
  | pop rp => exact FieldsRoundTrip.pop rp
  | ldm ra rp disp => exact FieldsRoundTrip.ldm ra rp disp
  | stm rp disp ra => exact FieldsRoundTrip.stm rp disp ra
  | ldw ra rp disp => exact FieldsRoundTrip.ldw ra rp disp
  | stw rp disp ra => exact FieldsRoundTrip.stw rp disp ra
  | ldb ra rp disp => exact FieldsRoundTrip.ldb ra rp disp
  | stb rp disp ra => exact FieldsRoundTrip.stb rp disp ra

/-- A form has exactly the fields it was decoded from, format by format (R52 to R60). -/
theorem fieldsOf_of_decodeFields {f : Fields} {i : Instr} (h : decodeFields f = .ok i) : fieldsOf i = f := by
  cases f with
  | plain op => cases h; exact fieldsOf_plainInstr op
  | ccRel8 c rel => cases h; rw [fieldsOf_branchInstr, relField_relValue]
  | ccRb c rb => cases h; exact fieldsOf_jumpRegInstr rb c
  | ccAbs15 c abs => cases h; rw [fieldsOf_jumpAbsInstr, absField_absValue]
  | rb rb => cases h; rfl
  | abs15 abs => cases h; rw [fieldsOf, absField_absValue]
  | rp op rp => obtain ⟨-, rfl⟩ := withRp_ok.mp h; exact fieldsOf_stackInstr rp op
  | raRpDisp4 op ra rp disp =>
    obtain ⟨-, rfl⟩ := withRp_ok.mp h
    rw [fieldsOf_shortMemInstr, disp4Field_disp4Value]
  | raRpDisp11 op ra rp disp =>
    obtain ⟨-, rfl⟩ := withRp_ok.mp h
    rw [fieldsOf_longMemInstr, disp11Field_disp11Value]
  | raRb op ra rb => cases h; exact fieldsOf_aluRegInstr ra rb op
  | raImm8 op ra imm => cases h; rw [fieldsOf_aluImm8Instr, imm8Field_imm8Value]
  | raImm16 op ra imm => cases h; exact fieldsOf_aluImm16Instr ra imm op

/-! ### Word counts -/

/-- The word counts of R52, by the format. -/
def Selector.words : Selector → Nat
  | .plain _ | .ccRel8 | .ccRb | .rb | .rp _ | .raRpDisp4 _ | .raRb _ | .raImm8 _ => 1
  | .ccAbs15 | .abs15 | .raRpDisp11 _ | .raImm16 _ => 2

/-- The word count of R61 is that of the format (R52). -/
theorem Instr.words_eq_selector_words (i : Instr) : i.words = (fieldsOf i).selector.words := by
  cases i <;> rfl

theorem Instr.words_pos (i : Instr) : 0 < i.words := by
  rw [i.words_eq_selector_words]
  cases (fieldsOf i).selector <;> simp [Selector.words]

/-! ### Decoding the words of a form -/

section
variable {e : Encoding} (he : e.Readable)
include he

theorem Encoding.Readable.length_encode {i : Instr} (hi : i.wellFormed = true) : (encode e i).length = i.words := by
  obtain ⟨hcounts, -⟩ := he
  exact hcounts i hi

theorem Encoding.Readable.encode_ne_nil {i : Instr} (hi : i.wellFormed = true) : encode e i ≠ [] :=
  List.ne_nil_of_length_pos (he.length_encode hi ▸ i.words_pos)

/-- Two forms with the same first word have the same number of words (R63). -/
theorem Encoding.Readable.words_eq_of_append_eq {i j : Instr} {rest rest' : List Word} (hi : i.wellFormed = true)
    (hj : j.wellFormed = true) (h : encode e i ++ rest = encode e j ++ rest') : i.words = j.words := by
  have ⟨_, _, hfirst, _⟩ := he
  apply hfirst i j hi hj
  rw [← List.head?_append_of_ne_nil _ (he.encode_ne_nil hi), h, List.head?_append_of_ne_nil _ (he.encode_ne_nil hj)]

/-- No form's words begin those of another: the first word gives the word count, and the words the form (R67). -/
theorem Encoding.Readable.encode_append_inj {i j : Instr} {rest rest' : List Word} (hi : i.wellFormed = true)
    (hj : j.wellFormed = true) (h : encode e i ++ rest = encode e j ++ rest') : i = j ∧ rest = rest' := by
  have hlength : (encode e i).length = (encode e j).length := by
    rw [he.length_encode hi, he.length_encode hj, he.words_eq_of_append_eq hi hj h]
  obtain ⟨hwords, hrest⟩ := List.append_inj h hlength
  obtain ⟨-, htells, -⟩ := he
  exact ⟨htells i j hi hj hwords, hrest⟩

/-- The words of a form are read as its fields, whatever follows (R62). -/
theorem Encoding.Readable.read_encode {i : Instr} (hi : i.wellFormed = true) (rest : List Word) :
    e.read (encode e i ++ rest) = some (fieldsOf i) := by
  have ⟨_, _, _, hreads, hrefuses⟩ := he
  obtain ⟨f, hf⟩ := Option.isSome_iff_exists.mp (hreads i rest hi)
  obtain ⟨j, rest', hj, rfl, hwords⟩ := hrefuses _ f hf
  obtain ⟨rfl, -⟩ := he.encode_append_inj hi hj hwords
  exact hf

/-- The decoder inverts the encoder, whatever words follow (R67). -/
theorem Encoding.Readable.decodeWords_encode {i : Instr} (hi : i.wellFormed = true) (rest : List Word) :
    decodeWords e (encode e i ++ rest) = .ok (i, rest) := by
  have hlength := he.length_encode hi
  refine Machine.decodeWords_ok.mpr ⟨?nonempty, ?long, ?after, fieldsOf i, he.read_encode hi rest,
    decodeFields_fieldsOf hi⟩
  case nonempty => exact List.append_ne_nil_of_left_ne_nil (he.encode_ne_nil hi) rest
  case long => simp [hlength]
  case after => rw [← hlength, List.drop_left]

/-- The decoder answers a form only on that form's words (R62). -/
theorem Encoding.Readable.eq_encode_of_decodeWords {i : Instr} {ws rest : List Word}
    (h : decodeWords e ws = .ok (i, rest)) : i.wellFormed = true ∧ ws = encode e i ++ rest := by
  obtain ⟨-, -, -, f, hread, hfields⟩ := Machine.decodeWords_ok.mp h
  have ⟨_, _, _, _, hrefuses⟩ := he
  obtain ⟨j, rest', hj, rfl, rfl⟩ := hrefuses ws f hread
  obtain ⟨rfl, rfl⟩ : j = i ∧ rest' = rest := by simpa [he.decodeWords_encode hj rest'] using h
  exact ⟨hj, rfl⟩

end

/-! ### Words and bytes (R32) -/

open Machine in
theorem bytesOfWords_cons (o : ByteOrder) (w : Word) (ws : List Word) :
    bytesOfWords o (w :: ws) = lowerByte o w :: upperByte o w :: bytesOfWords o ws := by
  cases o <;> rfl

open Machine in
theorem wordsOfBytes_cons (o : ByteOrder) (x y : Byte) (bs : List Byte) :
    wordsOfBytes o (x :: y :: bs) = joinBytes o x y :: wordsOfBytes o bs := by
  cases o <;> rfl

theorem length_bytesOfWords (o : ByteOrder) (ws : List Word) : (bytesOfWords o ws).length = 2 * ws.length := by
  induction ws with
  | nil => rfl
  | cons w ws ih => simp only [bytesOfWords_cons, List.length_cons, ih]; omega

theorem wordsOfBytes_bytesOfWords_append (o : ByteOrder) (ws : List Word) (rest : List Byte) :
    wordsOfBytes o (bytesOfWords o ws ++ rest) = ws ++ wordsOfBytes o rest := by
  induction ws with
  | nil => rfl
  | cons w ws ih =>
    rw [bytesOfWords_cons, List.cons_append, List.cons_append, wordsOfBytes_cons, Machine.joinBytes_split, ih,
      List.cons_append]

/-- The byte decoder inverts the encoder in either byte order, whatever bytes follow (R32, R67). -/
theorem Encoding.Readable.decode_encode {e : Encoding} (he : e.Readable) (o : ByteOrder) {i : Instr}
    (hi : i.wellFormed = true) (rest : List Byte) :
    decode o e (bytesOfWords o (encode e i) ++ rest) = .ok (i, rest) := by
  have hlength : (bytesOfWords o (encode e i)).length = 2 * i.words := by
    rw [length_bytesOfWords, he.length_encode hi]
  rw [decode, wordsOfBytes_bytesOfWords_append, he.decodeWords_encode hi]
  simp only [← hlength, List.drop_left]

/-! ### One operand exchanged -/

/-- The fields `f` with the `k`-th operand, in the order of R52, taken from `g`, fields of the same selector. -/
def Fields.withOperand (k : Nat) : Fields → Fields → Fields
  | .ccRel8 c x, .ccRel8 c' x' => .ccRel8 (if k = 0 then c' else c) (if k = 1 then x' else x)
  | .ccRb c r, .ccRb c' r' => .ccRb (if k = 0 then c' else c) (if k = 1 then r' else r)
  | .ccAbs15 c x, .ccAbs15 c' x' => .ccAbs15 (if k = 0 then c' else c) (if k = 1 then x' else x)
  | .rb r, .rb r' => .rb (if k = 0 then r' else r)
  | .abs15 x, .abs15 x' => .abs15 (if k = 0 then x' else x)
  | .rp op r, .rp _ r' => .rp op (if k = 0 then r' else r)
  | .raRpDisp4 op r q x, .raRpDisp4 _ r' q' x' =>
    .raRpDisp4 op (if k = 0 then r' else r) (if k = 1 then q' else q) (if k = 2 then x' else x)
  | .raRpDisp11 op r q x, .raRpDisp11 _ r' q' x' =>
    .raRpDisp11 op (if k = 0 then r' else r) (if k = 1 then q' else q) (if k = 2 then x' else x)
  | .raRb op r q, .raRb _ r' q' => .raRb op (if k = 0 then r' else r) (if k = 1 then q' else q)
  | .raImm8 op r x, .raImm8 _ r' x' => .raImm8 op (if k = 0 then r' else r) (if k = 1 then x' else x)
  | .raImm16 op r x, .raImm16 _ r' x' => .raImm16 op (if k = 0 then r' else r) (if k = 1 then x' else x)
  | f, _ => f

theorem Fields.selector_withOperand (k : Nat) (f g : Fields) : (f.withOperand k g).selector = f.selector := by
  unfold Fields.withOperand
  split <;> rfl

theorem Fields.operands_withOperand_same (k : Nat) {f g : Fields} (hs : f.selector = g.selector) :
    (f.withOperand k g).operands[k]? = g.operands[k]? := by
  cases f <;> cases g <;> cases hs
  all_goals rcases k with _ | _ | _ | k <;> rfl

theorem Fields.operands_withOperand_other {k m : Nat} (hkm : k ≠ m) {f g : Fields} (hs : f.selector = g.selector) :
    (f.withOperand k g).operands[m]? = f.operands[m]? := by
  cases f <;> cases g <;> cases hs
  all_goals rcases m with _ | _ | _ | m <;> simp [withOperand, operands, hkm]

/-- Operands in range stay in range when one is exchanged: only {RP} can be refused, and it is that of one of the two
forms (R53, R62). -/
theorem Fields.decodeFields_withOperand (k : Nat) {f g : Fields} {i j : Instr} (hs : f.selector = g.selector)
    (hf : decodeFields f = .ok i) (hg : decodeFields g = .ok j) : ∃ u, decodeFields (f.withOperand k g) = .ok u := by
  cases f with
  | rp | raRpDisp4 | raRpDisp11 =>
    cases g <;> cases hs
    obtain ⟨hrp, -⟩ := withRp_ok.mp hf
    obtain ⟨hrp', -⟩ := withRp_ok.mp hg
    exact ⟨_, withRp_of_ok _ (by split <;> assumption)⟩
  | _ => cases g <;> cases hs; exact ⟨_, rfl⟩

/-- Of two well-formed forms of one selector the first can take the `k`-th operand of the second. -/
theorem Instr.exists_fieldsOf_eq_withOperand (k : Nat) {i j : Instr} (hi : i.wellFormed = true)
    (hj : j.wellFormed = true) (hs : (fieldsOf i).selector = (fieldsOf j).selector) :
    ∃ u : Instr, u.wellFormed = true ∧ fieldsOf u = (fieldsOf i).withOperand k (fieldsOf j) := by
  obtain ⟨u, hu⟩ := Fields.decodeFields_withOperand k hs (decodeFields_fieldsOf hi) (decodeFields_fieldsOf hj)
  exact ⟨u, Machine.decodeFields_wf hu, fieldsOf_of_decodeFields hu⟩

/-! ### The bits of a field -/

/-- A member of two lists whose join has no duplicate is in one list only. -/
theorem index_eq_of_nodup_flatten {α : Type} {L : List (List α)} (h : L.flatten.Nodup) {k l : Nat} {as bs : List α}
    (hk : L[k]? = some as) (hl : L[l]? = some bs) {n : α} (hn : n ∈ as) (hn' : n ∈ bs) : k = l := by
  obtain ⟨hk', rfl⟩ := List.getElem?_eq_some_iff.mp hk
  obtain ⟨hl', rfl⟩ := List.getElem?_eq_some_iff.mp hl
  have hdisj := List.pairwise_iff_getElem.mp (List.nodup_flatten.mp h).2
  rcases Nat.lt_trichotomy k l with hlt | heq | hgt
  · exact (hdisj k l hk' hl' hlt hn hn').elim
  · exact heq
  · exact (hdisj l k hl' hk' hgt hn' hn).elim

/-- Words are told by their bits. -/
theorem eq_of_wordBit_eq {ws vs : List Word} (hlength : ws.length = vs.length)
    (h : ∀ n, wordBit ws n = wordBit vs n) : ws = vs := by
  refine List.ext_getElem hlength fun q hq hq' => BitVec.eq_of_getLsbD_eq fun b hb => ?_
  have hbit := h (16 * q + b)
  rw [wordBit, wordBit, show (16 * q + b) / 16 = q by omega, show (16 * q + b) % 16 = b by omega] at hbit
  simpa [hq, hq'] using hbit

section
variable {e : Encoding} {place : Selector → List (List Nat)} (hp : e.PlacesFields place)
include hp

/-- Two forms of one selector with the same operand have the same bits in its field: a bit in which their words differ
is in the field of another operand, and no bit is in two fields (R67 (4)). -/
theorem Encoding.PlacesFields.wordBit_eq_of_operand_eq {i j : Instr} (hi : i.wellFormed = true)
    (hj : j.wellFormed = true) (hs : (fieldsOf i).selector = (fieldsOf j).selector) {k : Nat} {bits : List Nat}
    (hk : (place (fieldsOf i).selector)[k]? = some bits) (hop : (fieldsOf i).operands[k]? = (fieldsOf j).operands[k]?)
    {n : Nat} (hn : n ∈ bits) : wordBit (encode e i) n = wordBit (encode e j) n := by
  obtain ⟨hplaced, hother⟩ := hp
  obtain ⟨-, hnodup, -⟩ := hplaced i hi
  by_contra hne
  obtain ⟨l, bits', hl, hn', hop'⟩ := hother i j hi hj hs n hne
  obtain rfl := index_eq_of_nodup_flatten hnodup hk hl hn hn'
  exact hop' hop

/-- Two forms that differ at most in one operand, and not in the bits of its field, have the same bits: no other bit
depends on that operand (R67 (4)). -/
theorem Encoding.PlacesFields.wordBit_eq_of_other_operands_eq {i j : Instr} (hi : i.wellFormed = true)
    (hj : j.wellFormed = true) (hs : (fieldsOf i).selector = (fieldsOf j).selector) {k : Nat} {bits : List Nat}
    (hk : (place (fieldsOf i).selector)[k]? = some bits)
    (hops : ∀ m, k ≠ m → (fieldsOf i).operands[m]? = (fieldsOf j).operands[m]?)
    (hbits : ∀ n ∈ bits, wordBit (encode e i) n = wordBit (encode e j) n) (n : Nat) :
    wordBit (encode e i) n = wordBit (encode e j) n := by
  obtain ⟨-, hother⟩ := hp
  by_contra hne
  obtain ⟨l, bits', hl, hn, hop⟩ := hother i j hi hj hs n hne
  obtain rfl : k = l := by_contra fun hkl => hop (hops l hkl)
  obtain rfl : bits = bits' := Option.some.inj (hk.symm.trans hl)
  exact hne (hbits n hn)

/-- Two forms of one selector with the same bits in a field have the same operand there: the first one with the other's
operand has the first one's words, and so is the first one (R67 (2) and (4)). -/
theorem Encoding.PlacesFields.operand_eq_of_wordBit_eq (he : e.Readable) {i j : Instr} (hi : i.wellFormed = true)
    (hj : j.wellFormed = true) (hs : (fieldsOf i).selector = (fieldsOf j).selector) {k : Nat} {bits : List Nat}
    (hk : (place (fieldsOf i).selector)[k]? = some bits)
    (hbits : ∀ n ∈ bits, wordBit (encode e i) n = wordBit (encode e j) n) :
    (fieldsOf i).operands[k]? = (fieldsOf j).operands[k]? := by
  obtain ⟨u, hu, hfields⟩ := Instr.exists_fieldsOf_eq_withOperand k hi hj hs
  have hsu : (fieldsOf i).selector = (fieldsOf u).selector := by rw [hfields, Fields.selector_withOperand]
  have hopk : (fieldsOf u).operands[k]? = (fieldsOf j).operands[k]? := by
    rw [hfields, Fields.operands_withOperand_same k hs]
  have hops : ∀ m, k ≠ m → (fieldsOf i).operands[m]? = (fieldsOf u).operands[m]? := fun m hm => by
    rw [hfields, Fields.operands_withOperand_other hm hs]
  have hsame : ∀ n, wordBit (encode e i) n = wordBit (encode e u) n :=
    hp.wordBit_eq_of_other_operands_eq hi hu hsu hk hops fun n hn =>
      (hbits n hn).trans (hp.wordBit_eq_of_operand_eq hu hj (hsu ▸ hs) (hsu ▸ hk) hopk hn).symm
  have hlength : (encode e i).length = (encode e u).length := by
    rw [he.length_encode hi, he.length_encode hu, i.words_eq_selector_words, u.words_eq_selector_words, hsu]
  have hwords : encode e i = encode e u := eq_of_wordBit_eq hlength hsame
  obtain ⟨-, htells, -⟩ := he
  obtain rfl : i = u := htells i u hi hu hwords
  exact hopk

end

end Sys2Proof

open Sys2Proof

/-! ### The obligations -/

/-- Settles O3: the words are read as the form's fields, and these decode to it. -/
theorem decodeInvertsEncodeUnderEveryLawfulEncoding : Obligations.DecodeInvertsEncodeUnderEveryLawfulEncoding :=
  fun _ he _ rest hi => he.decodeWords_encode hi rest

/-- Settles O4: the bytes are joined to the form's words in either byte order. -/
theorem byteDecodeInvertsEncodeInBothByteOrders : Obligations.ByteDecodeInvertsEncodeInBothByteOrders :=
  fun o _ he _ rest hi => he.decode_encode o hi rest

/-- Settles O1, family by family. -/
theorem fieldsDecodeBackToTheirInstruction : Obligations.FieldsDecodeBackToTheirInstruction :=
  fun _ hi => decodeFields_fieldsOf hi

/-- Settles O2, format by format. -/
theorem decodedFieldsAreExactlyTheInstructions : Obligations.DecodedFieldsAreExactlyTheInstructions :=
  fun _ _ h => ⟨Machine.decodeFields_wf h, fieldsOf_of_decodeFields h⟩

/-- Settles O5: what is read are the fields of a form the words begin with, and that form is what was decoded. -/
theorem decodeRefusesWhatIsNoEncoding : Obligations.DecodeRefusesWhatIsNoEncoding :=
  fun _ he _ _ _ h => he.eq_encode_of_decodeWords h

/-- Settles O59: one way by the disjoint fields, the other by exchanging the operand. -/
theorem operandFieldsAreReadFromTheirOwnBits : Obligations.OperandFieldsAreReadFromTheirOwnBits := by
  rintro e place ⟨he, -⟩ hp i j hi hj hs k bits hk
  exact ⟨fun hop n hn => hp.wordBit_eq_of_operand_eq hi hj hs hk hop hn, hp.operand_eq_of_wordBit_eq he hi hj hs hk⟩

/-- Settles O6: the fourteen samples are evaluated. -/
theorem fieldSamplesDecodeToTheirForms : Obligations.FieldSamplesDecodeToTheirForms := by
  unfold Obligations.FieldSamplesDecodeToTheirForms
  decide

end

section
/-! PROOFS. The system control instructions (R70 to R76): each ends with PC one word further and writes at most one
flag; IF decides alone whether a request is accepted (R194). -/

namespace Sys2Proof.Machine

/-- An instruction whose last effect is `pc <- npc` by one word adds 1 to PC (R14). -/
theorem exec_of_runs_advance_one {i : Instr} {s u : State} (h : Runs s i (u.advance 1)) :
    exec i s = .next { u with pc := u.pc + 1 } :=
  (exec_next_iff.mpr h).trans (congrArg _ (u.advance_eq 1))

theorem State.accepted_of_iflag_false {s : State} (h : s.iflag = false) (b : Boundary) : s.accepted b = none :=
  if_neg (by simp [h])

theorem State.accepted_of_iflag_true {s : State} (h : s.iflag = true) (b : Boundary) : s.accepted b = b.irq :=
  if_pos h

end Sys2Proof.Machine

open Sys2Proof Sys2Proof.Machine

/-! ### The obligations -/

/-- Settles O16: each writes its flag, if it has one, and advances by one word. -/
theorem systemControlWritesAtMostOneFlag : Obligations.SystemControlWritesAtMostOneFlag :=
  fun _ => ⟨exec_of_runs_advance_one .nop, exec_of_runs_advance_one .clc, exec_of_runs_advance_one .stc,
    exec_of_runs_advance_one .clz, exec_of_runs_advance_one .stz⟩

/-- Settles O17: IF is written before PC advances, and the next state's own IF decides on the request. -/
theorem cliAndStiMaskAndUnmaskAtTheNextBoundary : Obligations.CliAndStiMaskAndUnmaskAtTheNextBoundary :=
  fun _ => ⟨⟨_, exec_of_runs_advance_one .cli, rfl, State.accepted_of_iflag_false rfl⟩,
    ⟨_, exec_of_runs_advance_one .sti, rfl, State.accepted_of_iflag_true rfl⟩⟩

end

section
/-! PROOFS. Branches and jumps change PC alone, by their condition (R80 to R83); calls and returns change PC, R15 and
what they name, and a return undoes a call (R84 to R88). -/

namespace Sys2Proof.Machine

/-! ### The default condition table -/

/-- Setting the bits below `m` that pass a test, and no other, sets exactly those. -/
theorem getLsbD_foldl_twoPow (p : Nat → Bool) (m : Nat) {k : Nat} (hk : k < 16) :
    ((List.range m).foldl (fun acc n => if p n then acc ||| BitVec.twoPow 16 n else acc) 0#16).getLsbD k =
      (decide (k < m) && p k) := by
  induction m with
  | zero => simp
  | succ m ih =>
    rw [List.range_succ, List.foldl_append, List.foldl_cons, List.foldl_nil]
    rcases Nat.lt_trichotomy k m with hlt | rfl | hgt
    · have hne : m ≠ k := by omega
      split <;> simp [ih, hlt, hne, Nat.lt_succ_of_lt hlt]
    · split <;> simp_all
    · have hne : m ≠ k := by omega
      split <;> simp [ih, hne, Nat.not_lt_of_gt hgt, Nat.not_lt_of_ge hgt]

/-- The table of a flag test gives the test back at the flags it is looked up with (R80). -/
theorem getLsbD_tabulate (f : Bool → Bool → Bool → Bool → Bool) (cf zf vf nf : Bool) :
    (tabulate f).getLsbD (flagNibble cf zf vf nf) = f cf zf vf nf := by
  have hbits : ∀ cf zf vf nf, flagNibble cf zf vf nf < 16 ∧ (flagNibble cf zf vf nf).testBit 0 = cf ∧
      (flagNibble cf zf vf nf).testBit 1 = zf ∧ (flagNibble cf zf vf nf).testBit 2 = vf ∧
      (flagNibble cf zf vf nf).testBit 3 = nf := by decide
  obtain ⟨hlt, h0, h1, h2, h3⟩ := hbits cf zf vf nf
  refine (getLsbD_foldl_twoPow (fun n => f (n.testBit 0) (n.testBit 1) (n.testBit 2) (n.testBit 3)) 16 hlt).trans ?_
  simp only [hlt, h0, h1, h2, h3, decide_true, Bool.true_and]

/-- The default table holds the flag tests of R80. -/
theorem condHolds_defaultCondTable (c : Cond) (cf zf vf nf : Bool) :
    condHolds defaultCondTable c cf zf vf nf = defaultCond c cf zf vf nf := by
  cases c <;> exact getLsbD_tabulate _ cf zf vf nf

/-! ### Branches and jumps -/

/-- The fifteen condition codes in the order of R80. -/
def condCodes : List Cond := [.cs, .cc, .eq, .ne, .vs, .vc, .mi, .pl, .ls, .hi, .lt, .ge, .le, .gt, .al]

/-- Instructions that are one conditional jump to `target`, one for each code, write PC and nothing else: `dest`, which
is `target` without its bit 0, where the condition holds, and the next address where it does not (R14, R81 to R83). -/
theorem exec_conditional_jumps {instr : Cond → Instr} {s : State} {target dest : Word} {w : Nat}
    (h : ∀ c, exec (instr c) s = .next (s.jumpIf c target w)) (hdest : target &&& 0xFFFE#16 = dest) :
    ∀ q ∈ condCodes.map fun c => (instr c, c), ∃ t, exec q.1 s = .next t ∧ t = { s with pc := t.pc } ∧
      t.pcAddr = if condHolds s.cfg.cond q.2 s.cf s.zf s.vf s.nf = true then dest
        else s.pcAddr + BitVec.ofNat 16 (2 * w) := by
  intro q hq
  obtain ⟨c, -, rfl⟩ := List.mem_map.mp hq
  subst hdest
  exact ⟨_, h c, rfl, s.pcAddr_jumpIf c target w⟩

/-- A branch target is even: the base and the displacement are (R56, R81). -/
theorem State.branchTarget_even (s : State) {rel : Int} (h : relOk rel = true) :
    (s.branchTarget rel).toNat % 2 = 0 := by
  have hbase : s.branchBase.toNat % 2 = 0 := by
    unfold State.branchBase
    cases s.cfg.relBase with
    | next => exact s.npc_even 1
    | self => simp [State.pcAddr_toNat]
  have hrel : (BitVec.ofInt 16 rel).toNat % 2 = 0 := by
    simp only [relOk, decide_eq_true_eq] at h
    rw [BitVec.toNat_ofInt]
    omega
  rw [State.branchTarget, BitVec.toNat_add]
  omega

/-! ### Calls and returns -/

/-- The return word a call pushes is the address of the next instruction with IF in bit 0 (R18, R84). -/
theorem State.returnWord_npc (s : State) (w : Nat) :
    returnWord (s.npc w) s.iflag = s.pcAddr + BitVec.ofNat 16 (2 * w) + (if s.iflag = true then 1 else 0) :=
  returnWord_even (s.npc_even w) s.iflag

/-- The meaning of JSR {RB} (R84). -/
theorem exec_jsrR (rb : Reg) (s : State) :
    exec (.jsrR rb) s = if rb = spReg then .refused .jsrThroughSp else finish (s.call (s.reg rb) 1) id := rfl

/-- A JSR that completes is a call, one word long with a register and two with an address (R84, R85). -/
theorem call_of_exec_jsr {i : Instr} {s t : State} {n : Nat} (h : exec i s = .next t)
    (hi : (∃ rb, i = .jsrR rb) ∧ n = 1 ∨ (∃ abs, i = .jsrA abs) ∧ n = 2) :
    ∃ target, s.call target n = .ok t := by
  rcases hi with ⟨⟨rb, rfl⟩, rfl⟩ | ⟨⟨abs, rfl⟩, rfl⟩
  · rw [exec_jsrR] at h
    split at h
    · cases h
    · obtain ⟨u, hu, rfl⟩ := finish_next.mp h
      exact ⟨_, hu⟩
  · obtain ⟨u, hu, rfl⟩ := finish_next.mp h
    exact ⟨_, hu⟩

/-- A call whose pushed bytes are accessible is done: R15, PC and the pushed word change, nothing else (R84, R85). -/
theorem State.call_accessible {s : State} {p : Word × Word} (h : Accessible16 s (s.sp - 2) p) (target : Word)
    (w : Nat) :
    ∃ t, s.call target w = .ok t ∧ t.sp = s.sp - 2 ∧ KeepsRegsBut [spReg] s t ∧ t.pcAddr = target &&& 0xFFFE#16 ∧
      StoresWord p (s.pcAddr + BitVec.ofNat 16 (2 * w) + (if s.iflag = true then 1 else 0)) s t ∧
      KeepsFlags s t ∧ KeepsEnv s t := by
  have hcall : s.call target w = .ok _ := State.call_ok.mpr ⟨_, State.pushWord_accessible h, rfl⟩
  obtain ⟨hregs, hflags⟩ := call_frame hcall
  refine ⟨_, hcall, s.sp_setReg_sp _, hregs,
    State.pcAddr_jump _ _, ?_, hflags, (call_storesWithin hcall).env⟩
  rw [← s.returnWord_npc w]
  exact State.mem_read_pokeWord _ p _

/-- The state a return ends in that found the word `v` at R15 and leaves `b` in IF (R86 to R88). -/
def State.returned (s : State) (v : Word) (b : Bool) : State := ((s.jump v).setReg spReg (s.sp + 2)).setIF b

/-- Each of the three returns ends in the state with the IF it names: its own, 0 or 1 (R86 to R88). -/
theorem exec_returns {s : State} {v : Word} (h : s.read16 s.sp = .ok v) :
    ∀ q ∈ ([(.ret, s.iflag), (.retCli, false), (.retSti, true)] : List (Instr × Bool)),
      exec q.1 s = .next (s.returned v q.2) := by
  have hpop : s.popReturn = .ok ((s.jump v).setReg spReg (s.sp + 2)) := State.popReturn_ok.mpr ⟨v, h, rfl⟩
  intro q hq
  simp only [List.mem_cons, List.not_mem_nil, or_false] at hq
  rcases hq with rfl | rfl | rfl
  · exact exec_next_iff.mpr (.ret hpop)
  · exact exec_next_iff.mpr (.retCli hpop)
  · exact exec_next_iff.mpr (.retSti hpop)

/-- After a push R15 is 2 less, and the word pushed stands there (R100, R104). -/
theorem State.top_of_pushWord {s t : State} {v : Word} (h : s.pushWord v = .ok t) :
    t.sp = s.sp - 2 ∧ t.read16 t.sp = .ok v := by
  have hsp : t.sp = s.sp - 2 := by
    obtain ⟨p, -, -, -, rfl⟩ := State.pushWord_ok.mp h
    exact s.sp_setReg_sp _
  exact ⟨hsp, hsp ▸ State.read16_of_write16 h⟩

/-- A return right after a call finds the word the call pushed and undoes the call (R84 to R86, R104). -/
theorem State.popReturn_of_call {s t : State} {target : Word} {w : Nat} (h : s.call target w = .ok t) :
    ∃ u, t.popReturn = .ok u ∧ u.pc = s.pc + BitVec.ofNat 15 w ∧ (∀ r, u.reg r = s.reg r) ∧ KeepsFlags s u ∧
      KeepsMem t u := by
  obtain ⟨hregs, hflags⟩ := call_frame h
  obtain ⟨t, hpush, rfl⟩ := State.call_ok.mp h
  obtain ⟨hsp, hread⟩ := State.top_of_pushWord hpush
  refine ⟨_, State.popReturn_ok.mpr ⟨_, hread, rfl⟩, ?pc, fun r => ?reg, hflags, fun _ => rfl⟩
  case pc => rw [State.pc_setReg, State.pc_jump, toPc_returnWord, State.pc_advance_eq]
  case reg =>
    by_cases hr : r = spReg
    · subst hr
      calc _ = t.sp + 2 := State.reg_setReg_same ..
        _ = s.sp - 2 + 2 := by rw [hsp]
        _ = s.sp := BitVec.sub_add_cancel s.sp 2
    · exact (State.reg_setReg_ne _ _ hr).trans (hregs r (by simpa using hr))

end Sys2Proof.Machine

open Sys2Proof Sys2Proof.Machine

/-! ### The obligations -/

/-- Settles O25: both forms are the call of `State.popReturn_of_call`. -/
theorem returnAfterCallRestoresPcAndSp : Obligations.ReturnAfterCallRestoresPcAndSp := by
  intro s t i n hi h
  obtain ⟨target, hcall⟩ := call_of_exec_jsr h hi
  obtain ⟨u, hu, hend⟩ := State.popReturn_of_call hcall
  exact ⟨u, exec_next_iff.mpr (.ret hu), hend⟩

/-- Settles O18: each is the conditional jump to the branch target, which is even. -/
theorem branchesGoToBasePlusRel8WhenTheConditionHolds :
    Obligations.BranchesGoToBasePlusRel8WhenTheConditionHolds :=
  fun s rel hrel => exec_conditional_jumps (exec_branchInstr rel · s) (and_fffe_of_even (s.branchTarget_even hrel))

/-- Settles O19: each is the conditional jump to the register's value. -/
theorem registerJumpsGoToTheRegisterWhenTheConditionHolds :
    Obligations.RegisterJumpsGoToTheRegisterWhenTheConditionHolds :=
  fun s rb => exec_conditional_jumps (exec_jumpRegInstr rb · s) rfl

/-- Settles O20: each is the conditional jump to the address, which is even. -/
theorem addressJumpsGoToTheAddressWhenTheConditionHolds :
    Obligations.AddressJumpsGoToTheAddressWhenTheConditionHolds :=
  fun s abs habs =>
    exec_conditional_jumps (exec_jumpAbsInstr abs · s) (and_fffe_of_even (of_decide_eq_true habs))

/-- Settles O22: both forms are the call of `State.call_accessible`, 1 and 2 words long. -/
theorem callsPushTheReturnWordAndJump : Obligations.CallsPushTheReturnWordAndJump := by
  intro s rb abs p hrb habs hp q hq
  simp only [List.mem_cons, List.not_mem_nil, or_false] at hq
  rcases hq with rfl | rfl
  · obtain ⟨t, ht, hdone⟩ := State.call_accessible hp (s.reg rb) 1
    exact ⟨t, exec_next_iff.mpr (.jsrR hrb ht), hdone⟩
  · obtain ⟨t, ht, hdone⟩ := State.call_accessible hp abs 2
    rw [and_fffe_of_even (of_decide_eq_true habs)] at hdone
    exact ⟨t, exec_next_iff.mpr (.jsrA ht), hdone⟩

/-- Settles O24: the three returns end in one state but for IF. -/
theorem returnsPopTheReturnAddress : Obligations.ReturnsPopTheReturnAddress := by
  intro s v hv q hq
  refine ⟨_, exec_returns (holds16_iff.mp hv) q hq, State.pcAddr_jump s v, ?_,
    keepsRegsBut_setReg s spReg _, rfl, ⟨rfl, rfl, rfl, rfl, rfl⟩, fun _ => rfl, ⟨rfl, rfl, rfl, rfl⟩⟩
  exact (s.jump v).sp_setReg_sp _

/-- Settles O21: the default table looked up, code by code. -/
theorem defaultConditionTableTestsTheFlagsR80Lists : Obligations.DefaultConditionTableTestsTheFlagsR80Lists := by
  intro cf zf vf nf
  simp [condHolds_defaultCondTable, defaultCond]

/-- Settles O23: the operand is tested before anything is done (R84 (6)). -/
theorem jsrThroughR15IsRefused : Obligations.JsrThroughR15IsRefused :=
  fun s => (exec_jsrR spReg s).trans (if_pos rfl)

end

section
/-! PROOFS. The stack instructions (R100 to R104): what a completed push or pop does to R15, the register or the flags,
and the word of memory; a pop right after a push undoes it. -/

namespace Sys2Proof.Machine

/-! ### Pushes -/

/-- An instruction that pushes `v` and ends, its two bytes being accessible, is done: R15, the word and PC change,
nothing else (R100, R102). -/
theorem exec_pushing_done {i : Instr} {s : State} {v : Word} {p : Word × Word}
    (hi : exec i s = finish (s.pushWord v) fun t => t.advance 1) (h : Accessible16 s (s.sp - 2) p) :
    ∃ t, exec i s = .next t ∧ t.sp = s.sp - 2 ∧ KeepsRegsBut [spReg] s t ∧ StoresWord p v s t ∧ KeepsFlags s t ∧
      KeepsEnv s t ∧ t.pc = s.pc + 1 := by
  have hpush : s.pushWord v = .ok _ := State.pushWord_accessible h
  obtain ⟨hregs, hflags⟩ := pushWord_frame hpush
  obtain ⟨hsp, -⟩ := State.top_of_pushWord hpush
  exact ⟨_, hi.trans (finish_next.mpr ⟨_, hpush, rfl⟩), hsp, hregs, State.mem_read_pokeWord _ p v, hflags,
    ((pushWord_storesWithin hpush).advance 1).env, State.pc_advance_eq s 1⟩

/-! ### Pops right after a push -/

/-- Where a push left R15 and every other register is as before it, adding 2 to R15 gives all registers back (R104). -/
theorem State.reg_setReg_sp_add_two {s t : State} {sp : Word} (hsp : sp = s.sp - 2)
    (h : ∀ r, r ≠ spReg → t.reg r = s.reg r) (r : Reg) : (t.setReg spReg (sp + 2)).reg r = s.reg r := by
  by_cases hr : r = spReg
  · subst hr
    calc (t.setReg spReg (sp + 2)).reg spReg = sp + 2 := State.reg_setReg_same ..
      _ = s.sp - 2 + 2 := by rw [hsp]
      _ = s.sp := BitVec.sub_add_cancel s.sp 2
  · exact (State.reg_setReg_ne _ _ hr).trans (h r hr)

/-- The FLAG word holds NF, VF, ZF and CF in bits 3 to 0 (R17). -/
theorem State.getLsbD_flagWord (s : State) :
    s.flagWord.getLsbD 3 = s.nf ∧ s.flagWord.getLsbD 2 = s.vf ∧ s.flagWord.getLsbD 1 = s.zf ∧
      s.flagWord.getLsbD 0 = s.cf := by
  simp only [State.flagWord, BitVec.getLsbD_append]
  simp

/-- Loading the FLAG word of a state gives its flags back, where IF was kept (R102, R103). -/
theorem keepsFlags_loadFlags_flagWord {s t : State} (h : KeepsFlags s t) : KeepsFlags s (t.loadFlags s.flagWord) := by
  obtain ⟨⟨-, -, -, -, hdraws⟩, hif⟩ := h
  obtain ⟨hnf, hvf, hzf, hcf⟩ := s.getLsbD_flagWord
  exact ⟨⟨hcf, hzf, hvf, hnf, hdraws⟩, hif⟩

end Sys2Proof.Machine

open Sys2Proof Sys2Proof.Machine

/-! ### The obligations -/

/-- Settles O26: PUSH is the push of the register's value. -/
theorem pushStoresTheRegisterBelowTheStackPointer : Obligations.PushStoresTheRegisterBelowTheStackPointer :=
  fun _ _ _ _ hp => exec_pushing_done rfl hp

/-- Settles O29: PUSH FLAG is the push of the FLAG word, whose bits add up to the number R102 names. -/
theorem pushFlagStoresTheFlagWord : Obligations.PushFlagStoresTheFlagWord := by
  intro s p hp
  rw [← s.flagWord_eq]
  exact exec_pushing_done rfl hp

/-- Settles O27: the word is written to the register first and R15 after it, so neither hides the other. -/
theorem popLoadsTheRegisterFromTheStack : Obligations.PopLoadsTheRegisterFromTheStack := by
  intro s rp v hrp hv
  have hpop : exec (.pop rp) s = .next _ := exec_next_iff.mpr (.pop (holds16_iff.mp hv))
  exact ⟨_, hpop, (State.reg_setReg_ne _ _ hrp).trans (s.reg_setReg_same rp v), (s.setReg rp v).sp_setReg_sp _,
    instructionsWriteOnlyTheirRegisters _ _ _ hpop, ⟨⟨rfl, rfl, rfl, rfl, rfl⟩, rfl⟩, fun _ => rfl,
    (exec_storesWithin hpop).env, State.pc_advance_eq s 1⟩

/-- Settles O30: the four flags are loaded from the word, R15 is written after them. -/
theorem popFlagLoadsFourFlagsAndLeavesIf : Obligations.PopFlagLoadsFourFlagsAndLeavesIf := by
  intro s v hv
  have hpop : exec .popFlag s = .next _ := exec_next_iff.mpr (.popFlag (holds16_iff.mp hv))
  exact ⟨_, hpop, rfl, rfl, rfl, rfl, rfl, (s.loadFlags v).sp_setReg_sp _,
    instructionsWriteOnlyTheirRegisters _ _ _ hpop, fun _ => rfl, (exec_storesWithin hpop).env, rfl,
    State.pc_advance_eq s 1⟩

/-- Settles O28: the pop reads back the word pushed, which is the register's old value. -/
theorem popAfterPushRestoresRegisterAndSp : Obligations.PopAfterPushRestoresRegisterAndSp := by
  intro s t rp _ h
  obtain ⟨t, hpush, rfl⟩ := finish_next.mp h
  obtain ⟨hregs, hflags⟩ := pushWord_frame hpush
  obtain ⟨hsp, hread⟩ := State.top_of_pushWord hpush
  refine ⟨_, exec_next_iff.mpr (.pop (s := t.advance 1) hread), ?reg, hflags, fun _ => rfl⟩
  case reg =>
    refine State.reg_setReg_sp_add_two hsp fun r hr => ?_
    by_cases hrp : r = rp
    · subst hrp; exact State.reg_setReg_same ..
    · exact (State.reg_setReg_ne _ _ hrp).trans (hregs r (by simpa using hr))

/-- Settles O31: the pop reads back the FLAG word of the state before. -/
theorem popFlagAfterPushFlagRestoresTheFlags : Obligations.PopFlagAfterPushFlagRestoresTheFlags := by
  intro s t h
  obtain ⟨t, hpush, rfl⟩ := finish_next.mp h
  obtain ⟨hregs, hflags⟩ := pushWord_frame hpush
  obtain ⟨hsp, hread⟩ := State.top_of_pushWord hpush
  exact ⟨_, exec_next_iff.mpr (.popFlag (s := t.advance 1) hread), keepsFlags_loadFlags_flagWord (t := t) hflags,
    State.reg_setReg_sp_add_two hsp fun r hr => hregs r (by simpa using hr), fun _ => rfl⟩

end

section
/-! PROOFS. The memory instructions (R110 to R116): what a load into a register and a store at an effective address have
done once their access goes through. -/

namespace Sys2Proof.Machine

/-! ### Loads -/

/-- An instruction that completes by writing `v` to RA and ending is done: RA and PC change, nothing else (R110, R112,
R114). -/
theorem exec_loading_done {i : Instr} {s : State} {ra : Reg} {v : Word} {w : Nat}
    (h : Runs s i ((s.setReg ra v).advance w)) :
    ∃ t, exec i s = .next t ∧ t.reg ra = v ∧ KeepsRegsBut [ra] s t ∧ KeepsFlags s t ∧ KeepsMem s t ∧ KeepsEnv s t ∧
      t.pc = s.pc + BitVec.ofNat 15 w :=
  ⟨_, exec_next_iff.mpr h, s.reg_setReg_same ra v, keepsRegsBut_setReg s ra v, ⟨⟨rfl, rfl, rfl, rfl, rfl⟩, rfl⟩,
    fun _ => rfl, ⟨rfl, rfl, rfl, rfl⟩, s.pc_advance_eq w⟩

/-- A byte put below the high byte of a word is added to the high byte's share of the value (R114). -/
theorem toNat_high_append_byte (x : Word) (b : Byte) :
    (x.extractLsb' 8 8 ++ b : Word).toNat = 256 * (x.toNat / 256) + b.toNat := by
  have hhigh : (x.extractLsb' 8 8).toNat = x.toNat / 256 := by
    rw [BitVec.extractLsb'_toNat, Nat.shiftRight_eq_div_pow]
    omega
  rw [toNat_append_bytes, hhigh]

/-! ### Stores -/

/-- An instruction that stores the word `v` and ends, its two bytes being accessible, is done: the word and PC change,
nothing else (R111, R113). -/
theorem exec_storing_done {i : Instr} {s : State} {a v : Word} {p : Word × Word} {w : Nat}
    (hi : exec i s = finish (s.write16 a v) fun t => t.advance w) (h : Accessible16 s a p) :
    ∃ t, exec i s = .next t ∧ StoresWord p v s t ∧ KeepsRegsBut [] s t ∧ KeepsFlags s t ∧ KeepsEnv s t ∧
      t.pc = s.pc + BitVec.ofNat 15 w := by
  have hstore : s.write16 a v = .ok (s.pokeWord p v) := State.write16_accessible h
  obtain ⟨hregs, hflags⟩ := write16_frame hstore
  exact ⟨_, hi.trans (finish_next.mpr ⟨_, hstore, rfl⟩), s.mem_read_pokeWord p v, hregs, hflags,
    ((write16_storesWithin hstore).advance w).env, s.pc_advance_eq w⟩

end Sys2Proof.Machine

open Sys2Proof Sys2Proof.Machine

/-! ### The obligations -/

/-- Settles O32: both read the word at the effective address, to which LDM adds its displacement as it is. -/
theorem wordLoadsReadTheEffectiveAddress : Obligations.WordLoadsReadTheEffectiveAddress := by
  intro s ra rp d4 d11 v _ _ _ q hq hv
  simp only [List.mem_cons, List.not_mem_nil, or_false] at hq
  rcases hq with rfl | rfl
  · exact exec_loading_done (.ldm (s.effAddr_natCast rp d4 ▸ holds16_iff.mp hv))
  · exact exec_loading_done (.ldw (holds16_iff.mp hv))

/-- Settles O33: both store the word at the effective address, to which STM adds its displacement as it is. -/
theorem wordStoresWriteTheEffectiveAddress : Obligations.WordStoresWriteTheEffectiveAddress := by
  intro s ra rp d4 d11 p _ _ _ q hq hp
  simp only [List.mem_cons, List.not_mem_nil, or_false] at hq
  rcases hq with rfl | rfl
  · exact exec_storing_done (a := s.effAddr rp d4) rfl (s.effAddr_natCast rp d4 ▸ hp)
  · exact exec_storing_done rfl hp

/-- Settles O34: the loaded byte is joined to RA's old high byte. -/
theorem loadByteReplacesTheLowByteOnly : Obligations.LoadByteReplacesTheLowByteOnly := by
  intro s ra rp d b _ _ hacc hmem
  have hread : s.read8 (s.effAddr rp d) = .ok b := State.readByte_ok.mpr ⟨hacc, hmem⟩
  rw [← toNat_high_append_byte]
  obtain ⟨t, hexec, hra, hframe⟩ := exec_loading_done (.ldb hread)
  exact ⟨t, hexec, congrArg BitVec.toNat hra, hframe⟩

/-- Settles O35: the byte stored is bits 7:0 of RA, and the store has its frame from `write8`. -/
theorem storeByteWritesOneByteOnly : Obligations.StoreByteWritesOneByteOnly := by
  intro s ra rp d _ _ hacc
  have hstore : s.write8 (s.effAddr rp d) ((s.reg ra).extractLsb' 0 8) = .ok _ := State.write8_ok.mpr ⟨hacc, rfl⟩
  obtain ⟨hregs, hflags⟩ := write8_frame hstore
  exact ⟨_, exec_next_iff.mpr (.stb hstore), s.mem_read_pokeByte _ _, hregs, hflags,
    ((write8_storesWithin hstore).advance 2).env, s.pc_advance_eq 2⟩

end

section
/-! PROOFS. The ALU instructions (R120 to R171): each operation's result and carry said once in the words of R121, and
from it the effect of the instruction in its three operand forms. -/

namespace Sys2Proof.Machine

/-! ### Results of the operators -/

theorem AluResult.eq_mk {r : AluResult} {v : Word} {c : Carry} (hv : r.value = v) (hc : r.carry = c) :
    r = { value := v, carry := c } := by
  subst hv hc; rfl

/-- Addition with a carry in: the sum modulo 2^16 and the carry out (R128). -/
theorem addResult_eq (a b : Word) (cin : Bool) :
    addResult a b cin = { value := a + b + BitVec.ofNat 16 cin.toNat,
                          carry := some (decide (65536 ≤ a.toNat + b.toNat + cin.toNat)) } :=
  AluResult.eq_mk (addResult_value a b cin) (addResult_carry a b cin)

/-- Addition without a carry in (R127). -/
theorem addResult_false (a b : Word) :
    addResult a b false = { value := a + b, carry := some (decide (65536 ≤ a.toNat + b.toNat)) } := by
  simpa using addResult_eq a b false

/-- Subtraction with a borrow in: the difference modulo 2^16 and the borrow out (R130). -/
theorem subResult_eq (a b : Word) (cin : Bool) :
    subResult a b cin = { value := a - b - BitVec.ofNat 16 cin.toNat,
                          carry := some (decide (a.toNat < b.toNat + cin.toNat)) } :=
  AluResult.eq_mk (subResult_value a b cin) (subResult_carry a b cin)

/-- Subtraction without a borrow in (R129, R134). -/
theorem subResult_false (a b : Word) :
    subResult a b false = { value := a - b, carry := some (decide (a.toNat < b.toNat)) } := by
  simpa using subResult_eq a b false

/-- The high half of the exact product, the operands read as signed or not (R121, R132). -/
theorem ofInt_exactProduct_high (signed : Bool) (a b : Word) :
    BitVec.ofInt 16 (exactProduct signed a b / 65536) =
      if signed = true then BitVec.ofInt 16 (a.toInt * b.toInt / 65536)
      else BitVec.ofNat 16 (a.toNat * b.toNat / 65536) := by
  cases signed with
  | true => rfl
  | false => exact BitVec.ofInt_natCast 16 (a.toNat * b.toNat / 65536)

/-- Bit 16 of the exact product, the operands read as signed or not (R131). -/
theorem bit16_exactProduct (signed : Bool) (a b : Word) :
    decide (exactProduct signed a b / 65536 % 2 = 1) =
      if signed = true then decide (a.toInt * b.toInt / 65536 % 2 = 1)
      else decide (a.toNat * b.toNat / 65536 % 2 = 1) := by
  cases signed with
  | true => rfl
  | false => simp only [exactProduct, Bool.false_eq_true, if_false]; norm_cast

/-! ### The three operand forms -/

/-- An 8-bit immediate in range is the operand itself (R54, R140). -/
theorem imm8Operand_eq {imm : Nat} (h : imm ≤ 255) : imm8Operand imm = BitVec.ofNat 16 imm := by
  apply BitVec.eq_of_toNat_eq
  simp only [imm8Operand, BitVec.toNat_setWidth, BitVec.toNat_ofNat]
  omega

/-- An ALU operation in its three operand forms, each with its second operand and its word count (R122, R140,
R160); the statements list these forms with the operation given. -/
def aluForms (s : State) (ra rb : Reg) (imm : Nat) (k : Word) (op : AluOp) : List (Instr × Word × Nat) :=
  [(aluRegInstr ra rb op, s.reg rb, 1), (aluImm8Instr ra imm op, BitVec.ofNat 16 imm, 1), (aluImm16Instr ra k op, k, 2)]

/-- Each form runs the template on its second operand. -/
theorem exec_of_mem_aluForms {s : State} {ra rb : Reg} {imm : Nat} {k : Word} {op : AluOp} (himm : imm ≤ 255)
    {q : Instr × Word × Nat} (hq : q ∈ aluForms s ra rb imm k op) :
    exec q.1 s = .next (s.alu op ra q.2.1 q.2.2) := by
  simp only [aluForms, List.mem_cons, List.not_mem_nil, or_false] at hq
  rcases hq with rfl | rfl | rfl
  · exact exec_aluRegInstr ra rb op s
  · exact imm8Operand_eq himm ▸ exec_aluImm8Instr ra imm op s
  · exact exec_aluImm16Instr ra k op s

/-- Each form has the effect of R122 for the value and the carry its operator answers. -/
theorem aluForms_effect (op : AluOp) {s : State} {ra rb : Reg} {imm : Nat} {k : Word} (himm : imm ≤ 255)
    {q : Instr × Word × Nat} (hq : q ∈ aluForms s ra rb imm k op) {v : Word} {c : Carry}
    (hres : aluResult s.cfg op (s.reg ra) q.2.1 s.cf = { value := v, carry := c }) :
    ∃ t, exec q.1 s = .next t ∧ AluEffect ra q.2.2 v c (aluWrites op) s t := by
  have heffect := s.alu_effect op ra q.2.1 q.2.2
  rw [hres] at heffect
  exact ⟨_, exec_of_mem_aluForms himm hq, heffect⟩

/-! ### The flag rule -/

/-- NF is the sign of the result and VF that sign XOR the sign of the old RA, so their XOR is the latter (R120). -/
theorem State.nf_xor_vf_alu (s : State) (op : AluOp) (ra : Reg) (b : Word) (w : Nat) :
    ((s.alu op ra b w).nf ^^ (s.alu op ra b w).vf) = (s.reg ra).getLsbD 15 := by
  obtain ⟨-, hnf, -, hvf, -⟩ := s.alu_effect op ra b w
  rw [hnf, hvf, Bool.xor_left_comm, Bool.xor_self, Bool.xor_false]

end Sys2Proof.Machine

open Sys2Proof Sys2Proof.Machine

/-! ### The obligations -/

/-- Settles O42: the operand is the result of a logical operation. -/
theorem movMovesAndSetsFlags : Obligations.MovMovesAndSetsFlags :=
  fun _ _ _ _ _ himm _ hq => aluForms_effect .mov himm hq rfl

/-- Settles O43: AND and TST answer the same result; TST has no destination. -/
theorem andAndTstCombineBitwise : Obligations.AndAndTstCombineBitwise :=
  fun _ _ _ _ _ himm =>
    ⟨fun _ hq => aluForms_effect .and himm hq rfl, fun _ hq => aluForms_effect .tst himm hq rfl⟩

/-- Settles O44: both are logical operations. -/
theorem orAndXorCombineBitwise : Obligations.OrAndXorCombineBitwise :=
  fun _ _ _ _ _ himm =>
    ⟨fun _ hq => aluForms_effect .or himm hq rfl, fun _ hq => aluForms_effect .xor himm hq rfl⟩

/-- Settles O45: ADC has the old CF as its carry in, ADD has none. -/
theorem addAndAdcAddWithCarryOut : Obligations.AddAndAdcAddWithCarryOut :=
  fun _ _ _ _ _ himm =>
    ⟨fun _ hq => aluForms_effect .add himm hq (addResult_false ..),
      fun _ hq => aluForms_effect .adc himm hq (addResult_eq ..)⟩

/-- Settles O46: SBC has the old CF as its borrow in, SUB and CMP have none; CMP has no destination. -/
theorem subSbcAndCmpSubtractWithBorrow : Obligations.SubSbcAndCmpSubtractWithBorrow :=
  fun _ _ _ _ _ himm =>
    ⟨fun _ hq => aluForms_effect .sub himm hq (subResult_false ..),
      fun _ hq => aluForms_effect .sbc himm hq (subResult_eq ..),
      fun _ hq => aluForms_effect .cmp himm hq (subResult_false ..)⟩

/-- Settles O47: the low half is the same for either signedness, bit 16 is that of the exact product. -/
theorem mltKeepsTheLowHalfOfTheProduct : Obligations.MltKeepsTheLowHalfOfTheProduct := by
  intro s ra rb imm k himm q hq
  refine aluForms_effect .mlt himm hq (AluResult.eq_mk (mltResult_value ..) ?carry)
  exact (mltResult_carry ..).trans (congrArg some (bit16_exactProduct ..))

/-- Settles O48: the value is the exact product divided by 2^16; CF is settled for each `MLH_CF`. -/
theorem mlhKeepsTheHighHalfOfTheProduct : Obligations.MlhKeepsTheHighHalfOfTheProduct := by
  intro s ra rb imm k himm q hq
  refine aluForms_effect .mlh himm hq
    (AluResult.eq_mk ((mlhResult_value ..).trans (ofInt_exactProduct_high ..)) ?carry)
  refine (mlhResult_carry ..).trans ?_
  cases s.cfg.mlhCf with
  | productBit16 => exact congrArg some (bit16_exactProduct ..)
  | zero => rfl
  | draw => rfl

/-- Settles O49: each form is the template, of which `State.nf_xor_vf_alu` says it. -/
theorem nfXorVfIsTheOldSignAfterEveryAluInstruction : Obligations.NfXorVfIsTheOldSignAfterEveryAluInstruction := by
  intro s t i op ra hform hexec
  obtain ⟨b, w, hrun⟩ : ∃ b w, exec i s = .next (s.alu op ra b w) := by
    rcases hform with ⟨rb, rfl⟩ | ⟨imm, rfl⟩ | ⟨k, rfl⟩
    exacts [⟨_, _, exec_aluRegInstr ..⟩, ⟨_, _, exec_aluImm8Instr ..⟩, ⟨_, _, exec_aluImm16Instr ..⟩]
  rw [hrun] at hexec
  cases hexec
  exact s.nf_xor_vf_alu op ra b w

end

section
/-! PROOFS. The exceptions (R190 to R199): what RESET and the entry into an interrupt have done, which request is not
taken, how IF can become 1, and the return from an interrupt. -/

namespace Sys2Proof.Machine

/-! ### The entry into an interrupt -/

/-- The interrupt exception writes R15 and no other register, clears IF, leaves the other flags alone, and draws a free
value only for the pushed bit (R191). -/
theorem takeInterrupt_frame {s t : State} {v : BitVec 15} (h : s.takeInterrupt v = .ok t) :
    KeepsRegsBut [spReg] s t ∧ t.iflag = false ∧ (t.cf = s.cf ∧ t.zf = s.zf ∧ t.vf = s.vf ∧ t.nf = s.nf) ∧
      t.draws = s.draws + (if s.cfg.intPushedIf = .draw then 1 else 0) := by
  obtain ⟨u, x, hpush, -, rfl⟩ := State.takeInterrupt_ok.mp h
  rw [State.afterPushedIF_eq] at hpush
  obtain ⟨hregs, ⟨hcf, hzf, hvf, hnf, hdraws⟩, hif⟩ := pushWord_frame hpush
  exact ⟨hregs, hif, ⟨hcf, hzf, hvf, hnf⟩, hdraws⟩

/-- After the interrupt exception R15 is 2 less, and the return word stands there (R191). -/
theorem takeInterrupt_top {s t : State} {v : BitVec 15} (h : s.takeInterrupt v = .ok t) :
    t.sp = s.sp - 2 ∧ t.read16 t.sp = .ok (returnWord s.pcAddr (s.pushedIF s.iflag)) := by
  obtain ⟨u, x, hpush, -, rfl⟩ := State.takeInterrupt_ok.mp h
  rw [State.afterPushedIF_eq] at hpush
  obtain ⟨hsp, hread⟩ := State.top_of_pushWord hpush
  exact ⟨hsp, hread⟩

/-- The push of the interrupt exception stores the return word (R191). -/
theorem State.storesWord_afterIntPush (s : State) (p : Word × Word) :
    StoresWord p (returnWord s.pcAddr (s.pushedIF s.iflag)) s (s.afterIntPush p) := by
  intro n
  rw [State.afterIntPush, State.mem_read_pokeWord, State.afterPushedIF_eq]
  rfl

/-- The push changes neither `MEMMAP` nor the program text, and so no access (R37, R44). -/
theorem State.access_afterIntPush (s : State) (p : Word × Word) (a : Word) :
    (s.afterIntPush p).access a = s.access a := by
  rw [State.access_eq, State.access_eq, State.blocked_congr (s.cfg_afterIntPush p) (s.prog_afterIntPush p)]

/-- With the pushed bytes accessible and a vector word to be read after the push, the interrupt is taken (R191). -/
theorem State.takeInterrupt_accessible {s : State} {v : BitVec 15} {p : Word × Word} {x : Word}
    (hp : Accessible16 s (s.sp - 2) p) (hx : Holds16 (s.afterIntPush p) (vectorAddr v) x) :
    s.takeInterrupt v = .ok (((s.afterIntPush p).jump x).tick 3) :=
  State.takeInterrupt_ok.mpr ⟨_, x, State.pushWord_afterIntPush hp, holds16_iff.mp hx, rfl⟩

/-! ### The vector table -/

/-- The vector table has its words at even addresses (R38). -/
theorem toNat_vectorAddr (v : BitVec 15) : (vectorAddr v).toNat = 2 * v.toNat := by
  have h : (vectorAddr v).toNat = v.toNat <<< 1 ||| (0#1).toNat := BitVec.toNat_append v 0#1
  simpa [Nat.shiftLeft_eq, Nat.mul_comm] using h

/-- A vector word is read from the bytes `2*v` and `2*v + 1` (R31, R38). -/
theorem holds16_vectorAddr {s : State} {v : BitVec 15} {x y : Byte} (hacc0 : s.access (vectorAddr v) = .ok ())
    (hacc1 : s.access (vectorAddr v + 1) = .ok ()) (hx : s.mem.read (2 * v.toNat) = some x)
    (hy : s.mem.read (2 * v.toNat + 1) = some y) : Holds16 s (vectorAddr v) (joinBytes s.cfg.byteOrder x y) := by
  have haddr := toNat_vectorAddr v
  have heven : (vectorAddr v).toNat % 2 = 0 := by omega
  refine ⟨_, x, y, ⟨s.wordBytes_even heven, hacc0, hacc1⟩, ?_, ?_, rfl⟩
  · rwa [haddr]
  · rwa [toNat_add_one_of_even heven, haddr]

/-! ### The interrupt flag -/

/-- From IF = 0 an instruction other than STI and RET STI completes with IF = 0: of the four that write IF the other
two clear it (R16, R199). -/
theorem exec_keeps_iflag_false {i : Instr} {s t : State} (h : exec i s = .next t) (hsti : i ≠ .sti)
    (hretSti : i ≠ .retSti) (hs : s.iflag = false) : t.iflag = false := by
  by_cases hcli : i = .cli
  · subst hcli
    cases h
    rfl
  by_cases hretCli : i = .retCli
  · subst hretCli
    obtain ⟨u, -, rfl⟩ := finish_next.mp h
    rfl
  obtain ⟨hkeep, -⟩ := onlyListedInstructionsWriteFlags i s t h
  exact (hkeep (by simp [hcli, hsti, hretCli, hretSti])).trans hs

end Sys2Proof.Machine

open Sys2Proof Sys2Proof.Machine

/-! ### The obligations -/

/-- Settles O10: the RESET exception completes on the vector word it reads. -/
theorem resetExceptionLoadsPcFromItsVector : Obligations.ResetExceptionLoadsPcFromItsVector := by
  intro s v hreset hv
  have htake : s.passBoundary.takeReset = .ok (((s.passBoundary.setIF false).jump v).tick 2) :=
    State.takeReset_ok.mpr ⟨v, holds16_iff.mp hv, rfl⟩
  obtain ⟨hprog, hcfg, hinputs, hcycles⟩ := takeReset_keepsEnvBut htake
  exact ⟨_, (step_of_reset hreset).trans (finish_next.mpr ⟨_, htake, rfl⟩), rfl,
    (s.passBoundary.setIF false).pcAddr_jump v, fun _ => rfl, ⟨rfl, rfl, rfl, rfl, rfl⟩, fun _ => rfl, hprog, hcfg,
    hinputs, hcycles⟩

/-- Settles O12: the push is done, and the vector word is read in the memory it leaves. -/
theorem interruptEntrySavesPcAndGoesToItsVector : Obligations.InterruptEntrySavesPcAndGoesToItsVector := by
  intro s v p y0 y1 hb hif hp b pushed afterPush hacc0 hacc1 hy0 hy1
  have hbit : s.pushedIF s.iflag = b := by rw [hif]; rfl
  have hword : returnWord s.pcAddr (s.pushedIF s.iflag) = pushed := by
    rw [hbit]
    exact returnWord_even (by simp [State.pcAddr_toNat]) b
  have hstore : StoresWord p pushed s (s.passBoundary.afterIntPush p) :=
    hword ▸ s.passBoundary.storesWord_afterIntPush p
  have hacc := s.passBoundary.access_afterIntPush p
  have hx : Holds16 (s.passBoundary.afterIntPush p) (vectorAddr v) (joinBytes s.cfg.byteOrder y0 y1) := by
    have hread := holds16_vectorAddr ((hacc _).trans hacc0) ((hacc _).trans hacc1) ((hstore _).trans hy0)
      ((hstore _).trans hy1)
    rwa [State.cfg_afterIntPush] at hread
  have htake := State.takeInterrupt_accessible (s := s.passBoundary) hp hx
  obtain ⟨hregs, hif', ⟨hcf, hzf, hvf, hnf⟩, hdraws⟩ := takeInterrupt_frame htake
  obtain ⟨hsp, -⟩ := takeInterrupt_top htake
  obtain ⟨hprog, hcfg, hinputs, hcycles⟩ := takeInterrupt_keepsEnvBut htake
  exact ⟨_, (step_of_request hb hif).trans (finish_next.mpr ⟨_, htake, rfl⟩), hif',
    (s.passBoundary.afterIntPush p).pcAddr_jump _, hsp, hregs, hstore, hcf, hzf, hvf, hnf, hprog, hcfg, hinputs,
    hcycles, hdraws⟩

/-- Settles O14: RESET clears IF, no interrupt is taken, and of the instructions only STI and RET STI set IF. -/
theorem fromIfZeroOnlyStiAndRetStiLeadToIfOne : Obligations.FromIfZeroOnlyStiAndRetStiLeadToIfOne := by
  intro s t hs h hsti hretSti
  rcases step_next h with ⟨-, hreset⟩ | ⟨v, -, hacc, -⟩ | ⟨i, u, -, -, hentry, -, hexec, rfl⟩
  · obtain ⟨v, -, rfl⟩ := State.takeReset_ok.mp hreset
    rfl
  · rw [State.accepted_of_iflag_false hs] at hacc
    cases hacc
  · rw [hentry] at hsti hretSti
    have hu : u.iflag = false :=
      exec_keeps_iflag_false hexec (mt (congrArg some) hsti) (mt (congrArg some) hretSti) hs
    exact hu

/-- Settles O15: RET STI finds the return word at R15, takes PC from it, gives R15 its 2 back and sets IF. -/
theorem retStiResumesTheInterruptedProgram : Obligations.RetStiResumesTheInterruptedProgram := by
  intro s t v _ h
  obtain ⟨hregs, -, ⟨hcf, hzf, hvf, hnf⟩, -⟩ := takeInterrupt_frame h
  obtain ⟨hsp, hread⟩ := takeInterrupt_top h
  refine ⟨_, exec_returns hread (.retSti, true) (by simp), ?pc, ?regs, rfl, hcf, hzf, hvf, hnf, fun _ => rfl⟩
  case pc => exact (toPc_returnWord ..).trans s.toPc_pcAddr
  case regs => exact State.reg_setReg_sp_add_two hsp fun r hr => hregs r (by simpa using hr)

/-- Settles O11: a step into RESET passes the boundary, and the request with it. -/
theorem resetHasPriorityOverAnInterrupt : Obligations.ResetHasPriorityOverAnInterrupt :=
  fun _ _ _ => (step_of_reset rfl).trans (step_of_reset rfl).symm

/-- Settles O13: with IF = 0 the step at a boundary without reset is the instruction at PC, whatever is requested. -/
theorem interruptIsMaskedByIfZero : Obligations.InterruptIsMaskedByIfZero := by
  intro s irq later hif
  have hstep : ∀ b : Boundary, b.reset = false →
      step { s with inputs := b :: later } = State.runInstr { s with inputs := later } :=
    fun b hb => step_of_no_exception (s := { s with inputs := b :: later }) hb (.inl hif)
  exact (hstep _ rfl).trans (hstep _ rfl).symm

end

section
/-! PROOFS. The timing table (R232): the cycle counts of the families, and the table row by row. -/

namespace Sys2Proof.Machine

/-! ### The families in `instrCycles` -/

/-- Every branch takes 1 cycle, whatever its condition (R232). -/
@[simp] theorem instrCycles_branchInstr (rel : Int) (c : Cond) : instrCycles (branchInstr rel c) = 1 := by
  cases c <;> rfl

/-- Every register jump takes 1 cycle, whatever its condition (R232). -/
@[simp] theorem instrCycles_jumpRegInstr (rb : Reg) (c : Cond) : instrCycles (jumpRegInstr rb c) = 1 := by
  cases c <;> rfl

/-- Every address jump takes 2 cycles, whatever its condition (R232). -/
@[simp] theorem instrCycles_jumpAbsInstr (abs : Word) (c : Cond) : instrCycles (jumpAbsInstr abs c) = 2 := by
  cases c <;> rfl

/-- Every ALU instruction with a register takes 1 cycle, the multiplies too (R232). -/
@[simp] theorem instrCycles_aluRegInstr (ra rb : Reg) (op : AluOp) : instrCycles (aluRegInstr ra rb op) = 1 := by
  cases op <;> rfl

/-- Every ALU instruction with an 8-bit immediate takes 1 cycle, the multiplies too (R232). -/
@[simp] theorem instrCycles_aluImm8Instr (ra : Reg) (imm : Nat) (op : AluOp) :
    instrCycles (aluImm8Instr ra imm op) = 1 := by
  cases op <;> rfl

/-- Every ALU instruction with a 16-bit immediate takes 2 cycles, the multiplies too (R232). -/
@[simp] theorem instrCycles_aluImm16Instr (ra : Reg) (imm : Word) (op : AluOp) :
    instrCycles (aluImm16Instr ra imm op) = 2 := by
  cases op <;> rfl

/-- Where the format of `i` has `w` words and `i` takes `k` cycles, its row of R232 has the counts `w` and `k`. -/
theorem counts_of_format {i : Instr} {f : Fields} {w k : Nat} (hf : fieldsOf i = f) (hw : f.selector.words = w)
    (hk : instrCycles i = k) : (i.words, instrCycles i) = (w, k) := by
  rw [i.words_eq_selector_words, hf, hw, hk]

end Sys2Proof.Machine

open Sys2Proof Sys2Proof.Machine

/-! ### The obligation -/

/-- Settles O57: a row of a family has the word count of its format and the cycle count of the family; a row that
lists its instructions holds when the column of their counts repeats one pair. -/
theorem wordAndCycleCountsAreThoseOfTheTable : Obligations.WordAndCycleCountsAreThoseOfTheTable := by
  intro rel d11 ra rb rp abs k d4 imm c op n
  refine ⟨List.map_eq_replicate_iff.mp rfl, ?branch, ?jumpReg, ?jumpAbs, rfl, rfl, List.map_eq_replicate_iff.mp rfl,
    List.map_eq_replicate_iff.mp rfl, ?aluReg, ?aluImm8, ?aluImm16⟩
  case branch => exact counts_of_format (fieldsOf_branchInstr ..) rfl (instrCycles_branchInstr ..)
  case jumpReg => exact counts_of_format (fieldsOf_jumpRegInstr ..) rfl (instrCycles_jumpRegInstr ..)
  case jumpAbs => exact counts_of_format (fieldsOf_jumpAbsInstr ..) rfl (instrCycles_jumpAbsInstr ..)
  case aluReg => exact counts_of_format (fieldsOf_aluRegInstr ..) rfl (instrCycles_aluRegInstr ..)
  case aluImm8 => exact counts_of_format (fieldsOf_aluImm8Instr ..) rfl (instrCycles_aluImm8Instr ..)
  case aluImm16 => exact counts_of_format (fieldsOf_aluImm16Instr ..) rfl (instrCycles_aluImm16Instr ..)

end
